-- ==== Sys2Proof/Word.lean ====
section
/-!
DEFINITION. The word types of the machine (00_scope.md rules R14 to R16): unsigned bit vectors that wrap.
-/

namespace Sys2Proof

/-- A byte of memory, a general register, a timer (10_state.md rules R30, R38; 20_memory.md rule R80). -/
abbrev Byte := BitVec 8

/-- An instruction word (30_encoding.md rule R110). -/
abbrev Word := BitVec 16

/-- A 4-bit field of an instruction word (00_scope.md rule R14). -/
abbrev Nibble := BitVec 4

/-- A 12-bit immediate (00_scope.md rule R14). -/
abbrev Imm12 := BitVec 12

/-- An address, wide enough for the largest memory, 16 MiB (00_scope.md rule R10). `PC`, `I` and the stack
entries are held in it and masked to the variant's width at every write (10_state.md rules R33, R36). -/
abbrev Addr := BitVec 24

/-- An ARGB colour (41_display.md rule R251). -/
abbrev Argb := BitVec 32

/-- The number of a general register, of a flags-storage byte or of a key (10_state.md rules R30, R39, R59). -/
abbrev RegIx := Fin 16

end Sys2Proof
end

