-- ==== Sys2Proof/Config.lean ====
section
/-!
DEFINITION. What is fixed for a session: the types of the settings (00_scope.md rules R2, R9, R13; 10_state.md
rules R44, R45), and the OPEN parameters of 92_eei_decisions.md, each a constant with no body.
-/

namespace Sys2Proof

/-- The variant identifier `V` (00_scope.md rule R2). -/
inductive Variant where
  | chip8 | schip10 | schip11 | schipm | xochip | megachip | hwc64 | chip8x
  deriving DecidableEq, Repr

/-- The boolean fields of the quirk set `Q` (10_state.md rule R45). Its seventh field, the default
instructions-per-frame, is fixed by the variant: `Config.ipfDefault` (10_state.md rule R47). -/
structure Quirks where
  /-- `8XY1`, `8XY2`, `8XY3` clear `VF`. -/
  vfReset : Bool
  /-- `FX55`, `FX65` advance `I`. -/
  autoIncI : Bool
  /-- A draw stops execution until the next frame. -/
  displayWait : Bool
  /-- Sprite pixels past an edge wrap instead of being clipped. -/
  wrap : Bool
  /-- `8XY6`, `8XYE` read `VX` instead of `VY`. -/
  shiftInPlace : Bool
  /-- `BNNN` adds `VX` instead of `V0`. -/
  jumpWithVX : Bool
  deriving DecidableEq, Repr

/-- The resolved settings of a session (00_scope.md rules R9, R11, R13). -/
structure Settings where
  variant : Variant
  quirks : Quirks
  /-- `IPF_TARGET`, at least 1. -/
  ipfTarget : Nat
  paletteId : Nat
  /-- `FRAME_RATE`, positive. -/
  frameRate : Nat
  /-- `STRICT`, true only on `CHIP8` (00_scope.md rule R13). -/
  strict : Bool
  deriving DecidableEq, Repr

/-- What the host asks for: whatever it leaves out takes its default (10_state.md rules R45 to R47; D30). -/
structure SettingsRequest where
  variant : Variant
  vfReset : Option Bool := none
  autoIncI : Option Bool := none
  displayWait : Option Bool := none
  wrap : Option Bool := none
  shiftInPlace : Option Bool := none
  jumpWithVX : Option Bool := none
  ipfTarget : Option Nat := none
  paletteId : Nat := 0
  frameRate : Option Nat := none
  strict : Bool := false
  deriving DecidableEq, Repr

/-! ## OPEN parameters and free values (notes/assumptions/4.md, 5.md, 7.md, 11.md) -/

/-- `IPF_DEFAULT(V)` less one (10_state.md rule R47). -/
opaque Config.ipfDefaultLessOne : Variant → Nat

/-- `IPF_DEFAULT(V)`, at least 1 (10_state.md rule R47). -/
def Config.ipfDefault (v : Variant) : Nat := Config.ipfDefaultLessOne v + 1

/-- The bytes of `BIG_FONT`, by offset 0 to 159 (20_memory.md rule R87). -/
opaque Config.bigFont : Nat → Byte

/-- `SAMPLE_RATE` less one (00_scope.md rule R11). -/
opaque Config.sampleRateLessOne : Nat

/-- `SAMPLE_RATE`, positive (00_scope.md rule R11). -/
def Config.sampleRate : Nat := Config.sampleRateLessOne + 1

/-- Whether `PCM_WIDTH` is 16 (else 8) bits (00_scope.md rule R11). -/
opaque Config.pcmIsWide : Bool

/-- `PCM_WIDTH` in bits (00_scope.md rule R11). -/
def Config.pcmWidth : Nat := if Config.pcmIsWide then 16 else 8

/-- The number from which `AMPLITUDE` is taken. -/
opaque Config.amplitudeSeed : Nat

/-- `AMPLITUDE`, positive and fitting `PCM_WIDTH` (44_keys_timers_sound.md rule R391): any value from 1 to
127, or from 1 to 32767. -/
def Config.amplitude : Nat := Config.amplitudeSeed % (2 ^ (Config.pcmWidth - 1) - 1) + 1

/-- The rounding of `AUDIO_NUM`: the machine number held for an exact result (44_keys_timers_sound.md rule R389). -/
opaque Config.audioRound : Rat → Rat

/-- The number `AUDIO_NUM` has for `2^((PITCH - 64) / 48)` where that is irrational (44_keys_timers_sound.md
rules R388, R389). -/
opaque Config.pitchRatioFree : Byte → Rat

/-- `PALETTE(palette id)`: 16 ARGB words (41_display.md rule R251). -/
opaque Config.palette : Nat → Fin 16 → Argb

/-- The number from which `PACER_MAX_LAG` is taken. -/
opaque Config.pacerMaxLagSeed : Rat

/-- `PACER_MAX_LAG` in seconds, a duration: any number that is not negative (70_reset_and_hazards.md rule R490). -/
def Config.pacerMaxLag : Rat := if 0 ≤ Config.pacerMaxLagSeed then Config.pacerMaxLagSeed else 0

/-- The number from which `THROTTLE_DIVISOR` is taken. -/
opaque Config.throttleDivisorSeed : Rat

/-- `THROTTLE_DIVISOR` in seconds per instruction, a positive duration: any positive number
(70_reset_and_hazards.md rule R495). -/
def Config.throttleDivisor : Rat := if 0 < Config.throttleDivisorSeed then Config.throttleDivisorSeed else 1

/-- The free byte of the n-th draw (40_alu.md rule R170; 10_state.md rule R40). -/
opaque Config.freeByte : Nat → Byte

end Sys2Proof
end

