-- ==== Sys2Proof/Machine/Params.lean ====
section
/-!
DEFINITION. The parameters derived from the variant (00_scope.md rules R3, R4, R10, R12), the quirk defaults
(10_state.md rule R46), the fonts (20_memory.md rules R86, R87) and the resolution of the settings.
-/

namespace Sys2Proof.Machine

/-- `schipClass(V)` (00_scope.md rule R3). -/
def schipClass : Variant → Bool
  | .schip10 | .schip11 | .schipm | .megachip => true
  | .chip8 | .xochip | .hwc64 | .chip8x => false

/-- `legacySchip(V)` (00_scope.md rule R3). -/
def legacySchip : Variant → Bool
  | .schip10 | .schip11 | .megachip => true
  | .chip8 | .schipm | .xochip | .hwc64 | .chip8x => false

/-- `xoClass(V)` (00_scope.md rule R3). -/
def xoClass : Variant → Bool
  | .xochip | .hwc64 => true
  | .chip8 | .schip10 | .schip11 | .schipm | .megachip | .chip8x => false

/-- `chip8Class(V)` (00_scope.md rule R3). -/
def chip8Class : Variant → Bool
  | .chip8 | .chip8x => true
  | .schip10 | .schip11 | .schipm | .xochip | .megachip | .hwc64 => false

/-- `hiresCapable(V)` (00_scope.md rule R3). -/
def hiresCapable (v : Variant) : Bool := schipClass v || xoClass v

/-- The partially specified variants (00_scope.md rule R4). -/
def partiallySpecified : Variant → Bool
  | .megachip | .hwc64 | .chip8x => true
  | .chip8 | .schip10 | .schip11 | .schipm | .xochip => false

/-- The variant whose instruction set `V` runs (00_scope.md rule R4). -/
def parentVariant : Variant → Variant
  | .megachip => .schip11
  | .hwc64 => .xochip
  | .chip8x => .chip8
  | .chip8 => .chip8
  | .schip10 => .schip10
  | .schip11 => .schip11
  | .schipm => .schipm
  | .xochip => .xochip

/-- The number of address bits: `MEM_SIZE(V)` is two to it (00_scope.md rule R10). -/
def addrBits : Variant → Nat
  | .chip8 | .chip8x | .schip10 | .schip11 | .schipm => 12
  | .xochip | .hwc64 => 16
  | .megachip => 24

/-- `MEM_SIZE(V)` in bytes (00_scope.md rule R10). -/
def memSize (v : Variant) : Nat := 2 ^ addrBits v

/-- `ADDR_MASK` (00_scope.md rule R12). -/
def addrMask (v : Variant) : Addr := BitVec.ofNat 24 (memSize v - 1)

/-- `PROG_START(V)` (00_scope.md rule R10). -/
def progStart : Variant → Addr
  | .chip8x => 0x300
  | .chip8 | .schip10 | .schip11 | .schipm | .xochip | .megachip | .hwc64 => 0x200

/-- `I_WIDTH` (00_scope.md rule R12). -/
def iWidth : Variant → Nat
  | .megachip => 24
  | .chip8 | .schip10 | .schip11 | .schipm | .xochip | .hwc64 | .chip8x => 16

/-- The mask that reduces a value modulo `2^I_WIDTH` (10_state.md rule R36). -/
def iMask (v : Variant) : Addr := BitVec.ofNat 24 (2 ^ iWidth v - 1)

/-- `PLANES(V)` (00_scope.md rule R12). -/
def planeCount (v : Variant) : Nat := if xoClass v then 4 else 1

/-- `FLAG_COUNT(V)` (00_scope.md rule R12). -/
def flagCount (v : Variant) : Nat := if xoClass v then 16 else if schipClass v then 8 else 0

/-- `STACK_DEPTH` (00_scope.md rule R12). -/
abbrev stackDepth : Nat := 16

/-- The default quirks of a variant (10_state.md rule R46). -/
def defaultQuirks : Variant → Quirks
  | .chip8 | .chip8x => ⟨true, true, true, false, false, false⟩
  | .schip10 | .schip11 | .schipm | .megachip => ⟨false, false, false, false, true, true⟩
  | .xochip | .hwc64 => ⟨false, true, false, true, false, false⟩

/-- The resolution of the settings at construction (10_state.md rules R45 to R47; 00_scope.md rules R11, R13; notes/assumptions/16.md). -/
def resolveSettings (r : SettingsRequest) : Settings :=
  let d := defaultQuirks r.variant
  { variant := r.variant
    quirks :=
      { vfReset := r.vfReset.getD d.vfReset
        autoIncI := r.autoIncI.getD d.autoIncI
        displayWait := r.displayWait.getD d.displayWait
        wrap := r.wrap.getD d.wrap
        shiftInPlace := r.shiftInPlace.getD d.shiftInPlace
        jumpWithVX := r.jumpWithVX.getD d.jumpWithVX }
    ipfTarget := r.ipfTarget.getD (Config.ipfDefault r.variant)
    paletteId := r.paletteId
    frameRate := r.frameRate.getD 60
    strict := r.strict && r.variant == .chip8 }

/-- The settings of the session that `State.reset` is (notes/assumptions/1.md): XO-CHIP, the variant whose
decoder admits every row of the opcode table, with its default quirks and a target of 1000.
DESIGN CHOICE. -/
def resetRequest : SettingsRequest := { variant := .xochip, ipfTarget := some 1000 }

/-! ## Fonts -/

/-- `SMALL_FONT_BASE` (20_memory.md rule R86). -/
def smallFontBase : Addr := 0x000

/-- `BIG_FONT_BASE` (20_memory.md rule R87). -/
def bigFontBase : Addr := 0x050

/-- The bytes of glyphs 0 to 7 of the small font (20_memory.md rule R86). -/
def smallFontLow : List Byte :=
  [0xF0, 0x90, 0x90, 0x90, 0xF0,  0x20, 0x60, 0x20, 0x20, 0x70,  0xF0, 0x10, 0xF0, 0x80, 0xF0,
   0xF0, 0x10, 0xF0, 0x10, 0xF0,  0x90, 0x90, 0xF0, 0x10, 0x10,  0xF0, 0x80, 0xF0, 0x10, 0xF0,
   0xF0, 0x80, 0xF0, 0x90, 0xF0,  0xF0, 0x10, 0x20, 0x40, 0x40]

/-- The bytes of glyphs 8 to F of the small font, as 20_memory.md rule R86 lists them; notes/assumptions/18.md names
where the spec reads otherwise of E and F. -/
def smallFontHigh : List Byte :=
  [0xF0, 0x90, 0xF0, 0x90, 0xF0,  0xF0, 0x90, 0xF0, 0x10, 0xF0,  0xF0, 0x90, 0xF0, 0x90, 0x90,
   0xE0, 0x90, 0xE0, 0x90, 0xE0,  0xF0, 0x80, 0x80, 0x80, 0xF0,  0xE0, 0x90, 0x90, 0x90, 0xE0,
   0xF0, 0x80, 0xF0, 0x80, 0x80,  0xF0, 0x80, 0xF0, 0x80, 0xF0]

/-- The 80 bytes of the small font (20_memory.md rule R86). -/
def smallFont : List Byte := smallFontLow ++ smallFontHigh

/-- What a byte of memory that nothing has written reads as: the small font, the big font on hires-capable
variants, and 0 elsewhere (20_memory.md rules R86, R87, R90; 10_state.md rule R76; notes/assumptions/6.md). -/
def backgroundByte (v : Variant) (a : Nat) : Byte :=
  if a < 80 then smallFont.getD a 0
  else if a < 240 then (if hiresCapable v then Config.bigFont (a - 80) else 0)
  else 0

end Sys2Proof.Machine
end

