-- ==== Sys2Proof/Syntax.lean ====
section
/-!
DEFINITION. The instructions: one constructor per row of spec/opcode_table.json, in the table's order
(30_encoding.md rules R110 to R119).
-/

namespace Sys2Proof

/-- A decoded instruction. `x`, `y` are register numbers, `n`, `nn`, `nnn`, `nnnn` immediates (30_encoding.md
rule R112). -/
inductive Instr where
  /-- `00CN` (41_display.md rule R220). -/
  | scd (n : Nibble)
  /-- `00DN` (41_display.md rule R221). -/
  | scu (n : Nibble)
  /-- `00E0` (41_display.md rule R219). -/
  | cls
  /-- `00EE` (43_control_flow.md rule R322). -/
  | ret
  /-- `00FB` (41_display.md rule R222). -/
  | scr
  /-- `00FC` (41_display.md rule R223). -/
  | scl
  /-- `00FD` (43_control_flow.md rule R345). -/
  | exit
  /-- `00FE` (41_display.md rule R226). -/
  | low
  /-- `00FF` (41_display.md rule R227). -/
  | high
  /-- `1NNN` (43_control_flow.md rule R320). -/
  | jp (nnn : Imm12)
  /-- `2NNN` (43_control_flow.md rule R321). -/
  | call (nnn : Imm12)
  /-- `3XNN` (43_control_flow.md rule R330). -/
  | seImm (x : RegIx) (nn : Byte)
  /-- `4XNN` (43_control_flow.md rule R331). -/
  | sneImm (x : RegIx) (nn : Byte)
  /-- `5XY0` (43_control_flow.md rule R332). -/
  | seReg (x y : RegIx)
  /-- `5XY2` (42_memory_ops.md rule R285). -/
  | saveRange (x y : RegIx)
  /-- `5XY3` (42_memory_ops.md rule R286). -/
  | loadRange (x y : RegIx)
  /-- `6XNN` (40_alu.md rule R150). -/
  | ldImm (x : RegIx) (nn : Byte)
  /-- `7XNN` (40_alu.md rule R151). -/
  | addImm (x : RegIx) (nn : Byte)
  /-- `8XY0` (40_alu.md rule R152). -/
  | ldReg (x y : RegIx)
  /-- `8XY1` (40_alu.md rule R153). -/
  | orReg (x y : RegIx)
  /-- `8XY2` (40_alu.md rule R154). -/
  | andReg (x y : RegIx)
  /-- `8XY3` (40_alu.md rule R155). -/
  | xorReg (x y : RegIx)
  /-- `8XY4` (40_alu.md rule R156). -/
  | addReg (x y : RegIx)
  /-- `8XY5` (40_alu.md rule R157). -/
  | subReg (x y : RegIx)
  /-- `8XY6` (40_alu.md rule R158). -/
  | shr (x y : RegIx)
  /-- `8XY7` (40_alu.md rule R159). -/
  | subn (x y : RegIx)
  /-- `8XYE` (40_alu.md rule R161). -/
  | shl (x y : RegIx)
  /-- `9XY0` (43_control_flow.md rule R333). -/
  | sneReg (x y : RegIx)
  /-- `ANNN` (42_memory_ops.md rule R270). -/
  | ldI (nnn : Imm12)
  /-- `BNNN` (43_control_flow.md rule R324). -/
  | jpOffset (nnn : Imm12)
  /-- `CXNN` (40_alu.md rule R170). -/
  | rnd (x : RegIx) (nn : Byte)
  /-- `DXYN` (41_display.md rule R200). -/
  | drw (x y : RegIx) (n : Nibble)
  /-- `EX9E` (43_control_flow.md rule R334). -/
  | skp (x : RegIx)
  /-- `EXA1` (43_control_flow.md rule R335). -/
  | sknp (x : RegIx)
  /-- `F000 NNNN` (42_memory_ops.md rule R271). -/
  | ldILong (nnnn : Word)
  /-- `FN01` (41_display.md rule R230). -/
  | plane (n : Nibble)
  /-- `F002` (44_keys_timers_sound.md rule R381). -/
  | audio
  /-- `FX07` (44_keys_timers_sound.md rule R370). -/
  | ldVxDt (x : RegIx)
  /-- `FX0A` (44_keys_timers_sound.md rule R376). -/
  | ldVxK (x : RegIx)
  /-- `FX15` (44_keys_timers_sound.md rule R371). -/
  | ldDtVx (x : RegIx)
  /-- `FX18` (44_keys_timers_sound.md rule R372). -/
  | ldStVx (x : RegIx)
  /-- `FX1E` (42_memory_ops.md rule R272). -/
  | addI (x : RegIx)
  /-- `FX29` (42_memory_ops.md rule R273). -/
  | ldF (x : RegIx)
  /-- `FX30` (42_memory_ops.md rule R274). -/
  | ldHF (x : RegIx)
  /-- `FX33` (42_memory_ops.md rule R275). -/
  | ldB (x : RegIx)
  /-- `FX3A` (44_keys_timers_sound.md rule R382). -/
  | pitch (x : RegIx)
  /-- `FX55` (42_memory_ops.md rule R279). -/
  | storeRegs (x : RegIx)
  /-- `FX65` (42_memory_ops.md rule R280). -/
  | loadRegs (x : RegIx)
  /-- `FX75` (42_memory_ops.md rule R287). -/
  | saveFlags (x : RegIx)
  /-- `FX85` (42_memory_ops.md rule R288). -/
  | loadFlags (x : RegIx)
  deriving DecidableEq, Repr

end Sys2Proof
end

