-- ==== Sys2Proof/Machine/VariantSets.lean ====
section
/-!
DEFINITION. The variant column of the opcode map (30_encoding.md section 3, rules R115 to R118, R125) and the
range condition of the flags-storage instructions (rule R119).
-/

namespace Sys2Proof.Machine

/-- The variants with the SCHIP 1.1 scrolls (30_encoding.md rules R117, R118). -/
def hasScroll : Variant → Bool
  | .schip11 | .schipm | .megachip | .xochip | .hwc64 => true
  | .chip8 | .schip10 | .chip8x => false

/-- Whether the variant set of the instruction's row contains `v` (30_encoding.md section 3). -/
def inVariantSet (v : Variant) : Instr → Bool
  | .scd _ | .scr | .scl => hasScroll v
  | .scu _ | .saveRange _ _ | .loadRange _ _ | .ldILong _ | .plane _ | .audio | .pitch _ => xoClass v
  | .exit | .low | .high | .ldHF _ | .saveFlags _ | .loadFlags _ => hiresCapable v
  | .jpOffset _ => v != .chip8x
  | .cls | .ret | .jp _ | .call _ | .seImm _ _ | .sneImm _ _ | .seReg _ _ | .ldImm _ _ | .addImm _ _
  | .ldReg _ _ | .orReg _ _ | .andReg _ _ | .xorReg _ _ | .addReg _ _ | .subReg _ _ | .shr _ _ | .subn _ _
  | .shl _ _ | .sneReg _ _ | .ldI _ | .rnd _ _ | .drw _ _ _ | .skp _ | .sknp _ | .ldVxDt _ | .ldVxK _
  | .ldDtVx _ | .ldStVx _ | .addI _ | .ldF _ | .ldB _ | .storeRegs _ | .loadRegs _ => true

/-- The range condition on `FX75` and `FX85` (30_encoding.md rule R119). -/
def flagRangeOk (v : Variant) : Instr → Bool
  | .saveFlags x | .loadFlags x => decide (x.val < flagCount v)
  | .scd _ | .scu _ | .cls | .ret | .scr | .scl | .exit | .low | .high | .jp _ | .call _ | .seImm _ _
  | .sneImm _ _ | .seReg _ _ | .saveRange _ _ | .loadRange _ _ | .ldImm _ _ | .addImm _ _ | .ldReg _ _
  | .orReg _ _ | .andReg _ _ | .xorReg _ _ | .addReg _ _ | .subReg _ _ | .shr _ _ | .subn _ _ | .shl _ _
  | .sneReg _ _ | .ldI _ | .jpOffset _ | .rnd _ _ | .drw _ _ _ | .skp _ | .sknp _ | .ldILong _ | .plane _
  | .audio | .ldVxDt _ | .ldVxK _ | .ldDtVx _ | .ldStVx _ | .addI _ | .ldF _ | .ldHF _ | .ldB _ | .pitch _
  | .storeRegs _ | .loadRegs _ => true

end Sys2Proof.Machine
end

