-- ==== Sys2Proof/WellFormed.lean ====
section
/-!
DEFINITION. When an instruction belongs to a variant. Every other bound of an operand is its type
(30_encoding.md rule R112).
-/

namespace Sys2Proof

/-- The instruction is one of the variant's (30_encoding.md rule R114: its row's variant set contains `v` and
its range condition holds). -/
def wellFormed (v : Variant) (i : Instr) : Bool := Machine.inVariantSet v i && Machine.flagRangeOk v i

end Sys2Proof
end

