-- ==== Sys2Proof/Decode.lean ====
section
/-!
DEFINITION. The decoder (30_encoding.md rules R110 to R125), total on any bytes, and the encoder written from the
same opcode map.
-/

namespace Sys2Proof

open Sys2Proof.Machine

/-- What the decoder answers (30_encoding.md rule R114). -/
inductive Decoded where
  /-- An instruction of the variant. -/
  | valid (i : Instr)
  /-- No instruction of the variant (30_encoding.md rule R121). -/
  | invalid
  /-- A word of an extension the spec does not describe, or `BNNN` on Chip8X (30_encoding.md rule R125). -/
  | unknownExtension
  /-- `FX75` or `FX85` with `X ≥ 8` on a SCHIP-class variant (30_encoding.md rule R119). -/
  | flagRangeUnknown
  deriving DecidableEq, Repr

/-! ## Fields of a word (30_encoding.md rule R110) -/

/-- Bits 15:12, the opcode group. -/
def fieldG (w : Word) : Nibble := w.extractLsb' 12 4
/-- Bits 11:8 as a 4-bit value. -/
def fieldXBits (w : Word) : Nibble := w.extractLsb' 8 4
/-- Bits 11:8 as a register number. -/
def fieldX (w : Word) : RegIx := (fieldXBits w).toFin
/-- Bits 7:4 as a register number. -/
def fieldY (w : Word) : RegIx := (w.extractLsb' 4 4).toFin
/-- Bits 3:0. -/
def fieldN (w : Word) : Nibble := w.extractLsb' 0 4
/-- Bits 7:0. -/
def fieldNN (w : Word) : Byte := w.extractLsb' 0 8
/-- Bits 11:0. -/
def fieldNNN (w : Word) : Imm12 := w.extractLsb' 0 12

/-! ## The opcode map, group by group (30_encoding.md section 3) -/

/-- Group 0: literal words and the two vertical scrolls. -/
def decodeGroup0 (w : Word) : Option Instr :=
  if w.extractLsb' 4 12 = 0x00C#12 then some (.scd (fieldN w))
  else if w.extractLsb' 4 12 = 0x00D#12 then some (.scu (fieldN w))
  else if w = 0x00E0#16 then some .cls
  else if w = 0x00EE#16 then some .ret
  else if w = 0x00FB#16 then some .scr
  else if w = 0x00FC#16 then some .scl
  else if w = 0x00FD#16 then some .exit
  else if w = 0x00FE#16 then some .low
  else if w = 0x00FF#16 then some .high
  else none

/-- Group 5: selected by `N`. -/
def decodeGroup5 (w : Word) : Option Instr :=
  match fieldN w with
  | 0x0#4 => some (.seReg (fieldX w) (fieldY w))
  | 0x2#4 => some (.saveRange (fieldX w) (fieldY w))
  | 0x3#4 => some (.loadRange (fieldX w) (fieldY w))
  | _ => none

/-- Group 8: selected by `N` (40_alu.md rule R160 for the sub-opcodes that are no instructions). -/
def decodeGroup8 (w : Word) : Option Instr :=
  match fieldN w with
  | 0x0#4 => some (.ldReg (fieldX w) (fieldY w))
  | 0x1#4 => some (.orReg (fieldX w) (fieldY w))
  | 0x2#4 => some (.andReg (fieldX w) (fieldY w))
  | 0x3#4 => some (.xorReg (fieldX w) (fieldY w))
  | 0x4#4 => some (.addReg (fieldX w) (fieldY w))
  | 0x5#4 => some (.subReg (fieldX w) (fieldY w))
  | 0x6#4 => some (.shr (fieldX w) (fieldY w))
  | 0x7#4 => some (.subn (fieldX w) (fieldY w))
  | 0xE#4 => some (.shl (fieldX w) (fieldY w))
  | _ => none

/-- Group 9: only `N = 0`. -/
def decodeGroup9 (w : Word) : Option Instr :=
  match fieldN w with
  | 0x0#4 => some (.sneReg (fieldX w) (fieldY w))
  | _ => none

/-- Group E: selected by `NN`. -/
def decodeGroupE (w : Word) : Option Instr :=
  match fieldNN w with
  | 0x9E#8 => some (.skp (fieldX w))
  | 0xA1#8 => some (.sknp (fieldX w))
  | _ => none

/-- Group F: selected by `NN`; `F000` and `F002` need `X = 0` (30_encoding.md rules R111, R118, R121). The
second word is read only by the long form. -/
def decodeGroupF (w w2 : Word) : Option Instr :=
  match fieldNN w with
  | 0x00#8 => if fieldX w = 0 then some (.ldILong w2) else none
  | 0x01#8 => some (.plane (fieldXBits w))
  | 0x02#8 => if fieldX w = 0 then some .audio else none
  | 0x07#8 => some (.ldVxDt (fieldX w))
  | 0x0A#8 => some (.ldVxK (fieldX w))
  | 0x15#8 => some (.ldDtVx (fieldX w))
  | 0x18#8 => some (.ldStVx (fieldX w))
  | 0x1E#8 => some (.addI (fieldX w))
  | 0x29#8 => some (.ldF (fieldX w))
  | 0x30#8 => some (.ldHF (fieldX w))
  | 0x33#8 => some (.ldB (fieldX w))
  | 0x3A#8 => some (.pitch (fieldX w))
  | 0x55#8 => some (.storeRegs (fieldX w))
  | 0x65#8 => some (.loadRegs (fieldX w))
  | 0x75#8 => some (.saveFlags (fieldX w))
  | 0x85#8 => some (.loadFlags (fieldX w))
  | _ => none

/-- The row of the opcode map that a first word `w`, followed by `w2`, matches, whatever the variant
(30_encoding.md rule R120: no word matches two rows). -/
def opcodeMap (w w2 : Word) : Option Instr :=
  match fieldG w with
  | 0x0#4 => decodeGroup0 w
  | 0x1#4 => some (.jp (fieldNNN w))
  | 0x2#4 => some (.call (fieldNNN w))
  | 0x3#4 => some (.seImm (fieldX w) (fieldNN w))
  | 0x4#4 => some (.sneImm (fieldX w) (fieldNN w))
  | 0x5#4 => decodeGroup5 w
  | 0x6#4 => some (.ldImm (fieldX w) (fieldNN w))
  | 0x7#4 => some (.addImm (fieldX w) (fieldNN w))
  | 0x8#4 => decodeGroup8 w
  | 0x9#4 => decodeGroup9 w
  | 0xA#4 => some (.ldI (fieldNNN w))
  | 0xB#4 => some (.jpOffset (fieldNNN w))
  | 0xC#4 => some (.rnd (fieldX w) (fieldNN w))
  | 0xD#4 => some (.drw (fieldX w) (fieldY w) (fieldN w))
  | 0xE#4 => decodeGroupE w
  | _ => decodeGroupF w w2

/-- What a word without a row of the variant decodes as (30_encoding.md rules R121, R125). -/
def unlisted (v : Variant) : Decoded :=
  if partiallySpecified v then .unknownExtension else .invalid

/-- `decode(V, Q, w)` of 30_encoding.md rule R114, total. No quirk changes it, so the quirk set is no argument. -/
def decode (v : Variant) (w w2 : Word) : Decoded :=
  match opcodeMap w w2 with
  | none => unlisted v
  | some i =>
    if !inVariantSet v i then unlisted v
    else if !flagRangeOk v i then .flagRangeUnknown
    else .valid i

/-- The decoder on the four bytes from the instruction's address on, each word big-endian (20_memory.md rule
R83). -/
def decodeBytes (v : Variant) (b0 b1 b2 b3 : Byte) : Decoded := decode v (b0 ++ b1) (b2 ++ b3)

/-- The length in bytes, from the first word alone (30_encoding.md rule R111). -/
def lengthOf (v : Variant) (w : Word) : Nat := if xoClass v && w == 0xF000#16 then 4 else 2

/-! ## The encoder (30_encoding.md rules R110, R112; the formats of section 1) -/

/-- Format `G NNN`. -/
def packNNN (g : Nibble) (nnn : Imm12) : Word := g ++ nnn
/-- Format `G X NN`. -/
def packXNN (g : Nibble) (x : RegIx) (nn : Byte) : Word := g ++ (BitVec.ofFin x : Nibble) ++ nn
/-- Format `G X Y N`. -/
def packXYN (g : Nibble) (x y : RegIx) (n : Nibble) : Word :=
  g ++ (BitVec.ofFin x : Nibble) ++ (BitVec.ofFin y : Nibble) ++ n

/-- The first word of an instruction. -/
def Instr.word1 : Instr → Word
  | .scd n => 0x00C#12 ++ n
  | .scu n => 0x00D#12 ++ n
  | .cls => 0x00E0#16
  | .ret => 0x00EE#16
  | .scr => 0x00FB#16
  | .scl => 0x00FC#16
  | .exit => 0x00FD#16
  | .low => 0x00FE#16
  | .high => 0x00FF#16
  | .jp nnn => packNNN 0x1#4 nnn
  | .call nnn => packNNN 0x2#4 nnn
  | .seImm x nn => packXNN 0x3#4 x nn
  | .sneImm x nn => packXNN 0x4#4 x nn
  | .seReg x y => packXYN 0x5#4 x y 0x0#4
  | .saveRange x y => packXYN 0x5#4 x y 0x2#4
  | .loadRange x y => packXYN 0x5#4 x y 0x3#4
  | .ldImm x nn => packXNN 0x6#4 x nn
  | .addImm x nn => packXNN 0x7#4 x nn
  | .ldReg x y => packXYN 0x8#4 x y 0x0#4
  | .orReg x y => packXYN 0x8#4 x y 0x1#4
  | .andReg x y => packXYN 0x8#4 x y 0x2#4
  | .xorReg x y => packXYN 0x8#4 x y 0x3#4
  | .addReg x y => packXYN 0x8#4 x y 0x4#4
  | .subReg x y => packXYN 0x8#4 x y 0x5#4
  | .shr x y => packXYN 0x8#4 x y 0x6#4
  | .subn x y => packXYN 0x8#4 x y 0x7#4
  | .shl x y => packXYN 0x8#4 x y 0xE#4
  | .sneReg x y => packXYN 0x9#4 x y 0x0#4
  | .ldI nnn => packNNN 0xA#4 nnn
  | .jpOffset nnn => packNNN 0xB#4 nnn
  | .rnd x nn => packXNN 0xC#4 x nn
  | .drw x y n => packXYN 0xD#4 x y n
  | .skp x => packXNN 0xE#4 x 0x9E#8
  | .sknp x => packXNN 0xE#4 x 0xA1#8
  | .ldILong _ => 0xF000#16
  | .plane n => packXNN 0xF#4 n.toFin 0x01#8
  | .audio => 0xF002#16
  | .ldVxDt x => packXNN 0xF#4 x 0x07#8
  | .ldVxK x => packXNN 0xF#4 x 0x0A#8
  | .ldDtVx x => packXNN 0xF#4 x 0x15#8
  | .ldStVx x => packXNN 0xF#4 x 0x18#8
  | .addI x => packXNN 0xF#4 x 0x1E#8
  | .ldF x => packXNN 0xF#4 x 0x29#8
  | .ldHF x => packXNN 0xF#4 x 0x30#8
  | .ldB x => packXNN 0xF#4 x 0x33#8
  | .pitch x => packXNN 0xF#4 x 0x3A#8
  | .storeRegs x => packXNN 0xF#4 x 0x55#8
  | .loadRegs x => packXNN 0xF#4 x 0x65#8
  | .saveFlags x => packXNN 0xF#4 x 0x75#8
  | .loadFlags x => packXNN 0xF#4 x 0x85#8

/-- The second word of the long form; every other instruction has one word (30_encoding.md rule R110). -/
def Instr.word2 : Instr → Option Word
  | .ldILong nnnn => some nnnn
  | .scd _ | .scu _ | .cls | .ret | .scr | .scl | .exit | .low | .high | .jp _ | .call _ | .seImm _ _
  | .sneImm _ _ | .seReg _ _ | .saveRange _ _ | .loadRange _ _ | .ldImm _ _ | .addImm _ _ | .ldReg _ _
  | .orReg _ _ | .andReg _ _ | .xorReg _ _ | .addReg _ _ | .subReg _ _ | .shr _ _ | .subn _ _ | .shl _ _
  | .sneReg _ _ | .ldI _ | .jpOffset _ | .rnd _ _ | .drw _ _ _ | .skp _ | .sknp _ | .plane _
  | .audio | .ldVxDt _ | .ldVxK _ | .ldDtVx _ | .ldStVx _ | .addI _ | .ldF _ | .ldHF _ | .ldB _ | .pitch _
  | .storeRegs _ | .loadRegs _ | .saveFlags _ | .loadFlags _ => none

/-- The two bytes of a word in memory order (20_memory.md rule R83). -/
def wordBytes (w : Word) : List Byte := [w.extractLsb' 8 8, w.extractLsb' 0 8]

/-- The words of an instruction. -/
def encode (i : Instr) : List Word := i.word1 :: i.word2.toList

/-- The bytes of an instruction, lowest address first. -/
def encodeBytes (i : Instr) : List Byte := (encode i).flatMap wordBytes

/-! ## The opcode table's numbering of bits -/

/-- The first and the second word of an instruction whose bits are `w`, as spec/opcode_table.json numbers them.
A row of 16 bits has its one word in bits 15:0. The one row of 32 bits, `F000 NNNN`, has its first word in bits
31:16 ("32-bit pattern: first word 0xF000 in bits 31:16, second word NNNN in bits 15:0"). A wider pattern whose
upper half is not `F000` is read with its first word in bits 15:0. Bits past `nbits` are 0
(notes/assumptions/15.md). -/
def tableWords (nbits w : Nat) : Word × Word :=
  let hi : Word := BitVec.ofNat 16 (w / 65536)
  let lo : Word := BitVec.ofNat 16 w
  if nbits ≤ 16 then (lo, 0) else if hi = 0xF000#16 then (hi, lo) else (lo, hi)

/-- The instruction the decoder reads from a table row's bits, on XO-CHIP, whose decoder admits every row of the
table (notes/assumptions/1.md). -/
def decodeTableWord (nbits w : Nat) : Option Instr :=
  let p := tableWords nbits w
  match decodeBytes .xochip (p.1.extractLsb' 8 8) (p.1.extractLsb' 0 8)
      (p.2.extractLsb' 8 8) (p.2.extractLsb' 0 8) with
  | .valid i => some i
  | .invalid | .unknownExtension | .flagRangeUnknown => none

end Sys2Proof
end

