-- ==== Sys2Proof/Machine/State.lean ====
section
/-!
DEFINITION. The state of the machine as plain data: every item of 10_state.md, the scheduler state of
70_reset_and_hazards.md, and the host's side of the interface (60_exceptions.md rule R446). INVENTORY.md lists each
field with its rule and its reset value.
-/

namespace Sys2Proof.Machine

/-- Why the machine stops with a fault (60_exceptions.md rule R420). -/
inductive Fault where
  /-- Raised by session construction when the ROM does not fit; records the ROM length and the room there is
  (60_exceptions.md rule R423). Safe: the spec's own error. -/
  | constructionError (romLength room : Nat)
  /-- Raised by the decode of a word that is no instruction of the variant; records the word and its address
  (60_exceptions.md rule R421). Safe: the spec's own error. -/
  | invalidInstruction (w : Word) (a : Addr)
  /-- Raised by `2NNN` with a full stack; records the address of the instruction (60_exceptions.md rule R422).
  Safe: the spec's own error. -/
  | stackOverflow (a : Addr)
  /-- Raised by `00EE` with an empty stack; records the address of the instruction (60_exceptions.md rule
  R422). Safe: the spec's own error. -/
  | stackUnderflow (a : Addr)
  /-- Raised when the host hands over a PCM buffer or a render grid of the wrong size: at the end of a frame, or
  in a call of `populateRenderBuffer` (60_exceptions.md rule R424). Safe: the spec's own error. -/
  | argumentError
  /-- Answered by a step of a session that `00FD` has ended: the stuck state of U17 (43_control_flow.md rule
  R346). Safe: the spec gives such a session no further step. -/
  | sessionHalted
  /-- Answered when the host cancels the session between two frames (70_reset_and_hazards.md rule R484;
  60_exceptions.md rule R447). Safe: the spec ends the run there. -/
  | cancelled
  deriving DecidableEq, Repr

/-- Why the machine refuses an instruction (60_exceptions.md rule R425). -/
inductive Refusal where
  /-- An arm of `exec` without a meaning; no arm answers it now. Safe: it stops. -/
  | notModelled (mnemonic : String)
  /-- Raised by the decode of an extension word of MegaChip, HyperWaveChip64 or Chip8X (30_encoding.md rule
  R125). Safe: the spec's own refusal. -/
  | unknownExtension
  /-- Raised by the decode of `FX75`, `FX85` with `X ≥ 8` on a SCHIP-class variant (30_encoding.md rule R119).
  Safe: the spec's own refusal. -/
  | flagRangeUnknown
  deriving DecidableEq, Repr

/-- `RUN` (10_state.md rule R41). -/
inductive RunState where
  | running
  | frameWait
  | halted
  | faulted (r : Fault)
  | refused (r : Refusal)
  deriving DecidableEq, Repr

/-- `KEYWAIT` (10_state.md rule R42). -/
inductive KeyWait where
  | idle
  | awaiting (k : RegIx)
  deriving DecidableEq, Repr

/-- `DMODE` (10_state.md rule R55; 41_display.md rule R231). -/
inductive DrawMode where
  | or | xor | subtract
  deriving DecidableEq, Repr

/-- The blend modes MegaChip names (41_display.md rule R240). -/
inductive BlendMode where
  | normal | alpha25 | alpha50 | alpha75 | additive | multiplicative
  deriving DecidableEq, Repr

/-- MegaChip's display state, which no rule reads or writes (10_state.md rule R55). -/
structure MegaDisplay where
  front : List Argb
  back : List Argb
  index : List Byte
  blend : BlendMode
  alpha : Byte
  deriving DecidableEq, Repr

/-- One bitplane: 64 rows of 128 pixels, bit `x` of row `y` the pixel `(x, y)`; only the first `BH` rows and
`BW` columns are the buffer (10_state.md rules R50, R51; notes/assumptions/8.md). -/
abbrev Plane := Vector (BitVec 128) 64

/-- The pattern buffer (10_state.md rule R56). -/
abbrev Pattern := Vector Byte 16

/-- The PCM buffer of a frame, as what determines its samples (44_keys_timers_sound.md rule R385;
notes/assumptions/10.md). -/
inductive PcmFrame where
  /-- No frame has ended yet. -/
  | notYet
  /-- A frame with `ST = 0`. -/
  | silence
  /-- A frame of tone, from the phase at its start. -/
  | tone (pattern : Pattern) (phase step : Rat)
  deriving DecidableEq, Repr

/-- A move of the host (60_exceptions.md rule R446). -/
inductive HostEvent where
  /-- The host input layer writes one key (10_state.md rule R60). -/
  | key (k : RegIx) (held : Bool)
  /-- The host's wall clock now reads `t` seconds (00_scope.md rule R21). -/
  | clock (t : Rat)
  /-- The host delivers a tick at the present clock reading (70_reset_and_hazards.md rule R480). -/
  | tick
  /-- The host makes no move before the Processor's next instruction. -/
  | idle
  /-- The sizes of the PCM buffer and the render grid the host supplies; `none` is the size the block requires
  (60_exceptions.md rule R424). -/
  | buffers (pcm : Option Nat) (grid : Option (Nat × Nat))
  /-- The host calls `populateRenderBuffer` with a grid of this width and height; `none` is the size the block
  requires (41_display.md rules R252, R253). -/
  | render (grid : Option (Nat × Nat))
  /-- The debug enabled flag is set (00_scope.md rule R28). -/
  | debug (on : Bool)
  /-- The audio device fails (44_keys_timers_sound.md rule R393). -/
  | audioFailure
  /-- The host cancels the session (70_reset_and_hazards.md rule R484). -/
  | cancel
  deriving DecidableEq, Repr

/-- The state of the block and of the host's interface to it. -/
structure State where
  /-- The session's settings (00_scope.md rule R9; 10_state.md rule R44); never written by a step. -/
  settings : Settings
  /-- `V0` to `VF`. -/
  v : Vector Byte 16
  /-- `PC`. -/
  pc : Addr
  /-- `I`. -/
  i : Addr
  /-- `STACK`. -/
  stack : Vector Addr 16
  /-- `SP`. -/
  sp : Fin 17
  /-- `DT`. -/
  dt : Byte
  /-- `ST`. -/
  st : Byte
  /-- `FLAGS`. -/
  flags : Vector Byte 16
  /-- `RUN`. -/
  run : RunState
  /-- `KEYWAIT`. -/
  keyWait : KeyWait
  /-- `IPF_EFF`. -/
  ipfEff : Nat
  /-- `CYC`. -/
  cyc : Nat
  /-- The model's own count of the bytes `CXNN` has drawn (notes/assumptions/4.md). -/
  draws : Nat
  /-- `MEM`: the bytes that differ from what an unlisted address reads as, addresses strictly rising. -/
  mem : List Host.Cell
  /-- `PLANE[0..3]`. -/
  planes : Vector Plane 4
  /-- `PMASK`. -/
  pmask : BitVec 4
  /-- `EXT`. -/
  ext : Bool
  /-- `DMODE`. -/
  dmode : DrawMode
  /-- MegaChip's display state. -/
  mega : MegaDisplay
  /-- `PATTERN`. -/
  pattern : Pattern
  /-- `PITCH`. -/
  pitch : Byte
  /-- `PHASE`. -/
  phase : Rat
  /-- The PCM buffer last handed to the host. -/
  pcm : PcmFrame
  /-- `KEY`. -/
  keys : Vector Bool 16
  /-- The pacer's `deadline`, in seconds. -/
  deadline : Rat
  /-- The host's wall clock, in seconds. -/
  clock : Rat
  /-- The clock reading of the tick that began the present frame. -/
  frameStart : Rat
  /-- A frame is in progress (70_reset_and_hazards.md rule R481). -/
  inFrame : Bool
  /-- The frame loop's `k`: budget slots used in the present frame. -/
  slots : Nat
  /-- The frame loop's `c0`: `CYC` at the start of the present frame (70_reset_and_hazards.md rule R486). -/
  frameCyc : Nat
  /-- The debug enabled flag. -/
  debug : Bool
  /-- How often the breakpoint-check hook has been consulted (notes/assumptions/13.md). -/
  hookCalls : Nat
  /-- The length of the PCM buffer the host supplies; `none` is the length required. -/
  hostPcm : Option Nat
  /-- The width and height of the grid the host supplies; `none` is the size required. -/
  hostGrid : Option (Nat × Nat)
  /-- The host's moves to come, the next one first (notes/assumptions/3.md). -/
  inbox : List HostEvent
  deriving DecidableEq, Repr

/-- The reset pattern: a square wave (10_state.md rule R72). -/
def resetPattern : Pattern :=
  #v[0xFF, 0xFF, 0xFF, 0xFF, 0xFF, 0xFF, 0xFF, 0xFF, 0, 0, 0, 0, 0, 0, 0, 0]

/-- The session right after construction with an empty ROM: the values of 10_state.md rules R66 to R75. `t0` is the
host's clock at construction (70_reset_and_hazards.md rule R490), and `keys` what the host has written to the keypad
(10_state.md rule R74). The spec gives `frameStart` no reset value: it holds `t0` until the first frame begins
(notes/assumptions/11.md). DESIGN CHOICE. The fields of the model's own, of MegaChip and of the host's side take the
values of notes/assumptions/3.md, 4.md, 9.md, 10.md and 12.md to 14.md. DESIGN CHOICE. -/
def State.fresh (cfg : Settings) (t0 : Rat) (keys : Vector Bool 16) : State :=
  { settings := cfg
    v := Vector.replicate 16 0
    pc := progStart cfg.variant
    i := 0
    stack := Vector.replicate 16 0
    sp := 0
    dt := 0
    st := 0
    flags := Vector.replicate 16 0
    run := .running
    keyWait := .idle
    ipfEff := cfg.ipfTarget
    cyc := 0
    draws := 0
    mem := []
    planes := Vector.replicate 4 (Vector.replicate 64 0)
    pmask := 1
    ext := false
    dmode := .xor
    mega := { front := [], back := [], index := [], blend := .normal, alpha := 0 }
    pattern := resetPattern
    pitch := 64
    phase := 0
    pcm := .notYet
    keys := keys
    deadline := t0 + 1 / (cfg.frameRate : Rat)
    clock := t0
    frameStart := t0
    inFrame := false
    slots := 0
    frameCyc := 0
    debug := false
    hookCalls := 0
    hostPcm := none
    hostGrid := none
    inbox := [] }

/-- The machine right after reset: a session of XO-CHIP with its default quirks, an empty ROM, no key held, and
the clock at 0 (notes/assumptions/1.md, 2.md, 11.md). DESIGN CHOICE for the settings, the ROM and the clock. -/
def State.reset : State := State.fresh (resolveSettings resetRequest) 0 (Vector.replicate 16 false)

end Sys2Proof.Machine
end

