-- ==== Sys2Proof/Machine/Ops.lean ====
section
/-!
DEFINITION. The named operations over memory, registers and the control state that the meanings call: the bus
(20_memory.md), the writes of `PC`, `I` and the registers with their masks (10_state.md), the stack, and the one
operation each for an error, a refusal and the halt (60_exceptions.md rules R420, R425; 43_control_flow.md rule
R345).
-/

namespace Sys2Proof.Machine

/-! ## Memory as canonical data -/

/-- The byte listed at an address, if any. -/
def Memory.find : List Host.Cell → Nat → Option Byte
  | [], _ => none
  | c :: m, a => if c.1 = a then some c.2 else Memory.find m a

/-- The byte at an address below `MEM_SIZE(V)`: the listed one, or what an unlisted address reads as. -/
def Memory.read (v : Variant) (m : List Host.Cell) (a : Nat) : Byte :=
  (Memory.find m a).getD (backgroundByte v a)

/-- The list without the entry at an address. -/
def Memory.erase : List Host.Cell → Nat → List Host.Cell
  | [], _ => []
  | c :: m, a => if c.1 = a then m else c :: Memory.erase m a

/-- The list with an entry put in its place in the order of addresses. -/
def Memory.insert : List Host.Cell → Nat → Byte → List Host.Cell
  | [], a, b => [(a, b)]
  | c :: m, a, b =>
    if a < c.1 then (a, b) :: c :: m
    else if a = c.1 then (a, b) :: m
    else c :: Memory.insert m a b

/-- A write of one byte, keeping the canonical form: writing what an unlisted address reads as removes the
entry. -/
def Memory.write (v : Variant) (m : List Host.Cell) (a : Nat) (b : Byte) : List Host.Cell :=
  if b = backgroundByte v a then Memory.erase m a else Memory.insert m a b

/-- The canonical form: addresses strictly rising and inside the memory, no entry equal to what an unlisted
address reads as. -/
abbrev Memory.wf (v : Variant) (m : List Host.Cell) : Prop :=
  m.Pairwise (fun c d => c.1 < d.1) ∧ ∀ c ∈ m, c.1 < memSize v ∧ c.2 ≠ backgroundByte v c.1

/-! ## The session's parameters -/

/-- `V`. -/
def State.variant (s : State) : Variant := s.settings.variant

/-- `Q`. -/
def State.quirks (s : State) : Quirks := s.settings.quirks

/-! ## The bus (20_memory.md rules R81, R83, R84) -/

/-- The memory index an address names (20_memory.md rule R81). -/
def busIndex (v : Variant) (a : Addr) : Nat := (a &&& addrMask v).toNat

/-- `MemRead(a, 1)` (20_memory.md rule R81). -/
def State.read (s : State) (a : Addr) : Byte := Memory.read s.variant s.mem (busIndex s.variant a)

/-- `MemWrite(a, 1, b)` (20_memory.md rule R81). -/
def State.write (s : State) (a : Addr) (b : Byte) : State :=
  { s with mem := Memory.write s.variant s.mem (busIndex s.variant a) b }

/-- The big-endian word at an address (20_memory.md rule R83). -/
def State.readWord (s : State) (a : Addr) : Word := s.read a ++ s.read (a + 1)

/-- Writes of bytes at consecutive addresses in increasing order, each masked on its own (20_memory.md rule
R84). -/
def State.storeBytes (s : State) (a : Addr) : List Byte → State
  | [] => s
  | b :: bs => (s.write a b).storeBytes (a + 1) bs

/-- Reads of `n` bytes at consecutive addresses in increasing order, each masked on its own (20_memory.md rule
R84). -/
def State.loadBytes (s : State) (a : Addr) (n : Nat) : List Byte :=
  (List.range n).map fun k => s.read (a + BitVec.ofNat 24 k)

/-! ## Registers (10_state.md rules R30, R31, R33, R36) -/

/-- `V[x]`. -/
def State.reg (s : State) (x : RegIx) : Byte := s.v[x.val]

/-- `V[x] <- b`. -/
def State.setReg (s : State) (x : RegIx) (b : Byte) : State := { s with v := s.v.set x.val b }

/-- Writes of registers in the order listed. -/
def State.setRegs (s : State) : List (RegIx × Byte) → State
  | [] => s
  | p :: ps => (s.setReg p.1 p.2).setRegs ps

/-- `FLAGS[k] <- b` for each pair in the order listed (42_memory_ops.md rule R287). -/
def State.setFlags (s : State) : List (RegIx × Byte) → State
  | [] => s
  | p :: ps => ({ s with flags := s.flags.set p.1.val p.2 }).setFlags ps

/-- `pc <- t`: `PC <- t & ADDR_MASK` (00_scope.md rule R17; 10_state.md rule R33). -/
def State.setPc (s : State) (t : Addr) : State := { s with pc := t &&& addrMask s.variant }

/-- `I <- t` modulo `2^I_WIDTH` (10_state.md rule R36). -/
def State.setI (s : State) (t : Addr) : State := { s with i := t &&& iMask s.variant }

/-- The fetch's advance of `PC` past one word (10_state.md rule R34). -/
def State.advance (s : State) : State := s.setPc (s.pc + 2)

/-- The address `a` of the instruction being executed, while `PC` holds `a + 2` (10_state.md rule R34). -/
def State.instrAddr (s : State) : Addr := (s.pc - 2) &&& addrMask s.variant

/-! ## The stack (10_state.md rule R37) -/

/-- The entry pushed by a call: the advanced `PC` (43_control_flow.md rule R321). -/
def State.push (s : State) (h : s.sp.val < 16) : State :=
  { s with stack := s.stack.set s.sp.val s.pc h, sp := ⟨s.sp.val + 1, Nat.succ_lt_succ h⟩ }

/-- The stack pointer after a return (43_control_flow.md rule R322): the entry keeps its value. -/
def State.popSp (s : State) : State :=
  { s with sp := ⟨s.sp.val - 1, Nat.lt_of_le_of_lt (Nat.sub_le _ _) s.sp.isLt⟩ }

/-- The entry a return pops: the one below `SP`. -/
def State.topOfStack (s : State) : Addr := s.stack.getD (s.sp.val - 1) 0

/-! ## Errors, refusals, halt -/

/-- A fatal error is taken: `RUN <- Faulted(reason)` and nothing else; there is no trap entry (60_exceptions.md
rules R420, R429, R430). -/
def State.raise (s : State) (r : Fault) : State := { s with run := .faulted r }

/-- A refusal is taken: `RUN <- Refused(reason)` (60_exceptions.md rule R425). -/
def State.refuse (s : State) (r : Refusal) : State := { s with run := .refused r }

/-- `RUN <- Halted` (43_control_flow.md rule R345). -/
def State.halt (s : State) : State := { s with run := .halted }

/-- The outcome of a state in which the session may have ended (00_scope.md rule R19; notes/assumptions/17.md). -/
def State.outcome (s : State) : Host.Outcome State Fault Refusal :=
  match s.run with
  | .faulted r => .fault r
  | .refused r => .refused r
  | .halted | .running | .frameWait => .next s

/-! ## Skips, draws of free bytes, keys -/

/-- The skip primitive (43_control_flow.md rule R329). -/
def State.skip (s : State) : State :=
  if xoClass s.variant && s.readWord s.pc == 0xF000#16 then s.setPc (s.pc + 4) else s.setPc (s.pc + 2)

/-- A skip under a condition (43_control_flow.md rules R330 to R335). -/
def State.skipIf (s : State) (c : Bool) : State := if c then s.skip else s

/-- `draw r : UInt8`: the free byte of this draw, and the state in which the next draw is another one
(40_alu.md rule R170). -/
def State.drawByte (s : State) : Byte × State := (Config.freeByte s.draws, { s with draws := s.draws + 1 })

/-- `KEY[k]` (20_memory.md rule R95). -/
def State.key (s : State) (k : RegIx) : Bool := s.keys[k.val]

/-- The key numbers in increasing order. -/
def allKeys : List RegIx := [0, 1, 2, 3, 4, 5, 6, 7, 8, 9, 10, 11, 12, 13, 14, 15]

/-- `min { k | KEY[k] }`, if some key is held (44_keys_timers_sound.md rule R377). -/
def State.lowestKey (s : State) : Option RegIx := allKeys.find? fun k => s.key k

end Sys2Proof.Machine
end

