-- ==== Sys2Proof/Machine/Flags.lean ====
section
/-!
DEFINITION. Every computation of the flag `VF` (10_state.md rule R32; 40_alu.md) and the order of result and flag
(00_scope.md rule R18).
-/

namespace Sys2Proof.Machine

/-- The register number of `VF` (10_state.md rule R32). -/
def flagReg : RegIx := 15

/-- A flag as a byte. -/
def flagByte (c : Bool) : Byte := if c then 1 else 0

/-- The carry of `8XY4`: 1 iff the sum exceeds 255 (40_alu.md rule R156). -/
def carryFlag (x y : Byte) : Byte := flagByte (decide (255 < x.toNat + y.toNat))

/-- The no-borrow flag of `8XY5` and `8XY7`: 1 iff the minuend is at least the subtrahend (40_alu.md rules R157,
R159). -/
def noBorrowFlag (minuend subtrahend : Byte) : Byte := flagByte (decide (subtrahend.toNat ≤ minuend.toNat))

/-- The bit `8XY6` shifts out (40_alu.md rule R158). -/
def shrFlag (src : Byte) : Byte := src &&& 1

/-- The bit `8XYE` shifts out (40_alu.md rule R161). -/
def shlFlag (src : Byte) : Byte := (src >>> 7) &&& 1

/-- The result is written first and the flag second, so that with `X = 0xF` the flag remains (00_scope.md rule
R18). -/
def State.setResultFlag (s : State) (x : RegIx) (r f : Byte) : State := (s.setReg x r).setReg flagReg f

/-- The result of a logic operation, and then the clear of `VF` under the quirk (40_alu.md rules R153 to R155). -/
def State.setLogic (s : State) (x : RegIx) (r : Byte) : State :=
  if s.quirks.vfReset then (s.setReg x r).setReg flagReg 0 else s.setReg x r

/-- The result of a draw: the count of rows where rows are counted, else the collision flag (41_display.md rule
R210). -/
def drawFlag (counting hit : Bool) (count : Nat) : Byte :=
  if counting then BitVec.ofNat 8 count else flagByte hit

end Sys2Proof.Machine
end

