-- ==== Sys2Proof/Machine/Operands.lean ====
section
/-!
DEFINITION. The operand forms: the index-register addressing mode (42_memory_ops.md, template), the shift source,
the jump offset, digits and key numbers, register ranges, glyph addresses.
-/

namespace Sys2Proof.Machine

/-- `I + k`, the only data addressing mode (42_memory_ops.md, template; the bus masks it). -/
def State.indexAddr (s : State) (k : Nat) : Addr := s.i + BitVec.ofNat 24 k

/-- The source of `8XY6` and `8XYE` (40_alu.md rules R158, R161). -/
def State.shiftSource (s : State) (x y : RegIx) : Byte :=
  if s.quirks.shiftInPlace then s.reg x else s.reg y

/-- The register number in the top nibble of `NNN` (43_control_flow.md rule R324). -/
def topNibble (nnn : Imm12) : RegIx := (nnn.extractLsb' 8 4).toFin

/-- The offset `BNNN` adds (43_control_flow.md rule R324). -/
def State.jumpOffset (s : State) (nnn : Imm12) : Byte :=
  if s.quirks.jumpWithVX then s.reg (topNibble nnn) else s.reg 0

/-- The low nibble of a register value: a key number or a digit (43_control_flow.md rule R336; D24). -/
def lowNibble (b : Byte) : RegIx := (b.extractLsb' 0 4).toFin

/-- The address of a small-font glyph (42_memory_ops.md rule R273). -/
def smallGlyph (d : RegIx) : Addr := smallFontBase + BitVec.ofNat 24 (5 * d.val)

/-- The address of a big-font glyph (42_memory_ops.md rule R274). -/
def bigGlyph (d : RegIx) : Addr := bigFontBase + BitVec.ofNat 24 (10 * d.val)

/-- The registers `0 .. x` in order (42_memory_ops.md rules R279, R280, R287, R288). -/
def regsUpTo (x : RegIx) : List RegIx := allKeys.take (x.val + 1)

/-- The inclusive range from `x` to `y`, descending when `x > y` (42_memory_ops.md rules R285, R286). -/
def regRange (x y : RegIx) : List RegIx :=
  if x.val ≤ y.val then (allKeys.take (y.val + 1)).drop x.val
  else ((allKeys.take (x.val + 1)).drop y.val).reverse

/-- The values of registers, in order. -/
def State.regValues (s : State) (rs : List RegIx) : List Byte := rs.map s.reg

/-- The three decimal digits of a byte (42_memory_ops.md rule R275). -/
def bcdDigits (b : Byte) : List Byte :=
  [BitVec.ofNat 8 (b.toNat / 100), BitVec.ofNat 8 (b.toNat / 10 % 10), BitVec.ofNat 8 (b.toNat % 10)]

end Sys2Proof.Machine
end

