-- ==== Sys2Proof/Machine/Control.lean ====
section
/-!
DEFINITION. Control transfer, skips and exit (43_control_flow.md). `PC` already holds the advanced value
(10_state.md rule R34).
-/

namespace Sys2Proof.Machine

/-- `1NNN` (43_control_flow.md rule R320). -/
def execJp (nnn : Imm12) (s : State) : Host.Outcome State Fault Refusal := .next (s.setPc (nnn.setWidth 24))

/-- `2NNN`; the check of the stack precedes every write (43_control_flow.md rule R321; 60_exceptions.md rule
R422). -/
def execCall (nnn : Imm12) (s : State) : Host.Outcome State Fault Refusal :=
  if h : s.sp.val < stackDepth then .next ((s.push h).setPc (nnn.setWidth 24))
  else .next (s.raise (.stackOverflow s.instrAddr))

/-- `00EE` (43_control_flow.md rule R322; 60_exceptions.md rule R422). -/
def execRet (s : State) : Host.Outcome State Fault Refusal :=
  if s.sp.val = 0 then .next (s.raise (.stackUnderflow s.instrAddr))
  else .next (s.popSp.setPc s.topOfStack)

/-- `BNNN` (43_control_flow.md rule R324). -/
def execJpOffset (nnn : Imm12) (s : State) : Host.Outcome State Fault Refusal :=
  .next (s.setPc (nnn.setWidth 24 + (s.jumpOffset nnn).setWidth 24))

/-- `3XNN` (43_control_flow.md rule R330). -/
def execSeImm (x : RegIx) (nn : Byte) (s : State) : Host.Outcome State Fault Refusal :=
  .next (s.skipIf (s.reg x == nn))

/-- `4XNN` (43_control_flow.md rule R331). -/
def execSneImm (x : RegIx) (nn : Byte) (s : State) : Host.Outcome State Fault Refusal :=
  .next (s.skipIf (s.reg x != nn))

/-- `5XY0` (43_control_flow.md rule R332). -/
def execSeReg (x y : RegIx) (s : State) : Host.Outcome State Fault Refusal :=
  .next (s.skipIf (s.reg x == s.reg y))

/-- `9XY0` (43_control_flow.md rule R333). -/
def execSneReg (x y : RegIx) (s : State) : Host.Outcome State Fault Refusal :=
  .next (s.skipIf (s.reg x != s.reg y))

/-- `EX9E` (43_control_flow.md rules R334, R336). -/
def execSkp (x : RegIx) (s : State) : Host.Outcome State Fault Refusal :=
  .next (s.skipIf (s.key (lowNibble (s.reg x))))

/-- `EXA1` (43_control_flow.md rules R335, R336). -/
def execSknp (x : RegIx) (s : State) : Host.Outcome State Fault Refusal :=
  .next (s.skipIf (!s.key (lowNibble (s.reg x))))

/-- `00FD`: `RUN <- Halted`; `RUN` is the terminate signal the host reads (43_control_flow.md rule R345). -/
def execExit (s : State) : Host.Outcome State Fault Refusal := .next s.halt

end Sys2Proof.Machine
end

