-- ==== Sys2Proof/Machine/Raster.lean ====
section
/-!
DEFINITION. The bitplane display: geometry, the pixel primitive, the sprite rasterizer, clear, the scroll
primitives (10_state.md rules R50 to R53; 41_display.md) and the compositor (41_display.md rule R250).
-/

namespace Sys2Proof.Machine

/-! ## Geometry (10_state.md rule R50) -/

/-- `W`, the logical width. -/
def State.width (s : State) : Nat := if s.ext then 128 else 64
/-- `H`, the logical height. -/
def State.height (s : State) : Nat := if s.ext then 64 else 32
/-- `BW`, the width of the buffer: always 128 on legacy SCHIP. -/
def State.bufWidth (s : State) : Nat := if legacySchip s.variant then 128 else s.width
/-- `BH`, the height of the buffer: always 64 on legacy SCHIP. -/
def State.bufHeight (s : State) : Nat := if legacySchip s.variant then 64 else s.height

/-! ## Pixels -/

/-- A plane with every bit 0. -/
def blankPlane : Plane := Vector.replicate 64 0

/-- `PLANE[p][x][y]` of one plane. -/
def Plane.pixel (p : Plane) (x y : Nat) : Bool := (p.getD y 0).getLsbD x

/-- The plane with one pixel set to `b`; nothing where there is no such pixel. -/
def Plane.setPixel (p : Plane) (x y : Nat) (b : Bool) : Plane :=
  if h : y < 64 then
    p.set y (if b then p[y] ||| (1#128 <<< x) else p[y] &&& ~~~(1#128 <<< x))
  else p

/-- What a drawn pixel becomes (41_display.md rules R203, R231). -/
def DrawMode.apply (m : DrawMode) (old : Bool) : Bool :=
  match m with
  | .xor => !old
  | .or => true
  | .subtract => false

/-- `togglePixel`: the plane with the pixel drawn, and whether it went from on to off (41_display.md rules R203,
R231). -/
def togglePixel (m : DrawMode) (p : Plane) (bx byy : Nat) : Plane × Bool :=
  let old := Plane.pixel p bx byy
  (Plane.setPixel p bx byy (m.apply old), old && !m.apply old)

/-! ## The sprite rasterizer (41_display.md rule R200) -/

/-- What a draw works with, once its operands are read. -/
structure DrawSetup where
  x0 : Nat
  y0 : Nat
  rows : Nat
  cols : Nat
  bytesPerRow : Nat
  w : Nat
  h : Nat
  /-- The side of the block of buffer pixels that a logical pixel covers (41_display.md rule R207). -/
  scale : Nat
  wrap : Bool
  /-- Rows are counted (41_display.md rules R204, R208). -/
  counting : Bool
  mode : DrawMode
  deriving DecidableEq, Repr

/-- `geometry(V, N)`: rows, columns, bytes per row (41_display.md rule R201). -/
def spriteGeometry (v : Variant) (n : Nibble) : Nat × Nat × Nat :=
  if n = 0 then (if hiresCapable v then (16, 16, 2) else (0, 8, 1)) else (n.toNat, 8, 1)

/-- Rows are counted on legacy SCHIP in extended mode (41_display.md rules R204, R208, R210). -/
def State.countsRows (s : State) : Bool := legacySchip s.variant && s.ext

/-- The setup of a draw (41_display.md rules R200 to R202, R207). -/
def State.drawSetup (s : State) (x y : RegIx) (n : Nibble) : DrawSetup :=
  let g := spriteGeometry s.variant n
  { x0 := (s.reg x).toNat % s.width
    y0 := (s.reg y).toNat % s.height
    rows := g.1
    cols := g.2.1
    bytesPerRow := g.2.2
    w := s.width
    h := s.height
    scale := if legacySchip s.variant && !s.ext then 2 else 1
    wrap := s.quirks.wrap
    counting := s.countsRows
    mode := s.dmode }

/-- The bit of column `c` in row `r` of a sprite whose bytes are `byteAt` (41_display.md rule R201). -/
def spriteBit (d : DrawSetup) (byteAt : Nat → Byte) (r c : Nat) : Bool :=
  (byteAt (r * d.bytesPerRow + c / 8)).getLsbD (7 - c % 8)

/-- The buffer pixels of a logical pixel, `dy` outer and `dx` inner (41_display.md rule R207). -/
def blockPixels (scale xx yy : Nat) : List (Nat × Nat) :=
  (List.range scale).flatMap fun dy => (List.range scale).map fun dx => (scale * xx + dx, scale * yy + dy)

/-- A logical pixel drawn: every buffer pixel of its block toggled, any of them colliding (41_display.md rule
R207). -/
def toggleBlock (m : DrawMode) : List (Nat × Nat) → Plane × Bool → Plane × Bool
  | [], a => a
  | q :: qs, a =>
    let t := togglePixel m a.1 q.1 q.2
    toggleBlock m qs (t.1, a.2 || t.2)

/-- The columns of one row at the logical row `yy`; the flag says whether the row collided (41_display.md rules
R205, R206). -/
def drawCols (d : DrawSetup) (bit : Nat → Bool) (yy : Nat) : List Nat → Plane × Bool → Plane × Bool
  | [], a => a
  | c :: cs, a =>
    if bit c then
      if d.x0 + c < d.w then drawCols d bit yy cs (toggleBlock d.mode (blockPixels d.scale (d.x0 + c) yy) a)
      else if d.wrap then
        drawCols d bit yy cs (toggleBlock d.mode (blockPixels d.scale ((d.x0 + c) % d.w) yy) a)
      else drawCols d bit yy cs a
    else drawCols d bit yy cs a

/-- A plane under a draw, the collision flag and the count so far. -/
structure DrawAcc where
  plane : Plane
  hit : Bool
  count : Nat
  deriving DecidableEq, Repr

/-- One row of a sprite drawn at the logical row `yy` (41_display.md rules R200, R208). -/
def drawRow (d : DrawSetup) (byteAt : Nat → Byte) (r yy : Nat) (a : DrawAcc) : DrawAcc :=
  let t := drawCols d (spriteBit d byteAt r) yy (List.range d.cols) (a.plane, false)
  { plane := t.1, hit := a.hit || t.2, count := a.count + (if t.2 then 1 else 0) }

/-- The rows of a sprite in one plane: past the bottom edge a row is counted, wraps, or ends the plane
(41_display.md rules R204, R205). -/
def drawRows (d : DrawSetup) (byteAt : Nat → Byte) : List Nat → DrawAcc → DrawAcc
  | [], a => a
  | r :: rs, a =>
    if d.y0 + r < d.h then drawRows d byteAt rs (drawRow d byteAt r (d.y0 + r) a)
    else if d.counting then drawRows d byteAt rs { a with count := a.count + 1 }
    else if d.wrap then drawRows d byteAt rs (drawRow d byteAt r ((d.y0 + r) % d.h) a)
    else a

/-- Whether plane `p` exists on the variant and is selected by `PMASK` (10_state.md rule R52). -/
def State.selected (s : State) (p : Fin 4) : Bool := decide (p.val < planeCount s.variant) && s.pmask.getLsbD p.val

/-- The selected planes in increasing order. -/
def State.selectedPlanes (s : State) : List (Fin 4) := [0, 1, 2, 3].filter s.selected

/-- All planes under a draw, the collision flag and the count so far. -/
structure DrawResult where
  planes : Vector Plane 4
  hit : Bool
  count : Nat
  deriving DecidableEq, Repr

/-- The sprite drawn into the listed planes, the `j`-th taking its bytes from `I + j * size` (41_display.md rule
R209). -/
def drawPlanes (s : State) (d : DrawSetup) : List (Fin 4) → Nat → DrawResult → DrawResult
  | [], _, a => a
  | p :: ps, j, a =>
    let byteAt := fun off => s.read (s.i + BitVec.ofNat 24 (j * (d.rows * d.bytesPerRow) + off))
    let t := drawRows d byteAt (List.range d.rows) { plane := a.planes[p.val], hit := a.hit, count := a.count }
    drawPlanes s d ps (j + 1) { planes := a.planes.set p.val t.plane, hit := t.hit, count := t.count }

/-- The whole draw on the selected planes (41_display.md rule R200). -/
def State.drawSprite (s : State) (x y : RegIx) (n : Nibble) : DrawResult :=
  drawPlanes s (s.drawSetup x y n) s.selectedPlanes 0 { planes := s.planes, hit := false, count := 0 }

/-! ## Clear and scroll (41_display.md rules R219, R224) -/

/-- A change of the selected planes only. -/
def State.mapSelected (s : State) (f : Plane → Plane) : State :=
  { s with planes := Vector.ofFn fun p : Fin 4 => if s.selected p then f s.planes[p.val] else s.planes[p.val] }

/-- Every plane cleared (41_display.md rule R228). -/
def State.clearAll (s : State) : State := { s with planes := Vector.replicate 4 blankPlane }

/-- The columns of the buffer, as a mask over a row. -/
def rowMask (bw : Nat) : BitVec 128 := BitVec.allOnes 128 >>> (128 - bw)

/-- `scrollDown(n)` on one plane (41_display.md rule R224). -/
def Plane.scrollDown (bh n : Nat) (p : Plane) : Plane :=
  Vector.ofFn fun y : Fin 64 => if n ≤ y.val ∧ y.val < bh then p.getD (y.val - n) 0 else 0

/-- `scrollUp(n)` on one plane (41_display.md rule R224). -/
def Plane.scrollUp (bh n : Nat) (p : Plane) : Plane :=
  Vector.ofFn fun y : Fin 64 => if y.val + n < bh then p.getD (y.val + n) 0 else 0

/-- `scrollRight(n)` on one plane: a column is a bit, column 0 the least significant (41_display.md rule R224). -/
def Plane.scrollRight (bw n : Nat) (p : Plane) : Plane := Vector.ofFn fun y : Fin 64 => (p[y.val] <<< n) &&& rowMask bw

/-- `scrollLeft(n)` on one plane (41_display.md rule R224). -/
def Plane.scrollLeft (bw n : Nat) (p : Plane) : Plane := Vector.ofFn fun y : Fin 64 => (p[y.val] &&& rowMask bw) >>> n

/-! ## The compositor (41_display.md rules R250 to R253) -/

/-- The colour index of a buffer pixel: the sum of `PLANE[p][x][y] << p` over the planes of the variant. -/
def State.colourIndex (s : State) (x y : Nat) : Fin 16 :=
  Fin.ofNat 16 ((((List.range (planeCount s.variant)).map fun p =>
    if Plane.pixel (s.planes.getD p blankPlane) x y then 2 ^ p else 0)).sum)

/-- The ARGB grid, by columns: `grid[x][y]` (41_display.md rule R250). -/
def State.composite (s : State) : List (List Argb) :=
  (List.range s.bufWidth).map fun x => (List.range s.bufHeight).map fun y =>
    Config.palette s.settings.paletteId (s.colourIndex x y)

/-- A grid of the host has the size of the buffer (41_display.md rule R253). -/
def State.gridFits (s : State) : Option (Nat × Nat) → Bool
  | none => true
  | some g => g.1 == s.bufWidth && g.2 == s.bufHeight

/-- What `populateRenderBuffer` gives the host: a pure read (41_display.md rule R250), and an error for a grid of
another size (rule R253), which ends the session: `State.afterRender`. -/
def State.populateRenderBuffer (s : State) (grid : Option (Nat × Nat)) : Except Fault (List (List Argb)) :=
  if s.gridFits grid then .ok s.composite else .error .argumentError

/-- The state after the host's call of `populateRenderBuffer`: the same (41_display.md rule R252), or the fatal
`ArgumentError` taken (41_display.md rule R253; 60_exceptions.md rules R420, R424). -/
def State.afterRender (s : State) (grid : Option (Nat × Nat)) : State :=
  if s.gridFits grid then s else s.raise .argumentError

end Sys2Proof.Machine
end

