-- ==== Sys2Proof/Machine/Display.lean ====
section
/-!
DEFINITION. The display instructions (41_display.md). Scroll amounts are in buffer pixels (rule R225).
-/

namespace Sys2Proof.Machine

/-- `DXYN` (41_display.md rules R200, R210; 70_reset_and_hazards.md rule R483). -/
def execDrw (x y : RegIx) (n : Nibble) (s : State) : Host.Outcome State Fault Refusal :=
  let d := s.drawSprite x y n
  let t := { s with planes := d.planes }.setReg flagReg (drawFlag s.countsRows d.hit d.count)
  .next (if s.quirks.displayWait then { t with run := .frameWait } else t)

/-- `00E0` (41_display.md rule R219). -/
def execCls (s : State) : Host.Outcome State Fault Refusal := .next (s.mapSelected fun _ => blankPlane)

/-- `00CN` (41_display.md rule R220). -/
def execScd (n : Nibble) (s : State) : Host.Outcome State Fault Refusal :=
  .next (s.mapSelected (Plane.scrollDown s.bufHeight n.toNat))

/-- `00DN` (41_display.md rule R221). -/
def execScu (n : Nibble) (s : State) : Host.Outcome State Fault Refusal :=
  .next (s.mapSelected (Plane.scrollUp s.bufHeight n.toNat))

/-- `00FB` (41_display.md rule R222). -/
def execScr (s : State) : Host.Outcome State Fault Refusal :=
  .next (s.mapSelected (Plane.scrollRight s.bufWidth 4))

/-- `00FC` (41_display.md rule R223). -/
def execScl (s : State) : Host.Outcome State Fault Refusal :=
  .next (s.mapSelected (Plane.scrollLeft s.bufWidth 4))

/-- A switch of the extended mode, with the implicit clear but on legacy SCHIP (41_display.md rules R226 to
R228). -/
def State.setExt (s : State) (e : Bool) : State :=
  if legacySchip s.variant then { s with ext := e } else { s.clearAll with ext := e }

/-- `00FE` (41_display.md rule R226). -/
def execLow (s : State) : Host.Outcome State Fault Refusal := .next (s.setExt false)

/-- `00FF` (41_display.md rule R227). -/
def execHigh (s : State) : Host.Outcome State Fault Refusal := .next (s.setExt true)

/-- `FN01` (41_display.md rule R230). -/
def execPlane (n : Nibble) (s : State) : Host.Outcome State Fault Refusal := .next { s with pmask := n }

end Sys2Proof.Machine
end

