-- ==== Sys2Proof/Machine/IndexMemory.lean ====
section
/-!
DEFINITION. The index-register, memory and flags-storage instructions (42_memory_ops.md).
-/

namespace Sys2Proof.Machine

/-- `ANNN` (42_memory_ops.md rule R270). -/
def execLdI (nnn : Imm12) (s : State) : Host.Outcome State Fault Refusal := .next (s.setI (nnn.setWidth 24))

/-- `F000 NNNN`: `PC` moves past the second word, which the decoder has read at the advanced `PC`
(42_memory_ops.md rule R271). -/
def execLdILong (nnnn : Word) (s : State) : Host.Outcome State Fault Refusal :=
  .next ((s.setPc (s.pc + 2)).setI (nnnn.setWidth 24))

/-- `FX1E`; no flag (42_memory_ops.md rule R272). -/
def execAddI (x : RegIx) (s : State) : Host.Outcome State Fault Refusal :=
  .next (s.setI (s.i + (s.reg x).setWidth 24))

/-- `FX29` (42_memory_ops.md rule R273). -/
def execLdF (x : RegIx) (s : State) : Host.Outcome State Fault Refusal :=
  .next (s.setI (smallGlyph (lowNibble (s.reg x))))

/-- `FX30` (42_memory_ops.md rule R274). -/
def execLdHF (x : RegIx) (s : State) : Host.Outcome State Fault Refusal :=
  .next (s.setI (bigGlyph (lowNibble (s.reg x))))

/-- `FX33` (42_memory_ops.md rule R275). -/
def execLdB (x : RegIx) (s : State) : Host.Outcome State Fault Refusal :=
  .next (s.storeBytes s.i (bcdDigits (s.reg x)))

/-- The advance of `I` past `[I .. I + X]` under the quirk (42_memory_ops.md rules R279, R280). -/
def State.autoInc (s : State) (x : RegIx) : State :=
  if s.quirks.autoIncI then s.setI (s.indexAddr (x.val + 1)) else s

/-- `FX55` (42_memory_ops.md rule R279). -/
def execStoreRegs (x : RegIx) (s : State) : Host.Outcome State Fault Refusal :=
  .next ((s.storeBytes s.i (s.regValues (regsUpTo x))).autoInc x)

/-- `FX65` (42_memory_ops.md rule R280). -/
def execLoadRegs (x : RegIx) (s : State) : Host.Outcome State Fault Refusal :=
  .next ((s.setRegs ((regsUpTo x).zip (s.loadBytes s.i (x.val + 1)))).autoInc x)

/-- `5XY2`; `I` is unchanged (42_memory_ops.md rule R285). -/
def execSaveRange (x y : RegIx) (s : State) : Host.Outcome State Fault Refusal :=
  .next (s.storeBytes s.i (s.regValues (regRange x y)))

/-- `5XY3`; `I` is unchanged (42_memory_ops.md rule R286). -/
def execLoadRange (x y : RegIx) (s : State) : Host.Outcome State Fault Refusal :=
  .next (s.setRegs ((regRange x y).zip (s.loadBytes s.i (regRange x y).length)))

/-- `FX75` (42_memory_ops.md rule R287). -/
def execSaveFlags (x : RegIx) (s : State) : Host.Outcome State Fault Refusal :=
  .next (s.setFlags ((regsUpTo x).map fun k => (k, s.reg k)))

/-- `FX85` (42_memory_ops.md rule R288). -/
def execLoadFlags (x : RegIx) (s : State) : Host.Outcome State Fault Refusal :=
  .next (s.setRegs ((regsUpTo x).map fun k => (k, s.flags[k.val])))

end Sys2Proof.Machine
end

