-- ==== Sys2Proof/Machine/KeysTimersSound.lean ====
section
/-!
DEFINITION. The timer, get-key and sound instructions (44_keys_timers_sound.md).
-/

namespace Sys2Proof.Machine

/-- `FX07` (44_keys_timers_sound.md rule R370). -/
def execLdVxDt (x : RegIx) (s : State) : Host.Outcome State Fault Refusal := .next (s.setReg x s.dt)

/-- `FX15` (44_keys_timers_sound.md rule R371). -/
def execLdDtVx (x : RegIx) (s : State) : Host.Outcome State Fault Refusal := .next { s with dt := s.reg x }

/-- `FX18` (44_keys_timers_sound.md rule R372). -/
def execLdStVx (x : RegIx) (s : State) : Host.Outcome State Fault Refusal := .next { s with st := s.reg x }

/-- The stall of the get-key instruction: `PC` goes back to its address (44_keys_timers_sound.md rule R379). -/
def State.stall (s : State) : State := s.setPc s.instrAddr

/-- `FX0A` (44_keys_timers_sound.md rules R376 to R379). -/
def execLdVxK (x : RegIx) (s : State) : Host.Outcome State Fault Refusal :=
  match s.keyWait with
  | .idle =>
    match s.lowestKey with
    | some k => .next { s.stall with keyWait := .awaiting k }
    | none => .next s.stall
  | .awaiting k =>
    if s.key k then .next s.stall
    else .next { s.setReg x (BitVec.ofNat 8 k.val) with keyWait := .idle }

/-- `F002`; `I` and `PHASE` are unchanged (44_keys_timers_sound.md rule R381). -/
def execAudio (s : State) : Host.Outcome State Fault Refusal :=
  .next { s with pattern := Vector.ofFn fun k : Fin 16 => s.read (s.indexAddr k.val) }

/-- `FX3A` (44_keys_timers_sound.md rule R382). -/
def execPitch (x : RegIx) (s : State) : Host.Outcome State Fault Refusal := .next { s with pitch := s.reg x }

end Sys2Proof.Machine
end

