-- ==== Sys2Proof/Machine/Sound.lean ====
section
/-!
DEFINITION. The PCM synthesizer (44_keys_timers_sound.md section 4). `PHASE`, the step and the phase update are
rational numbers, rounded by the OPEN `AUDIO_NUM` (rule R389; notes/assumptions/7.md).
-/

namespace Sys2Proof.Machine

/-- The number of samples of a frame (44_keys_timers_sound.md rule R386). -/
def State.samplesPerFrame (s : State) : Nat := Config.sampleRate / s.settings.frameRate

/-- `2^((PITCH - 64) / 48)`: exact where the exponent is an integer, so that pitch 64 gives 1; elsewhere the
number `AUDIO_NUM` has for it (44_keys_timers_sound.md rules R388, R389). -/
def pitchRatio (p : Byte) : Rat :=
  if (p.toNat + 32) % 48 = 0 then ((2 ^ ((p.toNat + 32) / 48) : Nat) : Rat) / 4 else Config.pitchRatioFree p

/-- `stepOf(V, PITCH)` before rounding (44_keys_timers_sound.md rules R387, R388). -/
def exactStep (v : Variant) (p : Byte) : Rat :=
  if xoClass v then 4000 * pitchRatio p / 128 / (Config.sampleRate : Rat)
  else 27535 / 129 / (Config.sampleRate : Rat)

/-- `stepOf(V, PITCH)` (44_keys_timers_sound.md rules R387 to R389). -/
def stepOf (v : Variant) (p : Byte) : Rat := Config.audioRound (exactStep v p)

/-- `q mod 1.0`. -/
def modOne (q : Rat) : Rat := q - (q.floor : Rat)

/-- The phase update (44_keys_timers_sound.md rules R385, R389). -/
def nextPhase (phase step : Rat) : Rat := modOne (Config.audioRound (phase + step))

/-- Bit `i` of the pattern (10_state.md rule R56). -/
def patternBit (p : Pattern) (i : Nat) : Bool := (p.getD (i / 8) 0).getLsbD (7 - i % 8)

/-- `floor(PHASE * 128)`, which is below 128 for a phase in `[0, 1)` (44_keys_timers_sound.md rule R385). -/
def phaseIndex (phase : Rat) : Nat := (phase * 128).floor.toNat % 128

/-- One sample of tone (44_keys_timers_sound.md rules R385, R391). -/
def toneSample (p : Pattern) (phase : Rat) : Int :=
  if patternBit p (phaseIndex phase) then (Config.amplitude : Int) else -(Config.amplitude : Int)

/-- The samples of `n` steps of tone and the phase after them (44_keys_timers_sound.md rule R385). -/
def synth (p : Pattern) (step : Rat) : Nat → Rat → List Int × Rat
  | 0, phase => ([], phase)
  | n + 1, phase =>
    let r := synth p step n (nextPhase phase step)
    (toneSample p phase :: r.1, r.2)

/-- The samples of a frame's buffer of `n` samples (44_keys_timers_sound.md rule R385). -/
def PcmFrame.samples (n : Nat) : PcmFrame → List Int
  | .notYet => []
  | .silence => List.replicate n 0
  | .tone p phase step => (synth p step n phase).1

/-- A PCM buffer of the host has the length of a frame (44_keys_timers_sound.md rule R392). -/
def State.pcmFits (s : State) : Option Nat → Bool
  | none => true
  | some n => n == s.samplesPerFrame

/-- `pushSamples(ST, buf)` on a buffer of the right length: the frame's samples and the phase after it
(44_keys_timers_sound.md rules R385, R390, R395). -/
def State.pushSamples (s : State) : State :=
  if s.st = 0 then { s with phase := 0, pcm := .silence }
  else
    { s with
      phase := (synth s.pattern (stepOf s.variant s.pitch) s.samplesPerFrame s.phase).2
      pcm := .tone s.pattern s.phase (stepOf s.variant s.pitch) }

/-- The sample values of the buffer the host takes after a frame (44_keys_timers_sound.md rule R392). -/
def State.pcmSamples (s : State) : List Int := s.pcm.samples s.samplesPerFrame

/-- The encoding of a sample: two's complement in `PCM_WIDTH` bits (44_keys_timers_sound.md rule R391). -/
def encodeSample (a : Int) : BitVec Config.pcmWidth := BitVec.ofInt Config.pcmWidth a

/-- The buffer the host takes after a frame, as encoded samples (44_keys_timers_sound.md rules R391, R392). -/
def State.pcmBuffer (s : State) : List (BitVec Config.pcmWidth) := s.pcmSamples.map encodeSample

end Sys2Proof.Machine
end

