-- ==== Sys2Proof/Machine/Session.lean ====
section
/-!
DEFINITION. Session construction (70_reset_and_hazards.md rule R470; 20_memory.md rules R88 to R90), the cause
codes (60_exceptions.md rule R426) and the debug accessors (00_scope.md rule R28).
-/

namespace Sys2Proof.Machine

/-- The room for a ROM: `MEM_SIZE(V) - PROG_START(V)` (20_memory.md rule R89). -/
def romRoom (v : Variant) : Nat := memSize v - (progStart v).toNat

/-- Bytes copied to consecutive memory indexes (20_memory.md rule R88). -/
def loadImage (v : Variant) : List Host.Cell → Nat → List Byte → List Host.Cell
  | m, _, [] => m
  | m, a, b :: bs => loadImage v (Memory.write v m a b) (a + 1) bs

/-- Session construction (70_reset_and_hazards.md rule R470): the ROM is checked and copied, and every other
item takes its reset value. `t0` is the clock at construction, `keys` what the host has written. -/
def construct (cfg : Settings) (t0 : Rat) (keys : Vector Bool 16) (rom : List Byte) : Except Fault State :=
  if romRoom cfg.variant < rom.length then .error (.constructionError rom.length (romRoom cfg.variant))
  else
    .ok { State.fresh cfg t0 keys with mem := loadImage cfg.variant [] (progStart cfg.variant).toNat rom }

/-- Construction from what the host asks for (70_reset_and_hazards.md rule R470, step 1). -/
def startSession (r : SettingsRequest) (t0 : Rat) (keys : Vector Bool 16) (rom : List Byte) :
    Except Fault State :=
  construct (resolveSettings r) t0 keys rom

/-! ## Cause codes (60_exceptions.md rules R420, R426) -/

/-- The errors of the block. -/
inductive ErrorKind where
  | constructionError | invalidInstruction | stackOverflow | stackUnderflow | argumentError | ioError
  deriving DecidableEq, Repr

/-- The cause code of an error (60_exceptions.md rule R426). -/
def ErrorKind.code : ErrorKind → Nat
  | .constructionError => 1
  | .invalidInstruction => 2
  | .stackOverflow => 3
  | .stackUnderflow => 4
  | .argumentError => 5
  | .ioError => 6

/-- Every error but `IOError` is fatal (60_exceptions.md rule R420). -/
def ErrorKind.fatal : ErrorKind → Bool
  | .ioError => false
  | .constructionError | .invalidInstruction | .stackOverflow | .stackUnderflow | .argumentError => true

/-- The error a fault is, if it is one; the end of a session by `00FD` or by the host is none. -/
def Fault.kind : Fault → Option ErrorKind
  | .constructionError _ _ => some .constructionError
  | .invalidInstruction _ _ => some .invalidInstruction
  | .stackOverflow _ => some .stackOverflow
  | .stackUnderflow _ => some .stackUnderflow
  | .argumentError => some .argumentError
  | .sessionHalted | .cancelled => none

/-! ## Debug accessors (00_scope.md rule R28; 60_exceptions.md rules R441, R444) -/

/-- What the debug accessors show: the items of 10_state.md that the spec calls registers (`V`, `I`, `PMASK`, `PITCH`),
`PC`, the timers, the stack, and the two counters of 60_exceptions.md rule R441. The spec does not list the registers
of the accessor (00_scope.md rule R28; notes/assumptions/13.md). DESIGN CHOICE. -/
structure DebugView where
  v : Vector Byte 16
  i : Addr
  pmask : BitVec 4
  pitch : Byte
  pc : Addr
  dt : Byte
  st : Byte
  stack : Vector Addr 16
  sp : Fin 17
  cyc : Nat
  ipfEff : Nat
  deriving DecidableEq, Repr

/-- The debug accessors: a pure read. -/
def State.debugView (s : State) : DebugView :=
  { v := s.v, i := s.i, pmask := s.pmask, pitch := s.pitch, pc := s.pc, dt := s.dt, st := s.st, stack := s.stack
    sp := s.sp, cyc := s.cyc, ipfEff := s.ipfEff }

end Sys2Proof.Machine
end

