-- ==== Sys2Proof/Machine/Frame.lean ====
section
/-!
DEFINITION. The instruction step (30_encoding.md rule R113), the frame loop (70_reset_and_hazards.md rules R481 to
R486), the pacer (rule R490), the adaptive budget (rule R495) and the host's moves (60_exceptions.md rule R446).
-/

/-- `CYCLE_COST` less one: an OPEN parameter (70_reset_and_hazards.md rule R487; notes/assumptions/5.md). The
state it is given is the `State.machinePart` of the one in which the instruction is fetched. DESIGN CHOICE. -/
opaque Sys2Proof.Config.cycleCostLessOne : Sys2Proof.Instr → Sys2Proof.Machine.State → Nat

namespace Sys2Proof.Machine

/-! ## Timers and the adaptive budget -/

/-- One decrement of a timer (60_exceptions.md rule R440). -/
def tickDown (t : Byte) : Byte := if t = 0 then 0 else t - 1

/-- One decrement of both timers (60_exceptions.md rule R440). -/
def State.tickTimers (s : State) : State := { s with dt := tickDown s.dt, st := tickDown s.st }

/-- `n` decrements (70_reset_and_hazards.md rule R486: once per boundary crossed). -/
def State.tickTimersN (s : State) : Nat → State
  | 0 => s
  | n + 1 => s.tickTimers.tickTimersN n

/-- The pacer's period `P` in seconds (70_reset_and_hazards.md rule R490). -/
def State.period (s : State) : Rat := 1 / (s.settings.frameRate : Rat)

/-- By how much the frame's wall time exceeds the period (70_reset_and_hazards.md rule R495). -/
def State.overrun (s : State) : Rat := max 0 (s.clock - s.frameStart - s.period)

/-- The adaptive budget of the next frame: `clamp(IPF_TARGET - floor(overrun / THROTTLE_DIVISOR), 1, IPF_TARGET)`
(70_reset_and_hazards.md rule R495). -/
def State.throttled (s : State) : Nat :=
  max 1 (min s.settings.ipfTarget
    (s.settings.ipfTarget - (s.overrun / Config.throttleDivisor).floor.toNat))

/-- The update of `IPF_EFF` at the end of a frame (70_reset_and_hazards.md rules R481, R495, R496). -/
def State.updateBudget (s : State) : State :=
  if 1000000 ≤ s.settings.ipfTarget then { s with ipfEff := s.throttled } else s

/-! ## Strict mode (70_reset_and_hazards.md rules R486, R487) -/

/-- Whether the frame is a strict one (notes/assumptions/16.md). -/
def State.strictMode (s : State) : Bool :=
  s.settings.strict && s.settings.variant == .chip8 && s.settings.frameRate == 60

/-- `CPF`, the cycles of a strict frame. -/
abbrev cyclesPerFrame : Nat := 3668

/-- What `CYCLE_COST` may read of a state: the items of 10_state.md and memory. Every field of the host's side, of
the pacer, of the loop's own variables and of the model's own has one fixed value here, so that no rule of the
machine reads the time (70_reset_and_hazards.md rule R492); so has `IPF_EFF`, which the throttle takes from the wall
time (rule R496); and so have `PHASE` and the last buffer, so that nothing but PCM output depends on `AUDIO_NUM`
(44_keys_timers_sound.md rule R389). notes/assumptions/5.md. DESIGN CHOICE. -/
def State.machinePart (s : State) : State :=
  { s with
    ipfEff := s.settings.ipfTarget, draws := 0, phase := 0, pcm := .notYet, deadline := 0, clock := 0
    frameStart := 0, inFrame := false, slots := 0, frameCyc := 0, debug := false, hookCalls := 0
    hostPcm := none, hostGrid := none, inbox := [] }

/-- `CYCLE_COST`, at least 1, of the machine's part of the state (70_reset_and_hazards.md rule R487). -/
def cycleCost (i : Instr) (s : State) : Nat := Config.cycleCostLessOne i s.machinePart + 1

/-- What an instruction fetched in `before` uses up: its cycles in strict mode, else one slot
(70_reset_and_hazards.md rules R482, R486). -/
def State.charge (s : State) (i : Instr) (before : State) : State :=
  if s.strictMode then { s with cyc := s.cyc + cycleCost i before } else { s with slots := s.slots + 1 }

/-- The condition of the frame's loop (70_reset_and_hazards.md rules R481, R486). -/
def State.loopGoesOn (s : State) : Bool :=
  s.run == .running &&
    (if s.strictMode then decide (s.cyc < (s.frameCyc / cyclesPerFrame + 1) * cyclesPerFrame)
     else decide (s.slots < s.ipfEff))

/-! ## The end and the beginning of a frame -/

/-- How often the end of a frame decrements the timers: once, and in strict mode once per boundary crossed
(70_reset_and_hazards.md rules R481, R486). -/
def State.decrements (s : State) : Nat :=
  if s.strictMode then s.cyc / cyclesPerFrame - s.frameCyc / cyclesPerFrame else 1

/-- The timer decrements and the budget update that end a frame, strict or not (70_reset_and_hazards.md rules R481,
R486; 10_state.md rule R48; notes/assumptions/16.md). -/
def State.closeFrame (s : State) : State := (s.tickTimersN s.decrements).updateBudget

/-- The end of a frame: `composite()`, `pushSamples(ST, buf)`, the timers, the budget
(70_reset_and_hazards.md rules R481, R486). The grid the host takes is `composite` of the state; a buffer of the
host of the wrong size is an `ArgumentError`, which is taken (60_exceptions.md rules R420, R424). -/
def State.endFrame (s : State) : Host.Outcome State Fault Refusal :=
  if s.gridFits s.hostGrid && s.pcmFits s.hostPcm then
    .next { s.pushSamples.closeFrame with inFrame := false }
  else (s.raise .argumentError).outcome

/-- The pacer's answer to a tick at `t` (70_reset_and_hazards.md rule R490, with `PACER_TOL` of 1 ms). -/
def State.frameDue (s : State) (t : Rat) : Bool := !decide (t + 1 / 1000 < s.deadline)

/-- The pacer's next deadline when a frame is due at `t` (70_reset_and_hazards.md rule R490). Only a positive lag
can exceed `PACER_MAX_LAG`, which is not negative, so the first condition follows from the second. -/
def State.nextDeadline (s : State) (t : Rat) : Rat :=
  if 0 < t - (s.deadline + s.period) ∧ Config.pacerMaxLag < t - (s.deadline + s.period) then t + s.period
  else s.deadline + s.period

/-- A frame begins at the tick of clock reading `t` (70_reset_and_hazards.md rules R481, R483, R486, R490). -/
def State.beginFrame (s : State) (t : Rat) : State :=
  { s with
    run := if s.run = .frameWait then .running else s.run
    deadline := s.nextDeadline t
    clock := t
    frameStart := t
    inFrame := true
    slots := 0
    frameCyc := s.cyc }

/-- The breakpoint-check hook, consulted once per instruction while the debug enabled flag is set, and only then
(00_scope.md rule R28; 60_exceptions.md rule R444). Its action is outside the block; that the model counts the
consultations, and makes each just before the fetch, is in notes/assumptions/13.md. DESIGN CHOICE. -/
def State.consultHook (s : State) : State := { s with hookCalls := s.hookCalls + (if s.debug then 1 else 0) }

/-- The state of a frame in progress in which an instruction runs. Between frames the host, when it has no move
listed, delivers a tick no earlier than the deadline, so that a frame is due (notes/assumptions/3.md). DESIGN
CHOICE. -/
def State.framed (s : State) : State :=
  if s.inFrame && s.run == .running then s
  else s.beginFrame (if s.clock < s.deadline then s.deadline else s.clock)

/-- The state in which the next instruction is fetched: a frame is in progress and the debug hook has been
consulted. -/
def State.ready (s : State) : State := s.framed.consultHook

/-! ## The instruction step (30_encoding.md rule R113) -/

/-- What the decoder reads at `PC` (20_memory.md rule R83; 30_encoding.md rule R114). -/
def State.fetchDecode (s : State) : Decoded := decode s.variant (s.readWord s.pc) (s.readWord (s.pc + 2))

/-- The end of a step whose instruction `i` was fetched in `before` and left the state `t`: an error or a
refusal ends the session, a halt ends it with nothing more of the frame, and otherwise the frame's loop goes on
or the frame ends (00_scope.md rule R19; 70_reset_and_hazards.md rules R481, R486). -/
def State.afterInstr (t : State) (i : Instr) (before : State) : Host.Outcome State Fault Refusal :=
  match t.run with
  | .faulted r => .fault r
  | .refused r => .refused r
  | .halted => .next t
  | .running | .frameWait =>
    if (t.charge i before).loopGoesOn then .next (t.charge i before) else (t.charge i before).endFrame

/-- A decoded instruction executed from the state `s` in which it was fetched. -/
def runInstr (i : Instr) (s : State) : Host.Outcome State Fault Refusal :=
  match exec i s.advance with
  | .next t => t.afterInstr i s
  | .fault r => .fault r
  | .refused r => .refused r

/-- The state after the decode of a word without an instruction: the fetch's advance of `PC`, and `RUN`
(60_exceptions.md rules R421, R425). -/
def State.decodeError (s : State) : Decoded → State
  | .valid _ => s
  | .invalid => s.advance.raise (.invalidInstruction (s.readWord s.pc) s.pc)
  | .unknownExtension => s.advance.refuse .unknownExtension
  | .flagRangeUnknown => s.advance.refuse .flagRangeUnknown

/-- Fetch, decode and execute one instruction (30_encoding.md rule R113). -/
def instrStep (s : State) : Host.Outcome State Fault Refusal :=
  match s.fetchDecode with
  | .valid i => runInstr i s
  | .invalid => (s.decodeError .invalid).outcome
  | .unknownExtension => (s.decodeError .unknownExtension).outcome
  | .flagRangeUnknown => (s.decodeError .flagRangeUnknown).outcome

/-! ## The whole machine: the Processor and the host -/

/-- The host's next move, `rest` the moves after it. A tick or a cancellation that comes inside a frame waits for
its end: the Processor goes on (70_reset_and_hazards.md rules R480, R484; 60_exceptions.md rule R428). -/
def hostMove (s : State) (rest : List HostEvent) : HostEvent → Host.Outcome State Fault Refusal
  | .key k held => .next { s with keys := s.keys.set k.val held, inbox := rest }
  | .clock t => .next { s with clock := t, inbox := rest }
  | .buffers pcm grid => .next { s with hostPcm := pcm, hostGrid := grid, inbox := rest }
  | .render grid => ({ s with inbox := rest }.afterRender grid).outcome
  | .debug on => .next { s with debug := on, inbox := rest }
  | .audioFailure => .next { s with inbox := rest }
  | .idle => instrStep { s with inbox := rest }.ready
  | .tick =>
    if s.inFrame then instrStep s.ready
    else if s.frameDue s.clock then .next ({ s with inbox := rest }.beginFrame s.clock)
    else .next { s with inbox := rest }
  | .cancel => if s.inFrame then instrStep s.ready else .fault .cancelled

/-- One step of the machine. A session that has ended takes none (00_scope.md rule R19). -/
def machineStep (s : State) : Host.Outcome State Fault Refusal :=
  match s.run with
  | .faulted r => .fault r
  | .refused r => .refused r
  | .halted => .fault .sessionHalted
  | .running | .frameWait =>
    match s.inbox with
    | [] => instrStep s.ready
    | e :: rest => hostMove s rest e

/-! ## Placing an instruction where the next step fetches -/

/-- A session that has ended runs again; used only to place an instruction. -/
def RunState.reopened : RunState → RunState
  | .running => .running
  | .frameWait => .frameWait
  | .halted | .faulted _ | .refused _ => .running

/-- The state with two words stored at `PC` and no host move before the next fetch (notes/assumptions/2.md). -/
def State.placeWords (s : State) (w w2 : Word) : State :=
  { s.storeBytes s.pc (wordBytes w ++ wordBytes w2) with run := s.run.reopened, inbox := [] }

end Sys2Proof.Machine
end

