-- ==== Sys2Proof/Machine/Step.lean ====
section
/-! DEFINITION. The step of the machine, and the placing of an instruction where it fetches. -/

namespace Sys2Proof.Machine

/-- One step: a move of the host if one is listed, else one instruction with the frame around it. -/
def step : State → Host.Outcome State Fault Refusal := fun s => machineStep s

/-- `s` with the instruction whose bits are `w`, as spec/opcode_table.json numbers them, stored at `PC`, so that
the next step fetches and runs it (notes/assumptions/2.md, 15.md). -/
def State.withFetchWord (s : State) (nbits w : Nat) : State :=
  s.placeWords (tableWords nbits w).1 (tableWords nbits w).2

end Sys2Proof.Machine
end

