-- ==== Sys2Proof/Safety.lean ====
section
/-!
DEFINITION. The terms the claims use: safe runs, what an instruction leaves unchanged (frames), and the invariants
of the machine.
-/

namespace Sys2Proof.Safety

open Sys2Proof.Machine

/-! ## Runs -/

/-- The step answers a next state. -/
def steps (s : State) : Bool :=
  match step s with
  | .next _ => true
  | .fault _ => false
  | .refused _ => false

/-- `k` steps from `s` all answer a next state: no fault, no refusal, no ended session. -/
def safeRun : Nat → State → Bool
  | 0, _ => true
  | k + 1, s =>
    match step s with
    | .next t => safeRun k t
    | .fault _ => false
    | .refused _ => false

/-- The session can take instruction steps: it has not ended (10_state.md rule R41). -/
def live (s : State) : Prop := s.run = .running ∨ s.run = .frameWait

/-! ## Frames -/

/-- Every byte of memory reads as before. -/
def sameMemory (s t : State) : Prop := ∀ a, t.read a = s.read a

/-- Every byte reads as before but the `n` bytes stored from address `a` on, each address masked on its own
(20_memory.md rule R84). -/
def memorySameOutside (a : Addr) (n : Nat) (s t : State) : Prop :=
  ∀ b, (∀ k, k < n → busIndex s.variant b ≠ busIndex s.variant (a + BitVec.ofNat 24 k)) → t.read b = s.read b

/-- Nothing but the listed general registers changed: every other register, `PC`, `I`, the stack, the timers, the
flags storage, the control state, the display, the sound state and every byte of memory are as before. -/
def onlyRegs (ws : List RegIx) (s t : State) : Prop :=
  t = { s with v := t.v } ∧ (∀ k, k ∉ ws → t.reg k = s.reg k) ∧ sameMemory s t

/-- Nothing but `I` changed. -/
def onlyI (s t : State) : Prop := t = { s with i := t.i } ∧ sameMemory s t

/-- Nothing but `PC` changed. -/
def onlyPc (s t : State) : Prop := t = { s with pc := t.pc } ∧ sameMemory s t

/-- Nothing but the bitplanes changed. -/
def onlyPlanes (s t : State) : Prop := t = { s with planes := t.planes } ∧ sameMemory s t

/-- Nothing but memory changed, and there only the `n` bytes stored from address `a` on. -/
def onlyStored (a : Addr) (n : Nat) (s t : State) : Prop := t = { s with mem := t.mem } ∧ memorySameOutside a n s t

/-! ## Fonts -/

/-- The glyphs 0 to F of the small font, five bytes each, as 20_memory.md rule R86 lists them; notes/assumptions/18.md
names where the spec reads otherwise of E and F. -/
def smallGlyphs : List (List Byte) :=
  [[0xF0, 0x90, 0x90, 0x90, 0xF0], [0x20, 0x60, 0x20, 0x20, 0x70], [0xF0, 0x10, 0xF0, 0x80, 0xF0],
   [0xF0, 0x10, 0xF0, 0x10, 0xF0], [0x90, 0x90, 0xF0, 0x10, 0x10], [0xF0, 0x80, 0xF0, 0x10, 0xF0],
   [0xF0, 0x80, 0xF0, 0x90, 0xF0], [0xF0, 0x10, 0x20, 0x40, 0x40], [0xF0, 0x90, 0xF0, 0x90, 0xF0],
   [0xF0, 0x90, 0xF0, 0x10, 0xF0], [0xF0, 0x90, 0xF0, 0x90, 0x90], [0xE0, 0x90, 0xE0, 0x90, 0xE0],
   [0xF0, 0x80, 0x80, 0x80, 0xF0], [0xE0, 0x90, 0x90, 0x90, 0xE0], [0xF0, 0x80, 0xF0, 0x80, 0x80],
   [0xF0, 0x80, 0xF0, 0x80, 0xF0]]

/-! ## Skips -/

/-- Where the skip primitive goes from the advanced `PC`: past two bytes, or past four where the next instruction
is the long form (43_control_flow.md rule R329). -/
def skipTarget (s : State) : Nat :=
  (s.pc.toNat + (if xoClass s.variant = true ∧ s.readWord s.pc = 0xF000#16 then 4 else 2)) % memSize s.variant

/-- A skip under the condition `c`: only `PC` changes, and it moves exactly when `c` holds (43_control_flow.md
rules R329 to R335). -/
def skipsWhen (c : Prop) (s t : State) : Prop :=
  onlyPc s t ∧ (c → t.pc.toNat = skipTarget s) ∧ (¬c → t.pc = s.pc)

/-! ## Pixels -/

/-- `PLANE[p][x][y]` (10_state.md rule R51). -/
def pixelOf (s : State) (p : Fin 4) (x y : Nat) : Bool := Plane.pixel s.planes[p.val] x y

/-- The byte at offset `off` of the slice that plane `p` takes of the sprite at `I`: a selected plane takes as many
slices further on as there are selected planes below it (41_display.md rule R209). -/
def sliceByte (s : State) (d : DrawSetup) (p : Fin 4) (off : Nat) : Byte :=
  s.read (s.i + BitVec.ofNat 24
    ((s.selectedPlanes.filter fun q => q < p).length * (d.rows * d.bytesPerRow) + off))

/-- Sprite row `r` is drawn at the logical row `yy`: on the screen, or wrapped where the variant does not count
it and the quirk wraps (41_display.md rules R204, R205). -/
def rowAt (d : DrawSetup) (r yy : Nat) : Prop :=
  (d.y0 + r < d.h ∧ yy = d.y0 + r) ∨
    (d.h ≤ d.y0 + r ∧ d.counting = false ∧ d.wrap = true ∧ yy = (d.y0 + r) % d.h)

/-- Sprite column `c` is drawn at the logical column `xx` (41_display.md rules R205, R206). -/
def colAt (d : DrawSetup) (c xx : Nat) : Prop :=
  (d.x0 + c < d.w ∧ xx = d.x0 + c) ∨ (d.w ≤ d.x0 + c ∧ d.wrap = true ∧ xx = (d.x0 + c) % d.w)

/-- Row `r` of the sprite has a set bit that is drawn over the buffer pixel `(bx, py)` of plane `p`
(41_display.md rules R200, R207). -/
def rowCovers (s : State) (d : DrawSetup) (p : Fin 4) (r bx py : Nat) : Prop :=
  rowAt d r (py / d.scale) ∧
    ∃ c, c < d.cols ∧ colAt d c (bx / d.scale) ∧ spriteBit d (sliceByte s d p) r c = true

/-- The sprite is drawn over the buffer pixel `(bx, py)` of plane `p`. -/
def spriteCovers (s : State) (d : DrawSetup) (p : Fin 4) (bx py : Nat) : Prop :=
  s.selected p = true ∧ ∃ r, r < d.rows ∧ rowCovers s d p r bx py

/-- The setup of a draw as the spec gives it: the origin modulo the logical resolution, the geometry of the sprite,
the side of a pixel's block, and what happens at the edges (41_display.md rules R200 to R202, R204 to R207). -/
def drawGeometry (s : State) (x y : RegIx) (n : Nibble) (d : DrawSetup) : Prop :=
  d.w = (if s.ext then 128 else 64) ∧ d.h = (if s.ext then 64 else 32) ∧
    d.x0 = (s.reg x).toNat % d.w ∧ d.y0 = (s.reg y).toNat % d.h ∧
    d.rows = (if n.toNat ≠ 0 then n.toNat else if hiresCapable s.variant then 16 else 0) ∧
    d.cols = (if n.toNat = 0 ∧ hiresCapable s.variant = true then 16 else 8) ∧
    d.bytesPerRow = (if n.toNat = 0 ∧ hiresCapable s.variant = true then 2 else 1) ∧
    d.scale = (if legacySchip s.variant = true ∧ s.ext = false then 2 else 1) ∧
    d.wrap = s.quirks.wrap ∧ d.counting = (legacySchip s.variant && s.ext)

/-! ## Ends of frames -/

/-- The phase after `k` samples of tone: each update adds the step, in the numbers of `AUDIO_NUM`, modulo 1
(44_keys_timers_sound.md rules R385, R389; notes/assumptions/7.md). -/
def phaseAt (step phase : Rat) : Nat → Rat
  | 0 => phase
  | k + 1 =>
    Config.audioRound (phaseAt step phase k + step) - (Config.audioRound (phaseAt step phase k + step)).floor

/-- The step of the phase: the square-wave mapping with its value 0x80 where the variant is not of the XO class; there
the exponential mapping, whose power of 2 is exact at the pitches `16 + 48 j` and the open number of `AUDIO_NUM` at
every other (44_keys_timers_sound.md rules R387 to R389; notes/assumptions/7.md). -/
def stepFollowsPitch (s : State) : Prop :=
  (xoClass s.variant = false →
    stepOf s.variant s.pitch = Config.audioRound (27535 / (0x80 + 1) / (Config.sampleRate : Rat))) ∧
  (∀ j : Fin 5, xoClass s.variant = true → s.pitch.toNat = 16 + 48 * j.val →
    stepOf s.variant s.pitch = Config.audioRound (4000 * (2 ^ j.val / 2) / 128 / (Config.sampleRate : Rat))) ∧
  (xoClass s.variant = true → (∀ j : Fin 5, s.pitch.toNat ≠ 16 + 48 * j.val) →
    stepOf s.variant s.pitch =
      Config.audioRound (4000 * Config.pitchRatioFree s.pitch / 128 / (Config.sampleRate : Rat)))

/-- Bit `i` of the pattern (10_state.md rule R56). -/
def patternHas (s : State) (i : Fin 128) : Bool := (s.pattern.getD (i.val / 8) 0).getLsbD (7 - i.val % 8)

/-- The sound of a frame that ends in `s` and leaves `t`: silence with `PHASE` 0 if `ST` is 0, else the pattern from
the present phase at the pitch's step, and the phase after one update for each of the `SAMPLE_RATE div FRAME_RATE`
samples (44_keys_timers_sound.md rules R385, R386, R390). -/
def soundFollowsTimer (s t : State) : Prop :=
  (s.st = 0 → t.phase = 0 ∧ t.pcm = .silence) ∧
    (s.st ≠ 0 → t.pcm = .tone s.pattern s.phase (stepOf s.variant s.pitch) ∧
      t.phase = phaseAt (stepOf s.variant s.pitch) s.phase (Config.sampleRate / s.settings.frameRate))

/-- The budget that the end of a frame in `s` leaves in `t`: unchanged below a target of a million, else the target
less `floor(overrun / THROTTLE_DIVISOR)`, clamped (70_reset_and_hazards.md rules R495, R496). -/
def budgetFollowsOverrun (s t : State) : Prop :=
  (s.settings.ipfTarget < 1000000 → t.ipfEff = s.ipfEff) ∧
    (1000000 ≤ s.settings.ipfTarget →
      1 ≤ t.ipfEff ∧ t.ipfEff ≤ s.settings.ipfTarget ∧
      (s.clock - s.frameStart ≤ s.period → t.ipfEff = s.settings.ipfTarget) ∧
      (s.period ≤ s.clock - s.frameStart →
        (t.ipfEff : Int) = max 1 (min (s.settings.ipfTarget : Int) ((s.settings.ipfTarget : Int) -
          ((s.clock - s.frameStart - s.period) / Config.throttleDivisor).floor))))

/-! ## Invariants -/

/-- Memory keeps its canonical form. -/
def memoryCanonical (s : State) : Prop := Memory.wf s.variant s.mem

/-- `PC` and the stack entries lie in the memory (10_state.md rules R33, R37). -/
def pcInBounds (s : State) : Prop :=
  s.pc.toNat < memSize s.variant ∧ ∀ k : Fin 16, s.stack[k.val].toNat < memSize s.variant

/-- `I` fits `I_WIDTH` (10_state.md rule R36). -/
def indexFits (s : State) : Prop := s.i.toNat < 2 ^ iWidth s.variant

/-- `PMASK` is 1 where there is one plane, `EXT` is false on the CHIP-8 class, `DMODE` is XOR (10_state.md rules
R50, R52, R55). -/
def displayModes (s : State) : Prop :=
  (xoClass s.variant = false → s.pmask = 1) ∧ (chip8Class s.variant = true → s.ext = false) ∧ s.dmode = .xor

/-- No bit is set outside the buffer of a plane of the variant, so that the storage holds exactly the `BW × BH`
bits of each of the `PLANES(V)` planes (10_state.md rules R50, R51). -/
def pixelsInBuffer (s : State) : Prop :=
  ∀ (p : Fin 4) (x y : Nat), pixelOf s p x y = true →
    p.val < planeCount s.variant ∧ x < s.bufWidth ∧ y < s.bufHeight

/-- The frame loop's state: `IPF_EFF` lies in `[1, IPF_TARGET]` and equals the target below a million; a frame in
progress is a running one whose loop goes on; a waiting session is between frames (10_state.md rules R41, R48;
70_reset_and_hazards.md rules R481, R483, R486). -/
def schedulerSound (s : State) : Prop :=
  1 ≤ s.ipfEff ∧ s.ipfEff ≤ s.settings.ipfTarget ∧
    (s.settings.ipfTarget < 1000000 → s.ipfEff = s.settings.ipfTarget) ∧
    (s.inFrame = true → s.run = .running → s.loopGoesOn = true) ∧ (s.run = .frameWait → s.inFrame = false)

/-- `PHASE` lies in `[0, 1)` (10_state.md rule R58). -/
def phaseInRange (s : State) : Prop := 0 ≤ s.phase ∧ s.phase < 1

end Sys2Proof.Safety
end

