-- ==== Sys2Proof/Certificates/Slice0/Obligations.lean ====
section
/-!
DEFINITION. The statements for the provers, from the numbered rules of spec/. A statement about a result says what
`exec` answers for every state, on a state whose `PC` already holds the advanced value (10_state.md rule R34), and
its frame: what is as before. OBLIGATIONS.json lists them.
-/

open Sys2Proof Sys2Proof.Machine Sys2Proof.Safety

/-! ## Construction and reset -/

/-- 10_state.md rules R66 to R73: what construction leaves, for every variant, setting and ROM that fits. -/
def Obligations.ConstructionSetsResetValues : Prop :=
  ∀ (r : SettingsRequest) (t0 : Rat) (keys : Vector Bool 16) (rom : List Byte),
    rom.length ≤ romRoom r.variant →
      ∃ s, startSession r t0 keys rom = .ok s ∧
        s.settings = resolveSettings r ∧
        (∀ k, s.reg k = 0) ∧
        s.pc = (if r.variant = .chip8x then 0x300 else 0x200) ∧
        s.i = 0 ∧ s.sp.val = 0 ∧ (∀ k : Fin 16, s.stack[k.val] = 0) ∧
        s.dt = 0 ∧ s.st = 0 ∧
        (∀ k : Fin 16, s.flags[k.val] = 0) ∧
        (∀ p x y, pixelOf s p x y = false) ∧ s.ext = false ∧ s.pmask = 1 ∧ s.dmode = .xor ∧
        (∀ k : Fin 16, s.pattern[k.val] = if k.val < 8 then 0xFF else 0x00) ∧ s.pitch = 64 ∧ s.phase = 0 ∧
        s.run = .running ∧ s.keyWait = .idle ∧ s.keys = keys ∧
        s.ipfEff = s.settings.ipfTarget ∧ s.cyc = 0 ∧ s.deadline = t0 + s.period

/-- 20_memory.md rules R86 to R88 and R90: the ROM image at `PROG_START`, the fonts, and 0 elsewhere. The glyphs of
the small font are `smallGlyphs`; that E and F are as rule R86 lists them, where other files of the spec read otherwise,
is the model's choice (notes/assumptions/18.md). Those of the big font are OPEN (notes/assumptions/5.md), and what an
unlisted byte reads as is the model's (notes/assumptions/6.md). -/
def Obligations.ConstructionPlacesFontsAndRom : Prop :=
  ∀ (r : SettingsRequest) (t0 : Rat) (keys : Vector Bool 16) (rom : List Byte) (s : State) (a : Nat),
    startSession r t0 keys rom = .ok s → a < memSize r.variant →
      Memory.read r.variant s.mem a =
        if (progStart r.variant).toNat ≤ a ∧ a < (progStart r.variant).toNat + rom.length then
          rom.getD (a - (progStart r.variant).toNat) 0
        else if a < 80 then (smallGlyphs.getD (a / 5) []).getD (a % 5) 0
        else if a < 240 ∧ hiresCapable r.variant = true then Config.bigFont (a - 80)
        else 0

/-- 20_memory.md rule R89, 60_exceptions.md rule R423: exactly a ROM longer than `MEM_SIZE - PROG_START` fails, and
the error records its length and the room. -/
def Obligations.ConstructionFailsExactlyOnLargeRom : Prop :=
  ∀ (r : SettingsRequest) (t0 : Rat) (keys : Vector Bool 16) (rom : List Byte),
    (memSize r.variant - (progStart r.variant).toNat < rom.length →
      startSession r t0 keys rom =
        .error (.constructionError rom.length (memSize r.variant - (progStart r.variant).toNat))) ∧
    (rom.length ≤ memSize r.variant - (progStart r.variant).toNat → ∃ s, startSession r t0 keys rom = .ok s)

/-- 10_state.md rule R46 with R45: a quirk the host does not give takes the default of the variant. -/
def Obligations.QuirksTakeVariantDefaults : Prop :=
  ∀ r : SettingsRequest,
    (resolveSettings r).quirks.vfReset = r.vfReset.getD (chip8Class r.variant) ∧
    (resolveSettings r).quirks.autoIncI = r.autoIncI.getD (chip8Class r.variant || xoClass r.variant) ∧
    (resolveSettings r).quirks.displayWait = r.displayWait.getD (chip8Class r.variant) ∧
    (resolveSettings r).quirks.wrap = r.wrap.getD (xoClass r.variant) ∧
    (resolveSettings r).quirks.shiftInPlace = r.shiftInPlace.getD (schipClass r.variant) ∧
    (resolveSettings r).quirks.jumpWithVX = r.jumpWithVX.getD (schipClass r.variant)

/-! ## Encoding -/

/-- 30_encoding.md rules R110 to R119: the decoder reads the encoding of every instruction of a variant, with every
operand at every value, as that instruction. -/
def Obligations.DecodeOfEncodingIsInstruction : Prop :=
  ∀ (v : Variant) (i : Instr) (w2 : Word), wellFormed v i = true →
    decode v i.word1 (i.word2.getD w2) = .valid i

/-- 30_encoding.md rule R120: a word that decodes is the encoding of what it decodes to, so no two instructions
share a word, and what the decoder admits is an instruction of the variant. -/
def Obligations.DecodedWordIsItsEncoding : Prop :=
  ∀ (v : Variant) (w w2 : Word) (i : Instr), decode v w w2 = .valid i →
    wellFormed v i = true ∧ i.word1 = w ∧ i.word2.getD w2 = w2

/-- 30_encoding.md rules R121, R125: a word that is no first word of an instruction of the variant is invalid on a
fully specified variant and refused on a partially specified one. -/
def Obligations.UnlistedWordsAreInvalidOrRefused : Prop :=
  ∀ (v : Variant) (w w2 : Word), (∀ i, inVariantSet v i = true → i.word1 ≠ w) →
    decode v w w2 = if partiallySpecified v then .unknownExtension else .invalid

/-- 30_encoding.md rule R119: `FX75` and `FX85` are valid for `X ≤ 7` on the SCHIP class, refused there for
`X ≥ 8`, and valid for every `X` on the XO class. -/
def Obligations.FlagRangeDecidesFlagsStorage : Prop :=
  ∀ (v : Variant) (x : RegIx) (w2 : Word),
    (schipClass v = true → x.val ≤ 7 →
      decode v (packXNN 0xF#4 x 0x75#8) w2 = .valid (.saveFlags x) ∧
      decode v (packXNN 0xF#4 x 0x85#8) w2 = .valid (.loadFlags x)) ∧
    (schipClass v = true → 8 ≤ x.val →
      decode v (packXNN 0xF#4 x 0x75#8) w2 = .flagRangeUnknown ∧
      decode v (packXNN 0xF#4 x 0x85#8) w2 = .flagRangeUnknown) ∧
    (xoClass v = true →
      decode v (packXNN 0xF#4 x 0x75#8) w2 = .valid (.saveFlags x) ∧
      decode v (packXNN 0xF#4 x 0x85#8) w2 = .valid (.loadFlags x))

/-- Words of the opcode map of 30_encoding.md section 3, one or more of each family: words of 95_test_vectors.md
sections 2, 7 and 10, and the example of 42_memory_ops.md rule R270. -/
def Obligations.SampleWordsDecode : Prop :=
  decode .chip8 0x6005 0 = .valid (.ldImm 0 0x05) ∧
  decode .chip8 0x8014 0 = .valid (.addReg 0 1) ∧
  decode .chip8 0x3008 0 = .valid (.seImm 0 0x08) ∧
  decode .chip8 0xA2F0 0 = .valid (.ldI 0x2F0) ∧
  decode .chip8 0xD125 0 = .valid (.drw 1 2 5) ∧
  decode .chip8 0xF50A 0 = .valid (.ldVxK 5) ∧
  decode .schip11 0x00C1 0 = .valid (.scd 1) ∧
  decode .schip11 0x00FD 0 = .valid .exit ∧
  decode .xochip 0xF000 0x1234 = .valid (.ldILong 0x1234) ∧
  decode .xochip 0x5AB2 0 = .valid (.saveRange 0xA 0xB) ∧
  decode .xochip 0xF301 0 = .valid (.plane 3) ∧
  decode .xochip 0xF102 0 = .invalid ∧
  decode .chip8 0x0000 0 = .invalid ∧
  decode .chip8x 0xB200 0 = .unknownExtension

/-! ## Memory -/

/-- 20_memory.md rules R81, R82: a write is read back at every address equal to its own after masking, and leaves
every other byte. -/
def Obligations.WriteIsReadBackMasked : Prop :=
  ∀ (s : State) (a a' : Addr) (b : Byte), memoryCanonical s →
    (s.write a b).read a' =
      if a'.toNat % memSize s.variant = a.toNat % memSize s.variant then b else s.read a'

/-- The memory keeps its canonical form through every step. The form and what an unlisted address reads as are the
model's (notes/assumptions/6.md). -/
def Obligations.StepKeepsMemoryCanonical : Prop :=
  ∀ s t : State, memoryCanonical s → step s = .next t → memoryCanonical t

/-! ## Invariants -/

/-- The model's choice of a session (notes/assumptions/1.md, 2.md, 11.md): the reset state is what construction
leaves for XO-CHIP with its default quirks, an empty ROM, no key held and the clock at 0; it meets every
invariant, whose forms are the model's (notes/assumptions/6.md, 7.md, 8.md, 12.md). -/
def Obligations.ResetMeetsInvariants : Prop :=
  startSession resetRequest 0 (Vector.replicate 16 false) [] = .ok State.reset ∧
    State.reset.variant = .xochip ∧ State.reset.quirks = defaultQuirks .xochip ∧
    memoryCanonical State.reset ∧ pcInBounds State.reset ∧ indexFits State.reset ∧ displayModes State.reset ∧
    pixelsInBuffer State.reset ∧ schedulerSound State.reset ∧ phaseInRange State.reset

/-- 10_state.md section 8: every session that is constructed, with a target of at least 1 (notes/assumptions/16.md),
meets every invariant. The canonical form of memory (notes/assumptions/6.md), the number that `PHASE` is
(notes/assumptions/7.md), the storage of a bitplane (notes/assumptions/8.md) and the frame loop's variables
(notes/assumptions/12.md) are the model's. -/
def Obligations.ConstructedSessionMeetsInvariants : Prop :=
  ∀ (r : SettingsRequest) (t0 : Rat) (keys : Vector Bool 16) (rom : List Byte) (s : State),
    startSession r t0 keys rom = .ok s → 1 ≤ s.settings.ipfTarget →
      memoryCanonical s ∧ pcInBounds s ∧ indexFits s ∧ displayModes s ∧ pixelsInBuffer s ∧
        schedulerSound s ∧ phaseInRange s

/-- 10_state.md rules R33, R36, R37: `PC`, the stack entries and `I` keep to their widths through every step. -/
def Obligations.StepKeepsAddressesInBounds : Prop :=
  ∀ s t : State, pcInBounds s → indexFits s → step s = .next t → pcInBounds t ∧ indexFits t

/-- 10_state.md rules R50 to R52, R55: the plane mask of a one-plane variant stays 1, the CHIP-8 class stays in
lores, the draw mode stays XOR; and no step sets a pixel outside the buffer or in a plane the variant lacks, so a
mode switch, a scroll and a draw keep to the buffer. The storage of a bitplane is the model's
(notes/assumptions/8.md). -/
def Obligations.StepKeepsDisplayInBuffer : Prop :=
  ∀ s t : State, displayModes s → step s = .next t →
    displayModes t ∧ (pixelsInBuffer s → pixelsInBuffer t)

/-- 10_state.md rules R41, R48, 70_reset_and_hazards.md rules R481, R483: the budget stays in its range, a frame in
progress has room for its next instruction, and a waiting session is between frames. The fields of the frame in
progress are the model's (notes/assumptions/12.md). -/
def Obligations.StepKeepsSchedulerSound : Prop :=
  ∀ s t : State, schedulerSound s → step s = .next t → schedulerSound t

/-- 10_state.md rule R58 (90_conflicts.md C10): `PHASE` stays in `[0, 1)`, whatever the rounding of `AUDIO_NUM`. The
number is the model's (notes/assumptions/7.md). -/
def Obligations.StepKeepsPhaseInRange : Prop :=
  ∀ s t : State, phaseInRange s → step s = .next t → phaseInRange t

/-- 10_state.md rules R44, R55: no step changes the settings, MegaChip's display state or the draw mode. -/
def Obligations.StepNeverChangesSettings : Prop :=
  ∀ s t : State, step s = .next t → t.settings = s.settings ∧ t.mega = s.mega ∧ t.dmode = s.dmode

/-! ## The step -/

/-- 30_encoding.md rule R113: when the host has no move listed and the word at `PC` decodes to `i`, the step is
`exec` of `i` on the state with `PC` advanced, followed by the frame's bookkeeping. Within a frame that state is the
present one; between frames a frame begins first, which leaves the registers, `PC` and memory. The tick that begins
it is the model's choice (notes/assumptions/3.md), and so is it that the frame's bookkeeping belongs to the same step
(notes/assumptions/12.md). The breakpoint hook is consulted once, exactly when the debug flag
is set (00_scope.md rule R28, 60_exceptions.md rule R444); that the model counts it is notes/assumptions/13.md. -/
def Obligations.StepRunsDecodedInstruction : Prop :=
  ∀ (s : State) (i : Instr), live s → s.inbox = [] → s.fetchDecode = .valid i →
    step s = (match exec i s.ready.advance with
      | .next t => t.afterInstr i s.ready
      | .fault r => .fault r
      | .refused r => .refused r) ∧
    s.ready.hookCalls = s.hookCalls + (if s.debug then 1 else 0) ∧
    (s.inFrame = true → s.run = .running → s.ready = { s with hookCalls := s.ready.hookCalls }) ∧
    s.ready.advance.pc.toNat = (s.pc.toNat + 2) % memSize s.variant ∧
    (∀ k, s.ready.advance.reg k = s.reg k) ∧ sameMemory s s.ready.advance

/-- 30_encoding.md rule R121, 60_exceptions.md rules R421, R429: an invalid word ends the session with its fault,
which records the word and its address; nothing but `PC` and `RUN` has changed. That the error is a state before the
step makes it the fault (notes/assumptions/17.md), and that a session between frames comes to fetch
(notes/assumptions/3.md), are the model's choices. -/
def Obligations.StepFaultsOnInvalidWord : Prop :=
  ∀ s : State, live s → s.inbox = [] → s.fetchDecode = .invalid →
    step s = .fault (.invalidInstruction (s.readWord s.pc) s.pc) ∧
    s.decodeError .invalid =
      { s with pc := (s.pc + 2) &&& addrMask s.variant
               run := .faulted (.invalidInstruction (s.readWord s.pc) s.pc) }

/-- 60_exceptions.md rule R425: a refused word ends the session with its refusal, never as an invalid
instruction. That a session between frames comes to fetch is the model's choice (notes/assumptions/3.md). -/
def Obligations.StepRefusesUnknownWords : Prop :=
  ∀ s : State, live s → s.inbox = [] →
    (s.fetchDecode = .unknownExtension → step s = .refused .unknownExtension) ∧
    (s.fetchDecode = .flagRangeUnknown → step s = .refused .flagRangeUnknown)

/-- 10_state.md rule R41, 00_scope.md rule R19, 43_control_flow.md rule R346: an ended session takes no step. The
fault of a halted session is the model's (notes/assumptions/17.md). -/
def Obligations.EndedSessionTakesNoStep : Prop :=
  ∀ s : State,
    (s.run = .halted → step s = .fault .sessionHalted) ∧
    (∀ r, s.run = .faulted r → step s = .fault r) ∧
    (∀ r, s.run = .refused r → step s = .refused r)

/-- 20_memory.md rules R83, R96, 30_encoding.md rule R111: an instruction stored at `PC`, byte by byte and
big-endian, is the one the next step decodes and runs, at every `PC` and across the top of memory. The helper is the
model's (notes/assumptions/2.md), and so is it that a session between frames comes to fetch (notes/assumptions/3.md). -/
def Obligations.PlacedInstructionIsFetched : Prop :=
  ∀ (s : State) (i : Instr), memoryCanonical s → wellFormed s.variant i = true →
    (s.placeWords i.word1 (i.word2.getD 0)).fetchDecode = .valid i ∧
    step (s.placeWords i.word1 (i.word2.getD 0)) =
      runInstr i (s.placeWords i.word1 (i.word2.getD 0)).ready

/-! ## Frames -/

/-- 70_reset_and_hazards.md rules R481 to R483, 60_exceptions.md rule R440: outside strict mode, within a frame whose
budget is not used up an instruction costs one slot and moves no timer; the instruction that uses up the budget, and a
draw that waits for the display whatever the budget, also ends the frame, where each timer that is not 0 drops by 1,
the sound is taken from the value of `ST` before that, the budget is updated, and the registers, memory and display
are as the instruction left them. One instruction a step and the buffer as what determines its samples are the
model's (notes/assumptions/10.md, 12.md), as are the numbers of the phase (notes/assumptions/7.md), the divisor of the
throttle (notes/assumptions/5.md) and the reading of the wall time (notes/assumptions/11.md). When a frame is strict is
the model's too: a CHIP8 session with `STRICT` set at a frame rate other than 60 is outside strict mode by a DESIGN
CHOICE (notes/assumptions/16.md). -/
def Obligations.InstructionUsesOneSlotAndFrameEnds : Prop :=
  ∀ (s t : State) (i : Instr), s.run = .running → s.inFrame = true → s.inbox = [] → s.strictMode = false →
    s.fetchDecode = .valid i → exec i s.ready.advance = .next t → t.run = .running ∨ t.run = .frameWait →
    t.gridFits t.hostGrid = true → t.pcmFits t.hostPcm = true →
      (t.run = .running → t.slots + 1 < t.ipfEff → step s = .next { t with slots := t.slots + 1 }) ∧
      (t.run = .frameWait ∨ t.ipfEff ≤ t.slots + 1 →
        ∃ u, step s = .next u ∧
          u = { t with
                slots := t.slots + 1, inFrame := false, dt := u.dt, st := u.st, phase := u.phase, pcm := u.pcm
                ipfEff := u.ipfEff } ∧
          u.dt = (if t.dt = 0 then 0 else t.dt - 1) ∧ u.st = (if t.st = 0 then 0 else t.st - 1) ∧
          soundFollowsTimer t u ∧ budgetFollowsOverrun t u)

/-- 70_reset_and_hazards.md rule R483: a draw under the quirk is the last instruction of its frame, whose timers,
sound and budget still happen, and the next step, between frames, runs in a new one. The tick that begins it is the
one the model takes the host to deliver (notes/assumptions/3.md). That the end of the frame falls in the step of the
draw is the model's choice (notes/assumptions/12.md), as are the form of the buffer (notes/assumptions/10.md), the
numbers of the phase (notes/assumptions/7.md), the divisor of the throttle (notes/assumptions/5.md) and the reading of
the wall time (notes/assumptions/11.md). In strict mode (notes/assumptions/16.md) the timers drop once for each boundary
crossed (StrictFrameCountsCycles). -/
def Obligations.DisplayWaitEndsTheFrame : Prop :=
  ∀ (s u : State) (x y : RegIx) (n : Nibble), live s → s.inbox = [] → s.quirks.displayWait = true →
    s.fetchDecode = .valid (.drw x y n) → step s = .next u →
      u.run = .frameWait ∧ u.inFrame = false ∧ soundFollowsTimer s u ∧ budgetFollowsOverrun s.ready u ∧
      (s.strictMode = false →
        u.dt = (if s.dt = 0 then 0 else s.dt - 1) ∧ u.st = (if s.st = 0 then 0 else s.st - 1)) ∧
      u.ready.run = .running ∧ u.ready.inFrame = true ∧ u.ready.slots = 0

/-- 70_reset_and_hazards.md rules R480, R490: between frames, a tick at a reading `t` of the clock begins a frame
exactly when `t` plus a millisecond reaches the deadline; the deadline then moves on by the period, unless `t` lags
behind it by more than `PACER_MAX_LAG`; a tick that is not due changes nothing. The host's other moves, in any frame
or between frames: a key written is that key and nothing else (10_state.md rule R60, 20_memory.md rule R95); a
cancellation ends the session between frames, and inside a frame it waits, as a tick does: the Processor runs its next
instruction and the move is still to come (70_reset_and_hazards.md rule R484, 60_exceptions.md rule R428); a clock
reading, the debug flag, new buffers and an audio failure (44_keys_timers_sound.md rule R393) touch nothing of the
machine; and where the host passes, the Processor runs its next instruction.
`PACER_MAX_LAG` is OPEN (notes/assumptions/5.md); the list of moves, the waiting of a move in it and the clock as
plain data are the model's (notes/assumptions/3.md, 11.md), as are the frame's variables (notes/assumptions/12.md) and
the fault `cancelled` that a cancellation answers, which is no error of the spec (notes/assumptions/17.md). -/
def Obligations.TickBeginsFrameWhenDue : Prop :=
  ∀ (s : State) (rest : List HostEvent), live s →
    (s.inFrame = false → s.inbox = .tick :: rest →
      (s.clock + 1 / 1000 < s.deadline → step s = .next { s with inbox := rest }) ∧
      (s.deadline ≤ s.clock + 1 / 1000 →
        ∃ t, step s = .next t ∧ t.run = .running ∧ t.inFrame = true ∧ t.slots = 0 ∧ t.frameCyc = s.cyc ∧
          t.frameStart = s.clock ∧
          (Config.pacerMaxLag < s.clock - (s.deadline + s.period) → t.deadline = s.clock + s.period) ∧
          (s.clock - (s.deadline + s.period) ≤ Config.pacerMaxLag → t.deadline = s.deadline + s.period) ∧
          t = { s with
                inbox := rest, run := t.run, inFrame := t.inFrame, slots := t.slots, frameCyc := t.frameCyc
                frameStart := t.frameStart, deadline := t.deadline })) ∧
    (∀ k held, s.inbox = .key k held :: rest →
      ∃ t, step s = .next t ∧ t.key k = held ∧ (∀ j, j ≠ k → t.key j = s.key j) ∧
        t = { s with keys := t.keys, inbox := rest }) ∧
    (s.inFrame = false → s.inbox = .cancel :: rest → step s = .fault .cancelled) ∧
    (s.inFrame = true → s.inbox = .cancel :: rest ∨ s.inbox = .tick :: rest →
      (∀ i, s.fetchDecode = .valid i → step s = runInstr i s.ready) ∧ ∀ t, step s = .next t → t.inbox = s.inbox) ∧
    (∀ c, s.inbox = .clock c :: rest → step s = .next { s with clock := c, inbox := rest }) ∧
    (∀ on, s.inbox = .debug on :: rest → step s = .next { s with debug := on, inbox := rest }) ∧
    (s.inbox = .audioFailure :: rest → step s = .next { s with inbox := rest }) ∧
    (∀ pcm grid, s.inbox = .buffers pcm grid :: rest →
      step s = .next { s with hostPcm := pcm, hostGrid := grid, inbox := rest }) ∧
    (∀ i, s.inbox = .idle :: rest → s.fetchDecode = .valid i → step s = runInstr i { s with inbox := rest }.ready)

/-- 10_state.md rule R48, 70_reset_and_hazards.md rules R495, R496: the end of a frame, strict or not, leaves the
budget in `[1, IPF_TARGET]`, leaves it unchanged below a target of a million, and gives the whole target after a
frame without overrun. `THROTTLE_DIVISOR` is OPEN (notes/assumptions/5.md); the wall time is the difference of two
clock readings (notes/assumptions/11.md); that a strict frame updates the budget too is DEDUCED
(notes/assumptions/16.md). -/
def Obligations.FrameEndSetsAdaptiveBudget : Prop :=
  ∀ s t : State, s.endFrame = .next t → budgetFollowsOverrun s t

/-- 70_reset_and_hazards.md rules R486, R487: in strict mode an instruction adds its cost, at least 1, to `CYC`, and
the frame goes on exactly while `CYC` is below the next multiple of 3668 and no draw waits for the display (rule
R483); at its end each timer drops once for each boundary crossed, down to 0, the sound is taken from the value of
`ST` before that, the budget is updated as in any frame (10_state.md rule R48, rule R495), and the rest is as the
instruction left it. `CYCLE_COST`, what it reads and the throttle's divisor are OPEN (notes/assumptions/5.md); when a
frame is strict, and that its end updates the budget, is in notes/assumptions/16.md; the wall time is the difference of
two clock readings (notes/assumptions/11.md). That the end of the frame falls in the step of its last instruction is
the model's choice (notes/assumptions/12.md), as are the form of the buffer (notes/assumptions/10.md) and the numbers
of the phase (notes/assumptions/7.md). -/
def Obligations.StrictFrameCountsCycles : Prop :=
  ∀ (s t : State) (i : Instr), s.run = .running → s.inFrame = true → s.inbox = [] → s.strictMode = true →
    s.fetchDecode = .valid i → exec i s.ready.advance = .next t → t.run = .running ∨ t.run = .frameWait →
    t.gridFits t.hostGrid = true → t.pcmFits t.hostPcm = true →
      ∃ u, step s = .next u ∧ s.cyc < u.cyc ∧ u.cyc = s.cyc + cycleCost i s ∧
        (u.inFrame = true ↔ t.run = .running ∧ u.cyc < (s.frameCyc / 3668 + 1) * 3668) ∧
        (u.inFrame = true → u = { t with cyc := u.cyc }) ∧
        (u.inFrame = false →
          u.dt.toNat = t.dt.toNat - (u.cyc / 3668 - s.frameCyc / 3668) ∧
          u.st.toNat = t.st.toNat - (u.cyc / 3668 - s.frameCyc / 3668) ∧
          soundFollowsTimer t u ∧ budgetFollowsOverrun t u ∧
          u = { t with
                cyc := u.cyc, inFrame := false, dt := u.dt, st := u.st, phase := u.phase, pcm := u.pcm
                ipfEff := u.ipfEff })

/-- 60_exceptions.md rule R424, 44_keys_timers_sound.md rule R392, 41_display.md rule R253: a PCM buffer or a grid of
the wrong size is an `ArgumentError` at the end of the frame, and a grid of the wrong size is one whenever the host
asks for the display; buffers of the right size are not, and asking changes nothing (41_display.md rule R252). A host
that names no size hands over the right one (notes/assumptions/14.md), its asking is one of its moves
(notes/assumptions/3.md), and an error is a state before it is the fault (notes/assumptions/17.md). -/
def Obligations.WrongBufferIsArgumentError : Prop :=
  ∀ s : State,
    (∀ n, s.hostPcm = some n → n ≠ Config.sampleRate / s.settings.frameRate →
      s.endFrame = .fault .argumentError) ∧
    (∀ g, s.hostGrid = some g → g ≠ (s.bufWidth, s.bufHeight) → s.endFrame = .fault .argumentError) ∧
    ((s.hostPcm = none ∨ s.hostPcm = some (Config.sampleRate / s.settings.frameRate)) →
      (s.hostGrid = none ∨ s.hostGrid = some (s.bufWidth, s.bufHeight)) → ∃ t, s.endFrame = .next t) ∧
    (∀ grid rest, live s → s.inbox = .render grid :: rest →
      (∀ g, grid = some g → g ≠ (s.bufWidth, s.bufHeight) →
        (s.afterRender grid).run = .faulted .argumentError ∧ step s = .fault .argumentError) ∧
      (grid = none ∨ grid = some (s.bufWidth, s.bufHeight) → step s = .next { s with inbox := rest }))

/-- 44_keys_timers_sound.md rules R385 to R391, R394, 10_state.md rule R56: a frame's buffer has
`SAMPLE_RATE div FRAME_RATE` samples; with `ST = 0` they are all 0 and `PHASE` becomes 0; with `ST > 0` sample `k` is
the amplitude exactly when bit `floor(128 * phase_k)` of `PATTERN` is set and else its negative, where `phase_0` is
`PHASE` and each next one the rounded sum of the last and the step, modulo 1, and `PHASE` becomes the one after the
last sample; so with an all-ones pattern each is the amplitude, which is positive and fits `PCM_WIDTH`; the buffer
holds them in two's complement. `SAMPLE_RATE`, `AMPLITUDE` and `PCM_WIDTH` are OPEN (notes/assumptions/5.md); where
`AUDIO_NUM` rounds is the model's choice (notes/assumptions/7.md), as is the form in which a buffer is held
(notes/assumptions/10.md). -/
def Obligations.PcmBufferFollowsSoundTimer : Prop :=
  ∀ s : State,
    s.pushSamples.pcmSamples.length = Config.sampleRate / s.settings.frameRate ∧
    (s.st = 0 → s.pushSamples.phase = 0 ∧ ∀ a ∈ s.pushSamples.pcmSamples, a = 0) ∧
    (s.st ≠ 0 → ∀ a ∈ s.pushSamples.pcmSamples, a = (Config.amplitude : Int) ∨ a = -(Config.amplitude : Int)) ∧
    (s.st ≠ 0 → (∀ k : Fin 16, s.pattern[k.val] = 0xFF) →
      ∀ a ∈ s.pushSamples.pcmSamples, a = (Config.amplitude : Int)) ∧
    (s.st ≠ 0 → ∀ k, k < Config.sampleRate / s.settings.frameRate →
      ∀ i : Fin 128, (i.val : Int) = (phaseAt (stepOf s.variant s.pitch) s.phase k * 128).floor →
        s.pushSamples.pcmSamples[k]? =
          some (if patternHas s i then (Config.amplitude : Int) else -(Config.amplitude : Int))) ∧
    (phaseInRange s → ∀ k, ∃ i : Fin 128,
      (i.val : Int) = (phaseAt (stepOf s.variant s.pitch) s.phase k * 128).floor) ∧
    soundFollowsTimer s s.pushSamples ∧ stepFollowsPitch s ∧
    0 < Config.amplitude ∧ (Config.pcmWidth = 8 ∧ Config.amplitude ≤ 127 ∨
      Config.pcmWidth = 16 ∧ Config.amplitude ≤ 32767) ∧
    s.pushSamples.pcmBuffer.map BitVec.toInt = s.pushSamples.pcmSamples

/-- 41_display.md rules R250, R253: the grid has the size of the buffer and each of its pixels is the palette entry
whose index has bit `p` set exactly when plane `p` of the variant has the pixel on; a grid of another size is an
`ArgumentError`. -/
def Obligations.CompositeShowsPlanesThroughPalette : Prop :=
  ∀ s : State,
    (∀ g, g ≠ (s.bufWidth, s.bufHeight) → s.populateRenderBuffer (some g) = .error .argumentError) ∧
    ∃ grid, s.populateRenderBuffer (some (s.bufWidth, s.bufHeight)) = .ok grid ∧
      grid.length = s.bufWidth ∧ (∀ col ∈ grid, col.length = s.bufHeight) ∧
      ∀ x y, x < s.bufWidth → y < s.bufHeight → ∃ idx : Fin 16,
        (∀ p : Fin 4, idx.val.testBit p.val = (decide (p.val < planeCount s.variant) && pixelOf s p x y)) ∧
        (grid.getD x []).getD y 0 = Config.palette s.settings.paletteId idx

/-! ## Rules over all instructions -/

/-- 60_exceptions.md rules R422, R427: every instruction answers a next state; the only errors are a call on a full
stack and a return on an empty one, and the only halt is `00FD`. That an error is a next state of `exec` is the
model's form (notes/assumptions/17.md). -/
def Obligations.OnlyStackInstructionsFault : Prop :=
  ∀ (i : Instr) (s : State), ∃ t, exec i s = .next t ∧
    (∀ r, t.run = .faulted r → s.run = .faulted r ∨
      ((∃ nnn, i = .call nnn) ∧ s.sp.val = 16 ∧ r = .stackOverflow s.instrAddr) ∨
      (i = .ret ∧ s.sp.val = 0 ∧ r = .stackUnderflow s.instrAddr)) ∧
    (∀ r, t.run = .refused r → s.run = .refused r) ∧
    (t.run = .halted → s.run = .halted ∨ i = .exit)

/-- 10_state.md rules R37, R39, R42, R52, R53, R56, R57, R60, 20_memory.md rule R98, 60_exceptions.md rule R441: each
piece of state is written by the instructions named and by no other. -/
def Obligations.OnlyNamedInstructionsWrite : Prop :=
  ∀ (i : Instr) (s t : State), exec i s = .next t →
    (t.mem ≠ s.mem → (∃ x, i = .ldB x ∨ i = .storeRegs x) ∨ ∃ x y, i = .saveRange x y) ∧
    (t.stack ≠ s.stack ∨ t.sp ≠ s.sp → i = .ret ∨ ∃ nnn, i = .call nnn) ∧
    (t.flags ≠ s.flags → ∃ x, i = .saveFlags x) ∧
    (t.keyWait ≠ s.keyWait → ∃ x, i = .ldVxK x) ∧
    (t.pmask ≠ s.pmask → ∃ n, i = .plane n) ∧
    (t.ext ≠ s.ext → i = .low ∨ i = .high) ∧
    (t.pattern ≠ s.pattern → i = .audio) ∧
    (t.pitch ≠ s.pitch → ∃ x, i = .pitch x) ∧
    (t.dt ≠ s.dt → ∃ x, i = .ldDtVx x) ∧
    (t.st ≠ s.st → ∃ x, i = .ldStVx x) ∧
    (t.i ≠ s.i → (∃ nnn, i = .ldI nnn) ∨ (∃ w, i = .ldILong w) ∨
      ∃ x, i = .addI x ∨ i = .ldF x ∨ i = .ldHF x ∨ i = .storeRegs x ∨ i = .loadRegs x) ∧
    (t.planes ≠ s.planes → i = .cls ∨ i = .low ∨ i = .high ∨ i = .scr ∨ i = .scl ∨
      (∃ n, i = .scd n ∨ i = .scu n) ∨ ∃ x y n, i = .drw x y n) ∧
    t = { s with
          v := t.v, pc := t.pc, i := t.i, stack := t.stack, sp := t.sp, dt := t.dt, st := t.st, flags := t.flags
          run := t.run, keyWait := t.keyWait, draws := t.draws, mem := t.mem, planes := t.planes, pmask := t.pmask
          ext := t.ext, pattern := t.pattern, pitch := t.pitch }

/-- 10_state.md rule R32: `VF` is written by the flag-setting instructions and by those that name register 15 as a
destination, and by no other. -/
def Obligations.VfWritersAreTheFlagInstructions : Prop :=
  ∀ (i : Instr) (s t : State), exec i s = .next t → t.reg 15 ≠ s.reg 15 →
    (∃ x y, (s.quirks.vfReset = true ∧ (i = .orReg x y ∨ i = .andReg x y ∨ i = .xorReg x y)) ∨
      i = .addReg x y ∨ i = .subReg x y ∨ i = .shr x y ∨ i = .subn x y ∨ i = .shl x y ∨ ∃ n, i = .drw x y n) ∨
    (∃ y, i = .ldReg 15 y ∨ i = .orReg 15 y ∨ i = .andReg 15 y ∨ i = .xorReg 15 y) ∨
    (∃ nn, i = .ldImm 15 nn ∨ i = .addImm 15 nn ∨ i = .rnd 15 nn) ∨
    i = .ldVxDt 15 ∨ i = .ldVxK 15 ∨ i = .loadRegs 15 ∨ i = .loadFlags 15 ∨
    ∃ x y, i = .loadRange x y ∧ (x = 15 ∨ y = 15)

/-! ## Results: registers and ALU -/

/-- 40_alu.md rules R150 to R152. -/
def Obligations.ImmediateAndCopyResults : Prop :=
  ∀ (s : State) (x y : RegIx) (nn : Byte),
    (∃ t, exec (.ldImm x nn) s = .next t ∧ t.reg x = nn ∧ onlyRegs [x] s t) ∧
    (∃ t, exec (.addImm x nn) s = .next t ∧
      (t.reg x).toNat = ((s.reg x).toNat + nn.toNat) % 256 ∧ onlyRegs [x] s t) ∧
    (∃ t, exec (.ldReg x y) s = .next t ∧ t.reg x = s.reg y ∧ onlyRegs [x] s t)

/-- 40_alu.md rules R153 to R155: the bitwise result in `V[X]`, and `VF` cleared after it exactly under the
`vfReset` quirk. -/
def Obligations.LogicResults : Prop :=
  ∀ (s : State) (x y : RegIx) (i : Instr) (r : Byte),
    (i = .orReg x y ∧ r = s.reg x ||| s.reg y) ∨ (i = .andReg x y ∧ r = s.reg x &&& s.reg y) ∨
      (i = .xorReg x y ∧ r = s.reg x ^^^ s.reg y) →
    ∃ t, exec i s = .next t ∧
      (s.quirks.vfReset = true → t.reg 15 = 0 ∧ (x ≠ 15 → t.reg x = r) ∧ onlyRegs [x, 15] s t) ∧
      (s.quirks.vfReset = false → t.reg x = r ∧ onlyRegs [x] s t)

/-- 40_alu.md rule R156, 00_scope.md rule R18: the sum modulo 256 and the carry; with `X = 0xF` the carry remains. -/
def Obligations.AddWithCarryResult : Prop :=
  ∀ (s : State) (x y : RegIx), ∃ t, exec (.addReg x y) s = .next t ∧
    (x ≠ 15 → (t.reg x).toNat = ((s.reg x).toNat + (s.reg y).toNat) % 256) ∧
    t.reg 15 = (if (s.reg x).toNat + (s.reg y).toNat > 255 then 1 else 0) ∧ onlyRegs [x, 15] s t

/-- 40_alu.md rules R157, R159: the differences modulo 256 and the no-borrow flag. -/
def Obligations.SubtractResults : Prop :=
  ∀ (s : State) (x y : RegIx),
    (∃ t, exec (.subReg x y) s = .next t ∧
      (x ≠ 15 → ((t.reg x).toNat : Int) = ((s.reg x).toNat - (s.reg y).toNat : Int) % 256) ∧
      t.reg 15 = (if (s.reg y).toNat ≤ (s.reg x).toNat then 1 else 0) ∧ onlyRegs [x, 15] s t) ∧
    (∃ t, exec (.subn x y) s = .next t ∧
      (x ≠ 15 → ((t.reg x).toNat : Int) = ((s.reg y).toNat - (s.reg x).toNat : Int) % 256) ∧
      t.reg 15 = (if (s.reg x).toNat ≤ (s.reg y).toNat then 1 else 0) ∧ onlyRegs [x, 15] s t)

/-- 40_alu.md rules R158, R161: the source is `VX` under the quirk and `VY` without it; `VF` is the bit shifted
out. -/
def Obligations.ShiftResults : Prop :=
  ∀ (s : State) (x y : RegIx) (src : Byte), src = (if s.quirks.shiftInPlace then s.reg x else s.reg y) →
    (∃ t, exec (.shr x y) s = .next t ∧ (x ≠ 15 → (t.reg x).toNat = src.toNat / 2) ∧
      (t.reg 15).toNat = src.toNat % 2 ∧ onlyRegs [x, 15] s t) ∧
    (∃ t, exec (.shl x y) s = .next t ∧ (x ≠ 15 → (t.reg x).toNat = src.toNat * 2 % 256) ∧
      (t.reg 15).toNat = src.toNat / 128 ∧ onlyRegs [x, 15] s t)

/-- 40_alu.md rule R170: the free byte of this draw masked by `NN` (notes/assumptions/4.md), so 0 for `NN = 0`; the
next draw is another one. -/
def Obligations.RandomResult : Prop :=
  ∀ (s : State) (x : RegIx) (nn : Byte), ∃ t, exec (.rnd x nn) s = .next t ∧
    t.reg x = Config.freeByte s.draws &&& nn ∧ (nn = 0 → t.reg x = 0) ∧ t.draws = s.draws + 1 ∧
    t = { s with v := t.v, draws := t.draws } ∧ (∀ k, k ≠ x → t.reg k = s.reg k) ∧ sameMemory s t

/-! ## Results: index and memory -/

/-- 42_memory_ops.md rules R270 to R274. -/
def Obligations.IndexResults : Prop :=
  ∀ (s : State) (x : RegIx) (nnn : Imm12) (nnnn : Word),
    (∃ t, exec (.ldI nnn) s = .next t ∧ t.i.toNat = nnn.toNat ∧ onlyI s t) ∧
    (∃ t, exec (.ldILong nnnn) s = .next t ∧ t.i.toNat = nnnn.toNat ∧
      t.pc.toNat = (s.pc.toNat + 2) % memSize s.variant ∧ t = { s with i := t.i, pc := t.pc } ∧ sameMemory s t) ∧
    (xoClass s.variant = true → s.readWord s.pc = 0xF000 →
      s.fetchDecode = .valid (.ldILong (s.readWord (s.pc + 2)))) ∧
    (∃ t, exec (.addI x) s = .next t ∧
      t.i.toNat = (s.i.toNat + (s.reg x).toNat) % 2 ^ iWidth s.variant ∧ onlyI s t) ∧
    (∃ t, exec (.ldF x) s = .next t ∧ t.i.toNat = 5 * ((s.reg x).toNat % 16) ∧ onlyI s t) ∧
    (∃ t, exec (.ldHF x) s = .next t ∧ t.i.toNat = 0x50 + 10 * ((s.reg x).toNat % 16) ∧ onlyI s t)

/-- 42_memory_ops.md rule R275: the three decimal digits at `I`, `I + 1`, `I + 2`, each address masked on its
own. -/
def Obligations.BcdResult : Prop :=
  ∀ (s : State) (x : RegIx), memoryCanonical s → ∃ t, exec (.ldB x) s = .next t ∧
    (t.read s.i).toNat = (s.reg x).toNat / 100 ∧
    (t.read (s.i + 1)).toNat = (s.reg x).toNat / 10 % 10 ∧
    (t.read (s.i + 2)).toNat = (s.reg x).toNat % 10 ∧ onlyStored s.i 3 s t

/-- 42_memory_ops.md rule R279: `V0..VX` at `[I .. I + X]`, and `I` moved past them exactly under the quirk. -/
def Obligations.StoreRegistersResult : Prop :=
  ∀ (s : State) (x : RegIx), memoryCanonical s → ∃ t, exec (.storeRegs x) s = .next t ∧
    (∀ k : RegIx, k ≤ x → t.read (s.i + BitVec.ofNat 24 k.val) = s.reg k) ∧
    memorySameOutside s.i (x.val + 1) s t ∧
    (s.quirks.autoIncI = true → t.i.toNat = (s.i.toNat + x.val + 1) % 2 ^ iWidth s.variant) ∧
    (s.quirks.autoIncI = false → t.i = s.i) ∧ t = { s with mem := t.mem, i := t.i }

/-- 42_memory_ops.md rule R280. -/
def Obligations.LoadRegistersResult : Prop :=
  ∀ (s : State) (x : RegIx), ∃ t, exec (.loadRegs x) s = .next t ∧
    (∀ k : RegIx, k ≤ x → t.reg k = s.read (s.i + BitVec.ofNat 24 k.val)) ∧
    (∀ k : RegIx, x < k → t.reg k = s.reg k) ∧
    (s.quirks.autoIncI = true → t.i.toNat = (s.i.toNat + x.val + 1) % 2 ^ iWidth s.variant) ∧
    (s.quirks.autoIncI = false → t.i = s.i) ∧ t = { s with v := t.v, i := t.i } ∧ sameMemory s t

/-- 42_memory_ops.md rule R285: an inclusive range at `I`, in reverse when `X > Y`; `I` stays. -/
def Obligations.SaveRangeResult : Prop :=
  ∀ (s : State) (x y : RegIx), memoryCanonical s → ∃ t, exec (.saveRange x y) s = .next t ∧
    (x ≤ y → (∀ k : RegIx, x ≤ k → k ≤ y → t.read (s.i + BitVec.ofNat 24 (k.val - x.val)) = s.reg k) ∧
      onlyStored s.i (y.val - x.val + 1) s t) ∧
    (y < x → (∀ k : RegIx, y ≤ k → k ≤ x → t.read (s.i + BitVec.ofNat 24 (x.val - k.val)) = s.reg k) ∧
      onlyStored s.i (x.val - y.val + 1) s t)

/-- 42_memory_ops.md rule R286. -/
def Obligations.LoadRangeResult : Prop :=
  ∀ (s : State) (x y : RegIx), ∃ t, exec (.loadRange x y) s = .next t ∧
    (x ≤ y → ∀ k : RegIx, x ≤ k → k ≤ y → t.reg k = s.read (s.i + BitVec.ofNat 24 (k.val - x.val))) ∧
    (y < x → ∀ k : RegIx, y ≤ k → k ≤ x → t.reg k = s.read (s.i + BitVec.ofNat 24 (x.val - k.val))) ∧
    (∀ k : RegIx, (k < x ∧ k < y) ∨ (x < k ∧ y < k) → t.reg k = s.reg k) ∧
    t = { s with v := t.v } ∧ sameMemory s t

/-- 42_memory_ops.md rules R287, R288: the flags storage takes `V0..VX` and gives them back; memory and `I` stay. -/
def Obligations.FlagsStorageResults : Prop :=
  ∀ (s : State) (x : RegIx),
    (∃ t, exec (.saveFlags x) s = .next t ∧ (∀ k : RegIx, k ≤ x → t.flags[k.val] = s.reg k) ∧
      (∀ k : RegIx, x < k → t.flags[k.val] = s.flags[k.val]) ∧ t = { s with flags := t.flags } ∧
      sameMemory s t) ∧
    (∃ t, exec (.loadFlags x) s = .next t ∧ (∀ k : RegIx, k ≤ x → t.reg k = s.flags[k.val]) ∧
      (∀ k : RegIx, x < k → t.reg k = s.reg k) ∧ t = { s with v := t.v } ∧ sameMemory s t)

/-! ## Results: control flow -/

/-- 43_control_flow.md rules R320, R324. -/
def Obligations.JumpResults : Prop :=
  ∀ (s : State) (nnn : Imm12),
    (∃ t, exec (.jp nnn) s = .next t ∧ t.pc.toNat = nnn.toNat ∧ onlyPc s t) ∧
    (∃ t, exec (.jpOffset nnn) s = .next t ∧
      t.pc.toNat = (nnn.toNat + (if s.quirks.jumpWithVX then s.reg (Fin.ofNat 16 (nnn.toNat / 256))
        else s.reg 0).toNat) % memSize s.variant ∧ onlyPc s t)

/-- 43_control_flow.md rules R321, R322: a call pushes the advanced `PC` and goes to `NNN`; a return pops, and the
entry keeps its value; a call into a return comes back. -/
def Obligations.CallAndReturnResults : Prop :=
  ∀ (s : State) (nnn : Imm12),
    (∀ h : s.sp.val < 16, ∃ t, exec (.call nnn) s = .next t ∧ t.stack[s.sp.val] = s.pc ∧
      (∀ k : Fin 16, k.val ≠ s.sp.val → t.stack[k.val] = s.stack[k.val]) ∧ t.sp.val = s.sp.val + 1 ∧
      t.pc.toNat = nnn.toNat ∧ t = { s with stack := t.stack, sp := t.sp, pc := t.pc } ∧ sameMemory s t) ∧
    (∀ k : Fin 16, s.sp.val = k.val + 1 → ∃ t, exec .ret s = .next t ∧ t.sp.val = k.val ∧
      t.pc.toNat = s.stack[k.val].toNat % memSize s.variant ∧ t = { s with sp := t.sp, pc := t.pc } ∧
      sameMemory s t) ∧
    (s.sp.val < 16 → s.pc.toNat < memSize s.variant →
      ∃ t u, exec (.call nnn) s = .next t ∧ exec .ret t = .next u ∧ u.pc = s.pc ∧ u.sp = s.sp)

/-- 60_exceptions.md rules R420, R422: a call on a full stack and a return on an empty one write nothing but `RUN`,
and record the address of the instruction; the step that runs one ends with the fault that records the address it was
fetched from. That the error is a next state of `exec` (notes/assumptions/17.md), and that a session between frames
comes to fetch (notes/assumptions/3.md), are the model's choices. -/
def Obligations.StackErrorsWriteNothingAndFault : Prop :=
  ∀ (s : State) (nnn : Imm12),
    (s.sp.val = 16 → exec (.call nnn) s =
      .next { s with run := .faulted (.stackOverflow ((s.pc - 2) &&& addrMask s.variant)) }) ∧
    (s.sp.val = 0 → exec .ret s =
      .next { s with run := .faulted (.stackUnderflow ((s.pc - 2) &&& addrMask s.variant)) }) ∧
    (live s → s.inbox = [] → s.pc.toNat < memSize s.variant →
      (s.fetchDecode = .valid (.call nnn) → s.sp.val = 16 → step s = .fault (.stackOverflow s.pc)) ∧
      (s.fetchDecode = .valid .ret → s.sp.val = 0 → step s = .fault (.stackUnderflow s.pc)))

/-- 43_control_flow.md rules R329 to R336. -/
def Obligations.SkipResults : Prop :=
  ∀ (s : State) (x y : RegIx) (nn : Byte),
    (∃ t, exec (.seImm x nn) s = .next t ∧ skipsWhen (s.reg x = nn) s t) ∧
    (∃ t, exec (.sneImm x nn) s = .next t ∧ skipsWhen (s.reg x ≠ nn) s t) ∧
    (∃ t, exec (.seReg x y) s = .next t ∧ skipsWhen (s.reg x = s.reg y) s t) ∧
    (∃ t, exec (.sneReg x y) s = .next t ∧ skipsWhen (s.reg x ≠ s.reg y) s t) ∧
    (∃ t, exec (.skp x) s = .next t ∧ skipsWhen (s.keys[(s.reg x).toNat % 16] = true) s t) ∧
    (∃ t, exec (.sknp x) s = .next t ∧ skipsWhen (s.keys[(s.reg x).toNat % 16] = false) s t)

/-- 43_control_flow.md rules R345, R346: `00FD` sets `RUN` and changes nothing else, the step that runs it ends with
that state, and the session takes no further step. The outcome Halt is the model's next state with `RUN = Halted`
(notes/assumptions/17.md), and that a session between frames comes to fetch is its choice (notes/assumptions/3.md). -/
def Obligations.ExitHaltsTheSession : Prop :=
  ∀ s : State, exec .exit s = .next { s with run := .halted } ∧
    (live s → s.inbox = [] → s.fetchDecode = .valid .exit → ∃ t, step s = .next t ∧ t.run = .halted ∧
      t.pc.toNat = (s.pc.toNat + 2) % memSize s.variant ∧ t.dt = s.dt ∧ t.st = s.st ∧ t.planes = s.planes ∧
      t.pattern = s.pattern ∧ t.phase = s.phase ∧ (∀ k, t.reg k = s.reg k) ∧ sameMemory s t ∧
      step t = .fault .sessionHalted)

/-! ## Results: display -/

/-- 41_display.md rule R219: the selected planes are cleared and no other. -/
def Obligations.ClearResult : Prop :=
  ∀ s : State, ∃ t, exec .cls s = .next t ∧
    (∀ p x y, pixelOf t p x y = (!s.selected p && pixelOf s p x y)) ∧ onlyPlanes s t

/-- 41_display.md rules R220 to R224: each selected plane is shifted within the buffer with zero fill; an
unselected one stays. -/
def Obligations.ScrollResults : Prop :=
  ∀ (s : State) (n : Nibble),
    (∃ t, exec (.scd n) s = .next t ∧ onlyPlanes s t ∧ ∀ p x y, x < s.bufWidth → y < s.bufHeight →
      pixelOf t p x y = if s.selected p then (decide (n.toNat ≤ y) && pixelOf s p x (y - n.toNat))
        else pixelOf s p x y) ∧
    (∃ t, exec (.scu n) s = .next t ∧ onlyPlanes s t ∧ ∀ p x y, x < s.bufWidth → y < s.bufHeight →
      pixelOf t p x y = if s.selected p then
        (decide (y + n.toNat < s.bufHeight) && pixelOf s p x (y + n.toNat)) else pixelOf s p x y) ∧
    (∃ t, exec .scr s = .next t ∧ onlyPlanes s t ∧ ∀ p x y, x < s.bufWidth → y < s.bufHeight →
      pixelOf t p x y = if s.selected p then (decide (4 ≤ x) && pixelOf s p (x - 4) y) else pixelOf s p x y) ∧
    (∃ t, exec .scl s = .next t ∧ onlyPlanes s t ∧ ∀ p x y, x < s.bufWidth → y < s.bufHeight →
      pixelOf t p x y = if s.selected p then (decide (x + 4 < s.bufWidth) && pixelOf s p (x + 4) y)
        else pixelOf s p x y)

/-- 41_display.md rules R226 to R228, R230: a mode switch sets `EXT` and clears every plane, but on legacy SCHIP it
clears none; the buffer then has the size of the new mode; `FN01` sets the plane mask. -/
def Obligations.ModeAndPlaneResults : Prop :=
  ∀ (s : State) (n : Nibble) (i : Instr) (e : Bool), (i = .low ∧ e = false) ∨ (i = .high ∧ e = true) →
    (∃ t, exec i s = .next t ∧ t.ext = e ∧
      (∀ p x y, pixelOf t p x y = (legacySchip s.variant && pixelOf s p x y)) ∧
      (legacySchip s.variant = false →
        t.bufWidth = (if e then 128 else 64) ∧ t.bufHeight = (if e then 64 else 32)) ∧
      (legacySchip s.variant = true → t.bufWidth = 128 ∧ t.bufHeight = 64 ∧ t.planes = s.planes) ∧
      t = { s with ext := t.ext, planes := t.planes } ∧ sameMemory s t) ∧
    (∃ t, exec (.plane n) s = .next t ∧ t.pmask = n ∧ t = { s with pmask := t.pmask } ∧ sameMemory s t)

/-- 41_display.md rules R200 to R207, R209, R210: a draw takes its origin modulo the resolution, its geometry and the
doubling of its pixels as the spec gives them, and flips exactly the buffer pixels its sprite covers in the
selected planes, each plane from its own slice; where rows are not counted `VF` says whether a covered pixel was
on; `RUN` becomes `FrameWait` exactly under the quirk; nothing else changes. -/
def Obligations.DrawFlipsCoveredPixels : Prop :=
  ∀ (s : State) (x y : RegIx) (n : Nibble) (d : DrawSetup), s.dmode = .xor → d = s.drawSetup x y n →
    drawGeometry s x y n d ∧ ∃ t, exec (.drw x y n) s = .next t ∧
      (∀ p bx py, bx < 128 → py < 64 → spriteCovers s d p bx py → pixelOf t p bx py = !pixelOf s p bx py) ∧
      (∀ p bx py, ¬spriteCovers s d p bx py → pixelOf t p bx py = pixelOf s p bx py) ∧
      (s.countsRows = false →
        ((∃ p bx py, spriteCovers s d p bx py ∧ pixelOf s p bx py = true) → t.reg 15 = 1) ∧
        ((∀ p bx py, spriteCovers s d p bx py → pixelOf s p bx py = false) → t.reg 15 = 0)) ∧
      t.run = (if s.quirks.displayWait then .frameWait else s.run) ∧
      t = { s with v := t.v, planes := t.planes, run := t.run } ∧
      (∀ k, k ≠ 15 → t.reg k = s.reg k) ∧ sameMemory s t

/-- 41_display.md rules R204, R208, R210: on legacy SCHIP in extended mode `VF` counts the rows past the bottom and
the rows on the screen that flip a pixel off. -/
def Obligations.LegacyDrawCountsRows : Prop :=
  ∀ (s : State) (x y : RegIx) (n : Nibble) (d : DrawSetup) (colliding : List Nat), displayModes s →
    s.countsRows = true → d = s.drawSetup x y n → colliding.Nodup →
    (∀ r, r ∈ colliding ↔ r < d.rows ∧
      (d.h ≤ d.y0 + r ∨ ∃ bx py, rowCovers s d 0 r bx py ∧ pixelOf s 0 bx py = true)) →
      drawGeometry s x y n d ∧ ∃ t, exec (.drw x y n) s = .next t ∧ (t.reg 15).toNat = colliding.length

/-- 41_display.md rules R212, R213: the same sprite drawn twice at the same origin restores every pixel; on a clean
screen, where rows are not counted and the sprite covers a pixel, the first draw reports no collision and the second
reports one. -/
def Obligations.DrawTwiceRestoresPlanes : Prop :=
  ∀ (s t u : State) (x y : RegIx) (n : Nibble), s.dmode = .xor → x ≠ 15 → y ≠ 15 →
    exec (.drw x y n) s = .next t → exec (.drw x y n) t = .next u →
      drawGeometry s x y n (s.drawSetup x y n) ∧
      (∀ p bx py, bx < 128 → py < 64 → pixelOf u p bx py = pixelOf s p bx py) ∧
      (s.countsRows = false → (∀ p bx py, pixelOf s p bx py = false) →
        (∃ p bx py, spriteCovers s (s.drawSetup x y n) p bx py) → t.reg 15 = 0 ∧ u.reg 15 = 1)

/-! ## Results: keys, timers, sound -/

/-- 44_keys_timers_sound.md rules R370 to R372, R381, R382. -/
def Obligations.TimerAndSoundResults : Prop :=
  ∀ (s : State) (x : RegIx),
    (∃ t, exec (.ldVxDt x) s = .next t ∧ t.reg x = s.dt ∧ onlyRegs [x] s t) ∧
    (∃ t, exec (.ldDtVx x) s = .next t ∧ t.dt = s.reg x ∧ t = { s with dt := t.dt } ∧ sameMemory s t) ∧
    (∃ t, exec (.ldStVx x) s = .next t ∧ t.st = s.reg x ∧ t = { s with st := t.st } ∧ sameMemory s t) ∧
    (∃ t, exec .audio s = .next t ∧ (∀ k : Fin 16, t.pattern[k.val] = s.read (s.i + BitVec.ofNat 24 k.val)) ∧
      t = { s with pattern := t.pattern } ∧ sameMemory s t) ∧
    (∃ t, exec (.pitch x) s = .next t ∧ t.pitch = s.reg x ∧ t = { s with pitch := t.pitch } ∧ sameMemory s t)

/-- 44_keys_timers_sound.md rules R376 to R379: idle with no key held, and awaiting a key still held, the
instruction stalls at its own address; idle with keys held it also latches the lowest of them; the latched key
released, it delivers its code, whatever other keys are held, and goes on. -/
def Obligations.GetKeyResults : Prop :=
  ∀ (s : State) (x : RegIx),
    (s.keyWait = .idle → (∀ k, s.key k = false) → ∃ t, exec (.ldVxK x) s = .next t ∧
      t.pc = (s.pc - 2) &&& addrMask s.variant ∧ onlyPc s t) ∧
    (∀ k, s.keyWait = .idle → s.key k = true → (∀ j, j < k → s.key j = false) →
      ∃ t, exec (.ldVxK x) s = .next t ∧ t.keyWait = .awaiting k ∧ t.pc = (s.pc - 2) &&& addrMask s.variant ∧
        t = { s with pc := t.pc, keyWait := t.keyWait } ∧ sameMemory s t) ∧
    (∀ k, s.keyWait = .awaiting k → s.key k = true → ∃ t, exec (.ldVxK x) s = .next t ∧
      t.pc = (s.pc - 2) &&& addrMask s.variant ∧ onlyPc s t) ∧
    (∀ k, s.keyWait = .awaiting k → s.key k = false → ∃ t, exec (.ldVxK x) s = .next t ∧
      (t.reg x).toNat = k.val ∧ t.keyWait = .idle ∧ t = { s with v := t.v, keyWait := t.keyWait } ∧
      (∀ j, j ≠ x → t.reg j = s.reg j) ∧ sameMemory s t)
end

