-- ==== Sys2Proof/Laws/State.lean ====
section
/-!
SUPPORT. One lemma per field per update of the state, each true by unfolding that update once, so that no later
proof unfolds a record update.
-/

namespace Sys2Proof.Machine

variable (s : State)

/-! ## `setReg` -/

@[simp] theorem State.setReg_settings (x : RegIx) (b : Byte) : (s.setReg x b).settings = s.settings := rfl
@[simp] theorem State.setReg_v (x : RegIx) (b : Byte) : (s.setReg x b).v = s.v.set x.val b := rfl
@[simp] theorem State.setReg_pc (x : RegIx) (b : Byte) : (s.setReg x b).pc = s.pc := rfl
@[simp] theorem State.setReg_i (x : RegIx) (b : Byte) : (s.setReg x b).i = s.i := rfl
@[simp] theorem State.setReg_stack (x : RegIx) (b : Byte) : (s.setReg x b).stack = s.stack := rfl
@[simp] theorem State.setReg_sp (x : RegIx) (b : Byte) : (s.setReg x b).sp = s.sp := rfl
@[simp] theorem State.setReg_dt (x : RegIx) (b : Byte) : (s.setReg x b).dt = s.dt := rfl
@[simp] theorem State.setReg_st (x : RegIx) (b : Byte) : (s.setReg x b).st = s.st := rfl
@[simp] theorem State.setReg_flags (x : RegIx) (b : Byte) : (s.setReg x b).flags = s.flags := rfl
@[simp] theorem State.setReg_run (x : RegIx) (b : Byte) : (s.setReg x b).run = s.run := rfl
@[simp] theorem State.setReg_keyWait (x : RegIx) (b : Byte) : (s.setReg x b).keyWait = s.keyWait := rfl
@[simp] theorem State.setReg_ipfEff (x : RegIx) (b : Byte) : (s.setReg x b).ipfEff = s.ipfEff := rfl
@[simp] theorem State.setReg_cyc (x : RegIx) (b : Byte) : (s.setReg x b).cyc = s.cyc := rfl
@[simp] theorem State.setReg_draws (x : RegIx) (b : Byte) : (s.setReg x b).draws = s.draws := rfl
@[simp] theorem State.setReg_mem (x : RegIx) (b : Byte) : (s.setReg x b).mem = s.mem := rfl
@[simp] theorem State.setReg_planes (x : RegIx) (b : Byte) : (s.setReg x b).planes = s.planes := rfl
@[simp] theorem State.setReg_pmask (x : RegIx) (b : Byte) : (s.setReg x b).pmask = s.pmask := rfl
@[simp] theorem State.setReg_ext (x : RegIx) (b : Byte) : (s.setReg x b).ext = s.ext := rfl
@[simp] theorem State.setReg_dmode (x : RegIx) (b : Byte) : (s.setReg x b).dmode = s.dmode := rfl
@[simp] theorem State.setReg_mega (x : RegIx) (b : Byte) : (s.setReg x b).mega = s.mega := rfl
@[simp] theorem State.setReg_pattern (x : RegIx) (b : Byte) : (s.setReg x b).pattern = s.pattern := rfl
@[simp] theorem State.setReg_pitch (x : RegIx) (b : Byte) : (s.setReg x b).pitch = s.pitch := rfl
@[simp] theorem State.setReg_phase (x : RegIx) (b : Byte) : (s.setReg x b).phase = s.phase := rfl
@[simp] theorem State.setReg_pcm (x : RegIx) (b : Byte) : (s.setReg x b).pcm = s.pcm := rfl
@[simp] theorem State.setReg_keys (x : RegIx) (b : Byte) : (s.setReg x b).keys = s.keys := rfl
@[simp] theorem State.setReg_deadline (x : RegIx) (b : Byte) : (s.setReg x b).deadline = s.deadline := rfl
@[simp] theorem State.setReg_clock (x : RegIx) (b : Byte) : (s.setReg x b).clock = s.clock := rfl
@[simp] theorem State.setReg_frameStart (x : RegIx) (b : Byte) : (s.setReg x b).frameStart = s.frameStart := rfl
@[simp] theorem State.setReg_inFrame (x : RegIx) (b : Byte) : (s.setReg x b).inFrame = s.inFrame := rfl
@[simp] theorem State.setReg_slots (x : RegIx) (b : Byte) : (s.setReg x b).slots = s.slots := rfl
@[simp] theorem State.setReg_frameCyc (x : RegIx) (b : Byte) : (s.setReg x b).frameCyc = s.frameCyc := rfl
@[simp] theorem State.setReg_debug (x : RegIx) (b : Byte) : (s.setReg x b).debug = s.debug := rfl
@[simp] theorem State.setReg_hookCalls (x : RegIx) (b : Byte) : (s.setReg x b).hookCalls = s.hookCalls := rfl
@[simp] theorem State.setReg_hostPcm (x : RegIx) (b : Byte) : (s.setReg x b).hostPcm = s.hostPcm := rfl
@[simp] theorem State.setReg_hostGrid (x : RegIx) (b : Byte) : (s.setReg x b).hostGrid = s.hostGrid := rfl
@[simp] theorem State.setReg_inbox (x : RegIx) (b : Byte) : (s.setReg x b).inbox = s.inbox := rfl
@[simp] theorem State.setReg_variant (x : RegIx) (b : Byte) : (s.setReg x b).variant = s.variant := rfl
@[simp] theorem State.setReg_quirks (x : RegIx) (b : Byte) : (s.setReg x b).quirks = s.quirks := rfl

/-! ## `setPc` -/

@[simp] theorem State.setPc_settings (t : Addr) : (s.setPc t).settings = s.settings := rfl
@[simp] theorem State.setPc_v (t : Addr) : (s.setPc t).v = s.v := rfl
@[simp] theorem State.setPc_pc (t : Addr) : (s.setPc t).pc = t &&& addrMask s.variant := rfl
@[simp] theorem State.setPc_i (t : Addr) : (s.setPc t).i = s.i := rfl
@[simp] theorem State.setPc_stack (t : Addr) : (s.setPc t).stack = s.stack := rfl
@[simp] theorem State.setPc_sp (t : Addr) : (s.setPc t).sp = s.sp := rfl
@[simp] theorem State.setPc_dt (t : Addr) : (s.setPc t).dt = s.dt := rfl
@[simp] theorem State.setPc_st (t : Addr) : (s.setPc t).st = s.st := rfl
@[simp] theorem State.setPc_flags (t : Addr) : (s.setPc t).flags = s.flags := rfl
@[simp] theorem State.setPc_run (t : Addr) : (s.setPc t).run = s.run := rfl
@[simp] theorem State.setPc_keyWait (t : Addr) : (s.setPc t).keyWait = s.keyWait := rfl
@[simp] theorem State.setPc_ipfEff (t : Addr) : (s.setPc t).ipfEff = s.ipfEff := rfl
@[simp] theorem State.setPc_cyc (t : Addr) : (s.setPc t).cyc = s.cyc := rfl
@[simp] theorem State.setPc_draws (t : Addr) : (s.setPc t).draws = s.draws := rfl
@[simp] theorem State.setPc_mem (t : Addr) : (s.setPc t).mem = s.mem := rfl
@[simp] theorem State.setPc_planes (t : Addr) : (s.setPc t).planes = s.planes := rfl
@[simp] theorem State.setPc_pmask (t : Addr) : (s.setPc t).pmask = s.pmask := rfl
@[simp] theorem State.setPc_ext (t : Addr) : (s.setPc t).ext = s.ext := rfl
@[simp] theorem State.setPc_dmode (t : Addr) : (s.setPc t).dmode = s.dmode := rfl
@[simp] theorem State.setPc_mega (t : Addr) : (s.setPc t).mega = s.mega := rfl
@[simp] theorem State.setPc_pattern (t : Addr) : (s.setPc t).pattern = s.pattern := rfl
@[simp] theorem State.setPc_pitch (t : Addr) : (s.setPc t).pitch = s.pitch := rfl
@[simp] theorem State.setPc_phase (t : Addr) : (s.setPc t).phase = s.phase := rfl
@[simp] theorem State.setPc_pcm (t : Addr) : (s.setPc t).pcm = s.pcm := rfl
@[simp] theorem State.setPc_keys (t : Addr) : (s.setPc t).keys = s.keys := rfl
@[simp] theorem State.setPc_deadline (t : Addr) : (s.setPc t).deadline = s.deadline := rfl
@[simp] theorem State.setPc_clock (t : Addr) : (s.setPc t).clock = s.clock := rfl
@[simp] theorem State.setPc_frameStart (t : Addr) : (s.setPc t).frameStart = s.frameStart := rfl
@[simp] theorem State.setPc_inFrame (t : Addr) : (s.setPc t).inFrame = s.inFrame := rfl
@[simp] theorem State.setPc_slots (t : Addr) : (s.setPc t).slots = s.slots := rfl
@[simp] theorem State.setPc_frameCyc (t : Addr) : (s.setPc t).frameCyc = s.frameCyc := rfl
@[simp] theorem State.setPc_debug (t : Addr) : (s.setPc t).debug = s.debug := rfl
@[simp] theorem State.setPc_hookCalls (t : Addr) : (s.setPc t).hookCalls = s.hookCalls := rfl
@[simp] theorem State.setPc_hostPcm (t : Addr) : (s.setPc t).hostPcm = s.hostPcm := rfl
@[simp] theorem State.setPc_hostGrid (t : Addr) : (s.setPc t).hostGrid = s.hostGrid := rfl
@[simp] theorem State.setPc_inbox (t : Addr) : (s.setPc t).inbox = s.inbox := rfl
@[simp] theorem State.setPc_variant (t : Addr) : (s.setPc t).variant = s.variant := rfl
@[simp] theorem State.setPc_quirks (t : Addr) : (s.setPc t).quirks = s.quirks := rfl

/-! ## `setI` -/

@[simp] theorem State.setI_settings (t : Addr) : (s.setI t).settings = s.settings := rfl
@[simp] theorem State.setI_v (t : Addr) : (s.setI t).v = s.v := rfl
@[simp] theorem State.setI_pc (t : Addr) : (s.setI t).pc = s.pc := rfl
@[simp] theorem State.setI_i (t : Addr) : (s.setI t).i = t &&& iMask s.variant := rfl
@[simp] theorem State.setI_stack (t : Addr) : (s.setI t).stack = s.stack := rfl
@[simp] theorem State.setI_sp (t : Addr) : (s.setI t).sp = s.sp := rfl
@[simp] theorem State.setI_dt (t : Addr) : (s.setI t).dt = s.dt := rfl
@[simp] theorem State.setI_st (t : Addr) : (s.setI t).st = s.st := rfl
@[simp] theorem State.setI_flags (t : Addr) : (s.setI t).flags = s.flags := rfl
@[simp] theorem State.setI_run (t : Addr) : (s.setI t).run = s.run := rfl
@[simp] theorem State.setI_keyWait (t : Addr) : (s.setI t).keyWait = s.keyWait := rfl
@[simp] theorem State.setI_ipfEff (t : Addr) : (s.setI t).ipfEff = s.ipfEff := rfl
@[simp] theorem State.setI_cyc (t : Addr) : (s.setI t).cyc = s.cyc := rfl
@[simp] theorem State.setI_draws (t : Addr) : (s.setI t).draws = s.draws := rfl
@[simp] theorem State.setI_mem (t : Addr) : (s.setI t).mem = s.mem := rfl
@[simp] theorem State.setI_planes (t : Addr) : (s.setI t).planes = s.planes := rfl
@[simp] theorem State.setI_pmask (t : Addr) : (s.setI t).pmask = s.pmask := rfl
@[simp] theorem State.setI_ext (t : Addr) : (s.setI t).ext = s.ext := rfl
@[simp] theorem State.setI_dmode (t : Addr) : (s.setI t).dmode = s.dmode := rfl
@[simp] theorem State.setI_mega (t : Addr) : (s.setI t).mega = s.mega := rfl
@[simp] theorem State.setI_pattern (t : Addr) : (s.setI t).pattern = s.pattern := rfl
@[simp] theorem State.setI_pitch (t : Addr) : (s.setI t).pitch = s.pitch := rfl
@[simp] theorem State.setI_phase (t : Addr) : (s.setI t).phase = s.phase := rfl
@[simp] theorem State.setI_pcm (t : Addr) : (s.setI t).pcm = s.pcm := rfl
@[simp] theorem State.setI_keys (t : Addr) : (s.setI t).keys = s.keys := rfl
@[simp] theorem State.setI_deadline (t : Addr) : (s.setI t).deadline = s.deadline := rfl
@[simp] theorem State.setI_clock (t : Addr) : (s.setI t).clock = s.clock := rfl
@[simp] theorem State.setI_frameStart (t : Addr) : (s.setI t).frameStart = s.frameStart := rfl
@[simp] theorem State.setI_inFrame (t : Addr) : (s.setI t).inFrame = s.inFrame := rfl
@[simp] theorem State.setI_slots (t : Addr) : (s.setI t).slots = s.slots := rfl
@[simp] theorem State.setI_frameCyc (t : Addr) : (s.setI t).frameCyc = s.frameCyc := rfl
@[simp] theorem State.setI_debug (t : Addr) : (s.setI t).debug = s.debug := rfl
@[simp] theorem State.setI_hookCalls (t : Addr) : (s.setI t).hookCalls = s.hookCalls := rfl
@[simp] theorem State.setI_hostPcm (t : Addr) : (s.setI t).hostPcm = s.hostPcm := rfl
@[simp] theorem State.setI_hostGrid (t : Addr) : (s.setI t).hostGrid = s.hostGrid := rfl
@[simp] theorem State.setI_inbox (t : Addr) : (s.setI t).inbox = s.inbox := rfl
@[simp] theorem State.setI_variant (t : Addr) : (s.setI t).variant = s.variant := rfl
@[simp] theorem State.setI_quirks (t : Addr) : (s.setI t).quirks = s.quirks := rfl

/-! ## `write` -/

@[simp] theorem State.write_settings (a : Addr) (b : Byte) : (s.write a b).settings = s.settings := rfl
@[simp] theorem State.write_v (a : Addr) (b : Byte) : (s.write a b).v = s.v := rfl
@[simp] theorem State.write_pc (a : Addr) (b : Byte) : (s.write a b).pc = s.pc := rfl
@[simp] theorem State.write_i (a : Addr) (b : Byte) : (s.write a b).i = s.i := rfl
@[simp] theorem State.write_stack (a : Addr) (b : Byte) : (s.write a b).stack = s.stack := rfl
@[simp] theorem State.write_sp (a : Addr) (b : Byte) : (s.write a b).sp = s.sp := rfl
@[simp] theorem State.write_dt (a : Addr) (b : Byte) : (s.write a b).dt = s.dt := rfl
@[simp] theorem State.write_st (a : Addr) (b : Byte) : (s.write a b).st = s.st := rfl
@[simp] theorem State.write_flags (a : Addr) (b : Byte) : (s.write a b).flags = s.flags := rfl
@[simp] theorem State.write_run (a : Addr) (b : Byte) : (s.write a b).run = s.run := rfl
@[simp] theorem State.write_keyWait (a : Addr) (b : Byte) : (s.write a b).keyWait = s.keyWait := rfl
@[simp] theorem State.write_ipfEff (a : Addr) (b : Byte) : (s.write a b).ipfEff = s.ipfEff := rfl
@[simp] theorem State.write_cyc (a : Addr) (b : Byte) : (s.write a b).cyc = s.cyc := rfl
@[simp] theorem State.write_draws (a : Addr) (b : Byte) : (s.write a b).draws = s.draws := rfl
@[simp] theorem State.write_mem (a : Addr) (b : Byte) : (s.write a b).mem = Memory.write s.variant s.mem (busIndex s.variant a) b := rfl
@[simp] theorem State.write_planes (a : Addr) (b : Byte) : (s.write a b).planes = s.planes := rfl
@[simp] theorem State.write_pmask (a : Addr) (b : Byte) : (s.write a b).pmask = s.pmask := rfl
@[simp] theorem State.write_ext (a : Addr) (b : Byte) : (s.write a b).ext = s.ext := rfl
@[simp] theorem State.write_dmode (a : Addr) (b : Byte) : (s.write a b).dmode = s.dmode := rfl
@[simp] theorem State.write_mega (a : Addr) (b : Byte) : (s.write a b).mega = s.mega := rfl
@[simp] theorem State.write_pattern (a : Addr) (b : Byte) : (s.write a b).pattern = s.pattern := rfl
@[simp] theorem State.write_pitch (a : Addr) (b : Byte) : (s.write a b).pitch = s.pitch := rfl
@[simp] theorem State.write_phase (a : Addr) (b : Byte) : (s.write a b).phase = s.phase := rfl
@[simp] theorem State.write_pcm (a : Addr) (b : Byte) : (s.write a b).pcm = s.pcm := rfl
@[simp] theorem State.write_keys (a : Addr) (b : Byte) : (s.write a b).keys = s.keys := rfl
@[simp] theorem State.write_deadline (a : Addr) (b : Byte) : (s.write a b).deadline = s.deadline := rfl
@[simp] theorem State.write_clock (a : Addr) (b : Byte) : (s.write a b).clock = s.clock := rfl
@[simp] theorem State.write_frameStart (a : Addr) (b : Byte) : (s.write a b).frameStart = s.frameStart := rfl
@[simp] theorem State.write_inFrame (a : Addr) (b : Byte) : (s.write a b).inFrame = s.inFrame := rfl
@[simp] theorem State.write_slots (a : Addr) (b : Byte) : (s.write a b).slots = s.slots := rfl
@[simp] theorem State.write_frameCyc (a : Addr) (b : Byte) : (s.write a b).frameCyc = s.frameCyc := rfl
@[simp] theorem State.write_debug (a : Addr) (b : Byte) : (s.write a b).debug = s.debug := rfl
@[simp] theorem State.write_hookCalls (a : Addr) (b : Byte) : (s.write a b).hookCalls = s.hookCalls := rfl
@[simp] theorem State.write_hostPcm (a : Addr) (b : Byte) : (s.write a b).hostPcm = s.hostPcm := rfl
@[simp] theorem State.write_hostGrid (a : Addr) (b : Byte) : (s.write a b).hostGrid = s.hostGrid := rfl
@[simp] theorem State.write_inbox (a : Addr) (b : Byte) : (s.write a b).inbox = s.inbox := rfl
@[simp] theorem State.write_variant (a : Addr) (b : Byte) : (s.write a b).variant = s.variant := rfl
@[simp] theorem State.write_quirks (a : Addr) (b : Byte) : (s.write a b).quirks = s.quirks := rfl

/-! ## `raise` -/

@[simp] theorem State.raise_settings (r : Fault) : (s.raise r).settings = s.settings := rfl
@[simp] theorem State.raise_v (r : Fault) : (s.raise r).v = s.v := rfl
@[simp] theorem State.raise_pc (r : Fault) : (s.raise r).pc = s.pc := rfl
@[simp] theorem State.raise_i (r : Fault) : (s.raise r).i = s.i := rfl
@[simp] theorem State.raise_stack (r : Fault) : (s.raise r).stack = s.stack := rfl
@[simp] theorem State.raise_sp (r : Fault) : (s.raise r).sp = s.sp := rfl
@[simp] theorem State.raise_dt (r : Fault) : (s.raise r).dt = s.dt := rfl
@[simp] theorem State.raise_st (r : Fault) : (s.raise r).st = s.st := rfl
@[simp] theorem State.raise_flags (r : Fault) : (s.raise r).flags = s.flags := rfl
@[simp] theorem State.raise_run (r : Fault) : (s.raise r).run = .faulted r := rfl
@[simp] theorem State.raise_keyWait (r : Fault) : (s.raise r).keyWait = s.keyWait := rfl
@[simp] theorem State.raise_ipfEff (r : Fault) : (s.raise r).ipfEff = s.ipfEff := rfl
@[simp] theorem State.raise_cyc (r : Fault) : (s.raise r).cyc = s.cyc := rfl
@[simp] theorem State.raise_draws (r : Fault) : (s.raise r).draws = s.draws := rfl
@[simp] theorem State.raise_mem (r : Fault) : (s.raise r).mem = s.mem := rfl
@[simp] theorem State.raise_planes (r : Fault) : (s.raise r).planes = s.planes := rfl
@[simp] theorem State.raise_pmask (r : Fault) : (s.raise r).pmask = s.pmask := rfl
@[simp] theorem State.raise_ext (r : Fault) : (s.raise r).ext = s.ext := rfl
@[simp] theorem State.raise_dmode (r : Fault) : (s.raise r).dmode = s.dmode := rfl
@[simp] theorem State.raise_mega (r : Fault) : (s.raise r).mega = s.mega := rfl
@[simp] theorem State.raise_pattern (r : Fault) : (s.raise r).pattern = s.pattern := rfl
@[simp] theorem State.raise_pitch (r : Fault) : (s.raise r).pitch = s.pitch := rfl
@[simp] theorem State.raise_phase (r : Fault) : (s.raise r).phase = s.phase := rfl
@[simp] theorem State.raise_pcm (r : Fault) : (s.raise r).pcm = s.pcm := rfl
@[simp] theorem State.raise_keys (r : Fault) : (s.raise r).keys = s.keys := rfl
@[simp] theorem State.raise_deadline (r : Fault) : (s.raise r).deadline = s.deadline := rfl
@[simp] theorem State.raise_clock (r : Fault) : (s.raise r).clock = s.clock := rfl
@[simp] theorem State.raise_frameStart (r : Fault) : (s.raise r).frameStart = s.frameStart := rfl
@[simp] theorem State.raise_inFrame (r : Fault) : (s.raise r).inFrame = s.inFrame := rfl
@[simp] theorem State.raise_slots (r : Fault) : (s.raise r).slots = s.slots := rfl
@[simp] theorem State.raise_frameCyc (r : Fault) : (s.raise r).frameCyc = s.frameCyc := rfl
@[simp] theorem State.raise_debug (r : Fault) : (s.raise r).debug = s.debug := rfl
@[simp] theorem State.raise_hookCalls (r : Fault) : (s.raise r).hookCalls = s.hookCalls := rfl
@[simp] theorem State.raise_hostPcm (r : Fault) : (s.raise r).hostPcm = s.hostPcm := rfl
@[simp] theorem State.raise_hostGrid (r : Fault) : (s.raise r).hostGrid = s.hostGrid := rfl
@[simp] theorem State.raise_inbox (r : Fault) : (s.raise r).inbox = s.inbox := rfl
@[simp] theorem State.raise_variant (r : Fault) : (s.raise r).variant = s.variant := rfl
@[simp] theorem State.raise_quirks (r : Fault) : (s.raise r).quirks = s.quirks := rfl

/-! ## `refuse` -/

@[simp] theorem State.refuse_settings (r : Refusal) : (s.refuse r).settings = s.settings := rfl
@[simp] theorem State.refuse_v (r : Refusal) : (s.refuse r).v = s.v := rfl
@[simp] theorem State.refuse_pc (r : Refusal) : (s.refuse r).pc = s.pc := rfl
@[simp] theorem State.refuse_i (r : Refusal) : (s.refuse r).i = s.i := rfl
@[simp] theorem State.refuse_stack (r : Refusal) : (s.refuse r).stack = s.stack := rfl
@[simp] theorem State.refuse_sp (r : Refusal) : (s.refuse r).sp = s.sp := rfl
@[simp] theorem State.refuse_dt (r : Refusal) : (s.refuse r).dt = s.dt := rfl
@[simp] theorem State.refuse_st (r : Refusal) : (s.refuse r).st = s.st := rfl
@[simp] theorem State.refuse_flags (r : Refusal) : (s.refuse r).flags = s.flags := rfl
@[simp] theorem State.refuse_run (r : Refusal) : (s.refuse r).run = .refused r := rfl
@[simp] theorem State.refuse_keyWait (r : Refusal) : (s.refuse r).keyWait = s.keyWait := rfl
@[simp] theorem State.refuse_ipfEff (r : Refusal) : (s.refuse r).ipfEff = s.ipfEff := rfl
@[simp] theorem State.refuse_cyc (r : Refusal) : (s.refuse r).cyc = s.cyc := rfl
@[simp] theorem State.refuse_draws (r : Refusal) : (s.refuse r).draws = s.draws := rfl
@[simp] theorem State.refuse_mem (r : Refusal) : (s.refuse r).mem = s.mem := rfl
@[simp] theorem State.refuse_planes (r : Refusal) : (s.refuse r).planes = s.planes := rfl
@[simp] theorem State.refuse_pmask (r : Refusal) : (s.refuse r).pmask = s.pmask := rfl
@[simp] theorem State.refuse_ext (r : Refusal) : (s.refuse r).ext = s.ext := rfl
@[simp] theorem State.refuse_dmode (r : Refusal) : (s.refuse r).dmode = s.dmode := rfl
@[simp] theorem State.refuse_mega (r : Refusal) : (s.refuse r).mega = s.mega := rfl
@[simp] theorem State.refuse_pattern (r : Refusal) : (s.refuse r).pattern = s.pattern := rfl
@[simp] theorem State.refuse_pitch (r : Refusal) : (s.refuse r).pitch = s.pitch := rfl
@[simp] theorem State.refuse_phase (r : Refusal) : (s.refuse r).phase = s.phase := rfl
@[simp] theorem State.refuse_pcm (r : Refusal) : (s.refuse r).pcm = s.pcm := rfl
@[simp] theorem State.refuse_keys (r : Refusal) : (s.refuse r).keys = s.keys := rfl
@[simp] theorem State.refuse_deadline (r : Refusal) : (s.refuse r).deadline = s.deadline := rfl
@[simp] theorem State.refuse_clock (r : Refusal) : (s.refuse r).clock = s.clock := rfl
@[simp] theorem State.refuse_frameStart (r : Refusal) : (s.refuse r).frameStart = s.frameStart := rfl
@[simp] theorem State.refuse_inFrame (r : Refusal) : (s.refuse r).inFrame = s.inFrame := rfl
@[simp] theorem State.refuse_slots (r : Refusal) : (s.refuse r).slots = s.slots := rfl
@[simp] theorem State.refuse_frameCyc (r : Refusal) : (s.refuse r).frameCyc = s.frameCyc := rfl
@[simp] theorem State.refuse_debug (r : Refusal) : (s.refuse r).debug = s.debug := rfl
@[simp] theorem State.refuse_hookCalls (r : Refusal) : (s.refuse r).hookCalls = s.hookCalls := rfl
@[simp] theorem State.refuse_hostPcm (r : Refusal) : (s.refuse r).hostPcm = s.hostPcm := rfl
@[simp] theorem State.refuse_hostGrid (r : Refusal) : (s.refuse r).hostGrid = s.hostGrid := rfl
@[simp] theorem State.refuse_inbox (r : Refusal) : (s.refuse r).inbox = s.inbox := rfl
@[simp] theorem State.refuse_variant (r : Refusal) : (s.refuse r).variant = s.variant := rfl
@[simp] theorem State.refuse_quirks (r : Refusal) : (s.refuse r).quirks = s.quirks := rfl

/-! ## `halt` -/

@[simp] theorem State.halt_settings : (s.halt).settings = s.settings := rfl
@[simp] theorem State.halt_v : (s.halt).v = s.v := rfl
@[simp] theorem State.halt_pc : (s.halt).pc = s.pc := rfl
@[simp] theorem State.halt_i : (s.halt).i = s.i := rfl
@[simp] theorem State.halt_stack : (s.halt).stack = s.stack := rfl
@[simp] theorem State.halt_sp : (s.halt).sp = s.sp := rfl
@[simp] theorem State.halt_dt : (s.halt).dt = s.dt := rfl
@[simp] theorem State.halt_st : (s.halt).st = s.st := rfl
@[simp] theorem State.halt_flags : (s.halt).flags = s.flags := rfl
@[simp] theorem State.halt_run : (s.halt).run = .halted := rfl
@[simp] theorem State.halt_keyWait : (s.halt).keyWait = s.keyWait := rfl
@[simp] theorem State.halt_ipfEff : (s.halt).ipfEff = s.ipfEff := rfl
@[simp] theorem State.halt_cyc : (s.halt).cyc = s.cyc := rfl
@[simp] theorem State.halt_draws : (s.halt).draws = s.draws := rfl
@[simp] theorem State.halt_mem : (s.halt).mem = s.mem := rfl
@[simp] theorem State.halt_planes : (s.halt).planes = s.planes := rfl
@[simp] theorem State.halt_pmask : (s.halt).pmask = s.pmask := rfl
@[simp] theorem State.halt_ext : (s.halt).ext = s.ext := rfl
@[simp] theorem State.halt_dmode : (s.halt).dmode = s.dmode := rfl
@[simp] theorem State.halt_mega : (s.halt).mega = s.mega := rfl
@[simp] theorem State.halt_pattern : (s.halt).pattern = s.pattern := rfl
@[simp] theorem State.halt_pitch : (s.halt).pitch = s.pitch := rfl
@[simp] theorem State.halt_phase : (s.halt).phase = s.phase := rfl
@[simp] theorem State.halt_pcm : (s.halt).pcm = s.pcm := rfl
@[simp] theorem State.halt_keys : (s.halt).keys = s.keys := rfl
@[simp] theorem State.halt_deadline : (s.halt).deadline = s.deadline := rfl
@[simp] theorem State.halt_clock : (s.halt).clock = s.clock := rfl
@[simp] theorem State.halt_frameStart : (s.halt).frameStart = s.frameStart := rfl
@[simp] theorem State.halt_inFrame : (s.halt).inFrame = s.inFrame := rfl
@[simp] theorem State.halt_slots : (s.halt).slots = s.slots := rfl
@[simp] theorem State.halt_frameCyc : (s.halt).frameCyc = s.frameCyc := rfl
@[simp] theorem State.halt_debug : (s.halt).debug = s.debug := rfl
@[simp] theorem State.halt_hookCalls : (s.halt).hookCalls = s.hookCalls := rfl
@[simp] theorem State.halt_hostPcm : (s.halt).hostPcm = s.hostPcm := rfl
@[simp] theorem State.halt_hostGrid : (s.halt).hostGrid = s.hostGrid := rfl
@[simp] theorem State.halt_inbox : (s.halt).inbox = s.inbox := rfl
@[simp] theorem State.halt_variant : (s.halt).variant = s.variant := rfl
@[simp] theorem State.halt_quirks : (s.halt).quirks = s.quirks := rfl

/-! ## `push` -/

@[simp] theorem State.push_settings (h : s.sp.val < 16) : (s.push h).settings = s.settings := rfl
@[simp] theorem State.push_v (h : s.sp.val < 16) : (s.push h).v = s.v := rfl
@[simp] theorem State.push_pc (h : s.sp.val < 16) : (s.push h).pc = s.pc := rfl
@[simp] theorem State.push_i (h : s.sp.val < 16) : (s.push h).i = s.i := rfl
@[simp] theorem State.push_stack (h : s.sp.val < 16) : (s.push h).stack = s.stack.set s.sp.val s.pc h := rfl
@[simp] theorem State.push_sp (h : s.sp.val < 16) : (s.push h).sp = ⟨s.sp.val + 1, Nat.succ_lt_succ h⟩ := rfl
@[simp] theorem State.push_dt (h : s.sp.val < 16) : (s.push h).dt = s.dt := rfl
@[simp] theorem State.push_st (h : s.sp.val < 16) : (s.push h).st = s.st := rfl
@[simp] theorem State.push_flags (h : s.sp.val < 16) : (s.push h).flags = s.flags := rfl
@[simp] theorem State.push_run (h : s.sp.val < 16) : (s.push h).run = s.run := rfl
@[simp] theorem State.push_keyWait (h : s.sp.val < 16) : (s.push h).keyWait = s.keyWait := rfl
@[simp] theorem State.push_ipfEff (h : s.sp.val < 16) : (s.push h).ipfEff = s.ipfEff := rfl
@[simp] theorem State.push_cyc (h : s.sp.val < 16) : (s.push h).cyc = s.cyc := rfl
@[simp] theorem State.push_draws (h : s.sp.val < 16) : (s.push h).draws = s.draws := rfl
@[simp] theorem State.push_mem (h : s.sp.val < 16) : (s.push h).mem = s.mem := rfl
@[simp] theorem State.push_planes (h : s.sp.val < 16) : (s.push h).planes = s.planes := rfl
@[simp] theorem State.push_pmask (h : s.sp.val < 16) : (s.push h).pmask = s.pmask := rfl
@[simp] theorem State.push_ext (h : s.sp.val < 16) : (s.push h).ext = s.ext := rfl
@[simp] theorem State.push_dmode (h : s.sp.val < 16) : (s.push h).dmode = s.dmode := rfl
@[simp] theorem State.push_mega (h : s.sp.val < 16) : (s.push h).mega = s.mega := rfl
@[simp] theorem State.push_pattern (h : s.sp.val < 16) : (s.push h).pattern = s.pattern := rfl
@[simp] theorem State.push_pitch (h : s.sp.val < 16) : (s.push h).pitch = s.pitch := rfl
@[simp] theorem State.push_phase (h : s.sp.val < 16) : (s.push h).phase = s.phase := rfl
@[simp] theorem State.push_pcm (h : s.sp.val < 16) : (s.push h).pcm = s.pcm := rfl
@[simp] theorem State.push_keys (h : s.sp.val < 16) : (s.push h).keys = s.keys := rfl
@[simp] theorem State.push_deadline (h : s.sp.val < 16) : (s.push h).deadline = s.deadline := rfl
@[simp] theorem State.push_clock (h : s.sp.val < 16) : (s.push h).clock = s.clock := rfl
@[simp] theorem State.push_frameStart (h : s.sp.val < 16) : (s.push h).frameStart = s.frameStart := rfl
@[simp] theorem State.push_inFrame (h : s.sp.val < 16) : (s.push h).inFrame = s.inFrame := rfl
@[simp] theorem State.push_slots (h : s.sp.val < 16) : (s.push h).slots = s.slots := rfl
@[simp] theorem State.push_frameCyc (h : s.sp.val < 16) : (s.push h).frameCyc = s.frameCyc := rfl
@[simp] theorem State.push_debug (h : s.sp.val < 16) : (s.push h).debug = s.debug := rfl
@[simp] theorem State.push_hookCalls (h : s.sp.val < 16) : (s.push h).hookCalls = s.hookCalls := rfl
@[simp] theorem State.push_hostPcm (h : s.sp.val < 16) : (s.push h).hostPcm = s.hostPcm := rfl
@[simp] theorem State.push_hostGrid (h : s.sp.val < 16) : (s.push h).hostGrid = s.hostGrid := rfl
@[simp] theorem State.push_inbox (h : s.sp.val < 16) : (s.push h).inbox = s.inbox := rfl
@[simp] theorem State.push_variant (h : s.sp.val < 16) : (s.push h).variant = s.variant := rfl
@[simp] theorem State.push_quirks (h : s.sp.val < 16) : (s.push h).quirks = s.quirks := rfl

/-! ## `popSp` -/

@[simp] theorem State.popSp_settings : (s.popSp).settings = s.settings := rfl
@[simp] theorem State.popSp_v : (s.popSp).v = s.v := rfl
@[simp] theorem State.popSp_pc : (s.popSp).pc = s.pc := rfl
@[simp] theorem State.popSp_i : (s.popSp).i = s.i := rfl
@[simp] theorem State.popSp_stack : (s.popSp).stack = s.stack := rfl
@[simp] theorem State.popSp_sp : (s.popSp).sp = ⟨s.sp.val - 1, Nat.lt_of_le_of_lt (Nat.sub_le _ _) s.sp.isLt⟩ := rfl
@[simp] theorem State.popSp_dt : (s.popSp).dt = s.dt := rfl
@[simp] theorem State.popSp_st : (s.popSp).st = s.st := rfl
@[simp] theorem State.popSp_flags : (s.popSp).flags = s.flags := rfl
@[simp] theorem State.popSp_run : (s.popSp).run = s.run := rfl
@[simp] theorem State.popSp_keyWait : (s.popSp).keyWait = s.keyWait := rfl
@[simp] theorem State.popSp_ipfEff : (s.popSp).ipfEff = s.ipfEff := rfl
@[simp] theorem State.popSp_cyc : (s.popSp).cyc = s.cyc := rfl
@[simp] theorem State.popSp_draws : (s.popSp).draws = s.draws := rfl
@[simp] theorem State.popSp_mem : (s.popSp).mem = s.mem := rfl
@[simp] theorem State.popSp_planes : (s.popSp).planes = s.planes := rfl
@[simp] theorem State.popSp_pmask : (s.popSp).pmask = s.pmask := rfl
@[simp] theorem State.popSp_ext : (s.popSp).ext = s.ext := rfl
@[simp] theorem State.popSp_dmode : (s.popSp).dmode = s.dmode := rfl
@[simp] theorem State.popSp_mega : (s.popSp).mega = s.mega := rfl
@[simp] theorem State.popSp_pattern : (s.popSp).pattern = s.pattern := rfl
@[simp] theorem State.popSp_pitch : (s.popSp).pitch = s.pitch := rfl
@[simp] theorem State.popSp_phase : (s.popSp).phase = s.phase := rfl
@[simp] theorem State.popSp_pcm : (s.popSp).pcm = s.pcm := rfl
@[simp] theorem State.popSp_keys : (s.popSp).keys = s.keys := rfl
@[simp] theorem State.popSp_deadline : (s.popSp).deadline = s.deadline := rfl
@[simp] theorem State.popSp_clock : (s.popSp).clock = s.clock := rfl
@[simp] theorem State.popSp_frameStart : (s.popSp).frameStart = s.frameStart := rfl
@[simp] theorem State.popSp_inFrame : (s.popSp).inFrame = s.inFrame := rfl
@[simp] theorem State.popSp_slots : (s.popSp).slots = s.slots := rfl
@[simp] theorem State.popSp_frameCyc : (s.popSp).frameCyc = s.frameCyc := rfl
@[simp] theorem State.popSp_debug : (s.popSp).debug = s.debug := rfl
@[simp] theorem State.popSp_hookCalls : (s.popSp).hookCalls = s.hookCalls := rfl
@[simp] theorem State.popSp_hostPcm : (s.popSp).hostPcm = s.hostPcm := rfl
@[simp] theorem State.popSp_hostGrid : (s.popSp).hostGrid = s.hostGrid := rfl
@[simp] theorem State.popSp_inbox : (s.popSp).inbox = s.inbox := rfl
@[simp] theorem State.popSp_variant : (s.popSp).variant = s.variant := rfl
@[simp] theorem State.popSp_quirks : (s.popSp).quirks = s.quirks := rfl

/-! ## `mapSelected` -/

@[simp] theorem State.mapSelected_settings (f : Plane → Plane) : (s.mapSelected f).settings = s.settings := rfl
@[simp] theorem State.mapSelected_v (f : Plane → Plane) : (s.mapSelected f).v = s.v := rfl
@[simp] theorem State.mapSelected_pc (f : Plane → Plane) : (s.mapSelected f).pc = s.pc := rfl
@[simp] theorem State.mapSelected_i (f : Plane → Plane) : (s.mapSelected f).i = s.i := rfl
@[simp] theorem State.mapSelected_stack (f : Plane → Plane) : (s.mapSelected f).stack = s.stack := rfl
@[simp] theorem State.mapSelected_sp (f : Plane → Plane) : (s.mapSelected f).sp = s.sp := rfl
@[simp] theorem State.mapSelected_dt (f : Plane → Plane) : (s.mapSelected f).dt = s.dt := rfl
@[simp] theorem State.mapSelected_st (f : Plane → Plane) : (s.mapSelected f).st = s.st := rfl
@[simp] theorem State.mapSelected_flags (f : Plane → Plane) : (s.mapSelected f).flags = s.flags := rfl
@[simp] theorem State.mapSelected_run (f : Plane → Plane) : (s.mapSelected f).run = s.run := rfl
@[simp] theorem State.mapSelected_keyWait (f : Plane → Plane) : (s.mapSelected f).keyWait = s.keyWait := rfl
@[simp] theorem State.mapSelected_ipfEff (f : Plane → Plane) : (s.mapSelected f).ipfEff = s.ipfEff := rfl
@[simp] theorem State.mapSelected_cyc (f : Plane → Plane) : (s.mapSelected f).cyc = s.cyc := rfl
@[simp] theorem State.mapSelected_draws (f : Plane → Plane) : (s.mapSelected f).draws = s.draws := rfl
@[simp] theorem State.mapSelected_mem (f : Plane → Plane) : (s.mapSelected f).mem = s.mem := rfl
@[simp] theorem State.mapSelected_pmask (f : Plane → Plane) : (s.mapSelected f).pmask = s.pmask := rfl
@[simp] theorem State.mapSelected_ext (f : Plane → Plane) : (s.mapSelected f).ext = s.ext := rfl
@[simp] theorem State.mapSelected_dmode (f : Plane → Plane) : (s.mapSelected f).dmode = s.dmode := rfl
@[simp] theorem State.mapSelected_mega (f : Plane → Plane) : (s.mapSelected f).mega = s.mega := rfl
@[simp] theorem State.mapSelected_pattern (f : Plane → Plane) : (s.mapSelected f).pattern = s.pattern := rfl
@[simp] theorem State.mapSelected_pitch (f : Plane → Plane) : (s.mapSelected f).pitch = s.pitch := rfl
@[simp] theorem State.mapSelected_phase (f : Plane → Plane) : (s.mapSelected f).phase = s.phase := rfl
@[simp] theorem State.mapSelected_pcm (f : Plane → Plane) : (s.mapSelected f).pcm = s.pcm := rfl
@[simp] theorem State.mapSelected_keys (f : Plane → Plane) : (s.mapSelected f).keys = s.keys := rfl
@[simp] theorem State.mapSelected_deadline (f : Plane → Plane) : (s.mapSelected f).deadline = s.deadline := rfl
@[simp] theorem State.mapSelected_clock (f : Plane → Plane) : (s.mapSelected f).clock = s.clock := rfl
@[simp] theorem State.mapSelected_frameStart (f : Plane → Plane) : (s.mapSelected f).frameStart = s.frameStart := rfl
@[simp] theorem State.mapSelected_inFrame (f : Plane → Plane) : (s.mapSelected f).inFrame = s.inFrame := rfl
@[simp] theorem State.mapSelected_slots (f : Plane → Plane) : (s.mapSelected f).slots = s.slots := rfl
@[simp] theorem State.mapSelected_frameCyc (f : Plane → Plane) : (s.mapSelected f).frameCyc = s.frameCyc := rfl
@[simp] theorem State.mapSelected_debug (f : Plane → Plane) : (s.mapSelected f).debug = s.debug := rfl
@[simp] theorem State.mapSelected_hookCalls (f : Plane → Plane) : (s.mapSelected f).hookCalls = s.hookCalls := rfl
@[simp] theorem State.mapSelected_hostPcm (f : Plane → Plane) : (s.mapSelected f).hostPcm = s.hostPcm := rfl
@[simp] theorem State.mapSelected_hostGrid (f : Plane → Plane) : (s.mapSelected f).hostGrid = s.hostGrid := rfl
@[simp] theorem State.mapSelected_inbox (f : Plane → Plane) : (s.mapSelected f).inbox = s.inbox := rfl
@[simp] theorem State.mapSelected_variant (f : Plane → Plane) : (s.mapSelected f).variant = s.variant := rfl
@[simp] theorem State.mapSelected_quirks (f : Plane → Plane) : (s.mapSelected f).quirks = s.quirks := rfl

/-! ## `clearAll` -/

@[simp] theorem State.clearAll_settings : (s.clearAll).settings = s.settings := rfl
@[simp] theorem State.clearAll_v : (s.clearAll).v = s.v := rfl
@[simp] theorem State.clearAll_pc : (s.clearAll).pc = s.pc := rfl
@[simp] theorem State.clearAll_i : (s.clearAll).i = s.i := rfl
@[simp] theorem State.clearAll_stack : (s.clearAll).stack = s.stack := rfl
@[simp] theorem State.clearAll_sp : (s.clearAll).sp = s.sp := rfl
@[simp] theorem State.clearAll_dt : (s.clearAll).dt = s.dt := rfl
@[simp] theorem State.clearAll_st : (s.clearAll).st = s.st := rfl
@[simp] theorem State.clearAll_flags : (s.clearAll).flags = s.flags := rfl
@[simp] theorem State.clearAll_run : (s.clearAll).run = s.run := rfl
@[simp] theorem State.clearAll_keyWait : (s.clearAll).keyWait = s.keyWait := rfl
@[simp] theorem State.clearAll_ipfEff : (s.clearAll).ipfEff = s.ipfEff := rfl
@[simp] theorem State.clearAll_cyc : (s.clearAll).cyc = s.cyc := rfl
@[simp] theorem State.clearAll_draws : (s.clearAll).draws = s.draws := rfl
@[simp] theorem State.clearAll_mem : (s.clearAll).mem = s.mem := rfl
@[simp] theorem State.clearAll_planes : (s.clearAll).planes = Vector.replicate 4 blankPlane := rfl
@[simp] theorem State.clearAll_pmask : (s.clearAll).pmask = s.pmask := rfl
@[simp] theorem State.clearAll_ext : (s.clearAll).ext = s.ext := rfl
@[simp] theorem State.clearAll_dmode : (s.clearAll).dmode = s.dmode := rfl
@[simp] theorem State.clearAll_mega : (s.clearAll).mega = s.mega := rfl
@[simp] theorem State.clearAll_pattern : (s.clearAll).pattern = s.pattern := rfl
@[simp] theorem State.clearAll_pitch : (s.clearAll).pitch = s.pitch := rfl
@[simp] theorem State.clearAll_phase : (s.clearAll).phase = s.phase := rfl
@[simp] theorem State.clearAll_pcm : (s.clearAll).pcm = s.pcm := rfl
@[simp] theorem State.clearAll_keys : (s.clearAll).keys = s.keys := rfl
@[simp] theorem State.clearAll_deadline : (s.clearAll).deadline = s.deadline := rfl
@[simp] theorem State.clearAll_clock : (s.clearAll).clock = s.clock := rfl
@[simp] theorem State.clearAll_frameStart : (s.clearAll).frameStart = s.frameStart := rfl
@[simp] theorem State.clearAll_inFrame : (s.clearAll).inFrame = s.inFrame := rfl
@[simp] theorem State.clearAll_slots : (s.clearAll).slots = s.slots := rfl
@[simp] theorem State.clearAll_frameCyc : (s.clearAll).frameCyc = s.frameCyc := rfl
@[simp] theorem State.clearAll_debug : (s.clearAll).debug = s.debug := rfl
@[simp] theorem State.clearAll_hookCalls : (s.clearAll).hookCalls = s.hookCalls := rfl
@[simp] theorem State.clearAll_hostPcm : (s.clearAll).hostPcm = s.hostPcm := rfl
@[simp] theorem State.clearAll_hostGrid : (s.clearAll).hostGrid = s.hostGrid := rfl
@[simp] theorem State.clearAll_inbox : (s.clearAll).inbox = s.inbox := rfl
@[simp] theorem State.clearAll_variant : (s.clearAll).variant = s.variant := rfl
@[simp] theorem State.clearAll_quirks : (s.clearAll).quirks = s.quirks := rfl

/-! ## `consultHook` -/

@[simp] theorem State.consultHook_settings : (s.consultHook).settings = s.settings := rfl
@[simp] theorem State.consultHook_v : (s.consultHook).v = s.v := rfl
@[simp] theorem State.consultHook_pc : (s.consultHook).pc = s.pc := rfl
@[simp] theorem State.consultHook_i : (s.consultHook).i = s.i := rfl
@[simp] theorem State.consultHook_stack : (s.consultHook).stack = s.stack := rfl
@[simp] theorem State.consultHook_sp : (s.consultHook).sp = s.sp := rfl
@[simp] theorem State.consultHook_dt : (s.consultHook).dt = s.dt := rfl
@[simp] theorem State.consultHook_st : (s.consultHook).st = s.st := rfl
@[simp] theorem State.consultHook_flags : (s.consultHook).flags = s.flags := rfl
@[simp] theorem State.consultHook_run : (s.consultHook).run = s.run := rfl
@[simp] theorem State.consultHook_keyWait : (s.consultHook).keyWait = s.keyWait := rfl
@[simp] theorem State.consultHook_ipfEff : (s.consultHook).ipfEff = s.ipfEff := rfl
@[simp] theorem State.consultHook_cyc : (s.consultHook).cyc = s.cyc := rfl
@[simp] theorem State.consultHook_draws : (s.consultHook).draws = s.draws := rfl
@[simp] theorem State.consultHook_mem : (s.consultHook).mem = s.mem := rfl
@[simp] theorem State.consultHook_planes : (s.consultHook).planes = s.planes := rfl
@[simp] theorem State.consultHook_pmask : (s.consultHook).pmask = s.pmask := rfl
@[simp] theorem State.consultHook_ext : (s.consultHook).ext = s.ext := rfl
@[simp] theorem State.consultHook_dmode : (s.consultHook).dmode = s.dmode := rfl
@[simp] theorem State.consultHook_mega : (s.consultHook).mega = s.mega := rfl
@[simp] theorem State.consultHook_pattern : (s.consultHook).pattern = s.pattern := rfl
@[simp] theorem State.consultHook_pitch : (s.consultHook).pitch = s.pitch := rfl
@[simp] theorem State.consultHook_phase : (s.consultHook).phase = s.phase := rfl
@[simp] theorem State.consultHook_pcm : (s.consultHook).pcm = s.pcm := rfl
@[simp] theorem State.consultHook_keys : (s.consultHook).keys = s.keys := rfl
@[simp] theorem State.consultHook_deadline : (s.consultHook).deadline = s.deadline := rfl
@[simp] theorem State.consultHook_clock : (s.consultHook).clock = s.clock := rfl
@[simp] theorem State.consultHook_frameStart : (s.consultHook).frameStart = s.frameStart := rfl
@[simp] theorem State.consultHook_inFrame : (s.consultHook).inFrame = s.inFrame := rfl
@[simp] theorem State.consultHook_slots : (s.consultHook).slots = s.slots := rfl
@[simp] theorem State.consultHook_frameCyc : (s.consultHook).frameCyc = s.frameCyc := rfl
@[simp] theorem State.consultHook_debug : (s.consultHook).debug = s.debug := rfl
@[simp] theorem State.consultHook_hookCalls : (s.consultHook).hookCalls = s.hookCalls + (if s.debug then 1 else 0) := rfl
@[simp] theorem State.consultHook_hostPcm : (s.consultHook).hostPcm = s.hostPcm := rfl
@[simp] theorem State.consultHook_hostGrid : (s.consultHook).hostGrid = s.hostGrid := rfl
@[simp] theorem State.consultHook_inbox : (s.consultHook).inbox = s.inbox := rfl
@[simp] theorem State.consultHook_variant : (s.consultHook).variant = s.variant := rfl
@[simp] theorem State.consultHook_quirks : (s.consultHook).quirks = s.quirks := rfl

/-! ## `tickTimers` -/

@[simp] theorem State.tickTimers_settings : (s.tickTimers).settings = s.settings := rfl
@[simp] theorem State.tickTimers_v : (s.tickTimers).v = s.v := rfl
@[simp] theorem State.tickTimers_pc : (s.tickTimers).pc = s.pc := rfl
@[simp] theorem State.tickTimers_i : (s.tickTimers).i = s.i := rfl
@[simp] theorem State.tickTimers_stack : (s.tickTimers).stack = s.stack := rfl
@[simp] theorem State.tickTimers_sp : (s.tickTimers).sp = s.sp := rfl
@[simp] theorem State.tickTimers_dt : (s.tickTimers).dt = tickDown s.dt := rfl
@[simp] theorem State.tickTimers_st : (s.tickTimers).st = tickDown s.st := rfl
@[simp] theorem State.tickTimers_flags : (s.tickTimers).flags = s.flags := rfl
@[simp] theorem State.tickTimers_run : (s.tickTimers).run = s.run := rfl
@[simp] theorem State.tickTimers_keyWait : (s.tickTimers).keyWait = s.keyWait := rfl
@[simp] theorem State.tickTimers_ipfEff : (s.tickTimers).ipfEff = s.ipfEff := rfl
@[simp] theorem State.tickTimers_cyc : (s.tickTimers).cyc = s.cyc := rfl
@[simp] theorem State.tickTimers_draws : (s.tickTimers).draws = s.draws := rfl
@[simp] theorem State.tickTimers_mem : (s.tickTimers).mem = s.mem := rfl
@[simp] theorem State.tickTimers_planes : (s.tickTimers).planes = s.planes := rfl
@[simp] theorem State.tickTimers_pmask : (s.tickTimers).pmask = s.pmask := rfl
@[simp] theorem State.tickTimers_ext : (s.tickTimers).ext = s.ext := rfl
@[simp] theorem State.tickTimers_dmode : (s.tickTimers).dmode = s.dmode := rfl
@[simp] theorem State.tickTimers_mega : (s.tickTimers).mega = s.mega := rfl
@[simp] theorem State.tickTimers_pattern : (s.tickTimers).pattern = s.pattern := rfl
@[simp] theorem State.tickTimers_pitch : (s.tickTimers).pitch = s.pitch := rfl
@[simp] theorem State.tickTimers_phase : (s.tickTimers).phase = s.phase := rfl
@[simp] theorem State.tickTimers_pcm : (s.tickTimers).pcm = s.pcm := rfl
@[simp] theorem State.tickTimers_keys : (s.tickTimers).keys = s.keys := rfl
@[simp] theorem State.tickTimers_deadline : (s.tickTimers).deadline = s.deadline := rfl
@[simp] theorem State.tickTimers_clock : (s.tickTimers).clock = s.clock := rfl
@[simp] theorem State.tickTimers_frameStart : (s.tickTimers).frameStart = s.frameStart := rfl
@[simp] theorem State.tickTimers_inFrame : (s.tickTimers).inFrame = s.inFrame := rfl
@[simp] theorem State.tickTimers_slots : (s.tickTimers).slots = s.slots := rfl
@[simp] theorem State.tickTimers_frameCyc : (s.tickTimers).frameCyc = s.frameCyc := rfl
@[simp] theorem State.tickTimers_debug : (s.tickTimers).debug = s.debug := rfl
@[simp] theorem State.tickTimers_hookCalls : (s.tickTimers).hookCalls = s.hookCalls := rfl
@[simp] theorem State.tickTimers_hostPcm : (s.tickTimers).hostPcm = s.hostPcm := rfl
@[simp] theorem State.tickTimers_hostGrid : (s.tickTimers).hostGrid = s.hostGrid := rfl
@[simp] theorem State.tickTimers_inbox : (s.tickTimers).inbox = s.inbox := rfl
@[simp] theorem State.tickTimers_variant : (s.tickTimers).variant = s.variant := rfl
@[simp] theorem State.tickTimers_quirks : (s.tickTimers).quirks = s.quirks := rfl

end Sys2Proof.Machine
end

