-- ==== Sys2Proof/Laws/Memory.lean ====
section
/-!
SUPPORT. The laws of memory: a read after a write, the canonical form kept by every operation, the bus index.
-/

namespace Sys2Proof.Machine

/-! ## Lookup -/

theorem Memory.find_insert_same (m : List Host.Cell) (a : Nat) (b : Byte) :
    Memory.find (Memory.insert m a b) a = some b := by
  induction m with
  | nil => simp [Memory.insert, Memory.find]
  | cons c m ih =>
    unfold Memory.insert
    split
    · simp [Memory.find]
    · split
      · simp [Memory.find]
      · rename_i _ hne
        rw [Memory.find, if_neg (fun h => hne h.symm), ih]

theorem Memory.find_insert_other (m : List Host.Cell) {a a' : Nat} (b : Byte) (h : a' ≠ a) :
    Memory.find (Memory.insert m a b) a' = Memory.find m a' := by
  induction m with
  | nil => simp [Memory.insert, Memory.find, h.symm]
  | cons c m ih =>
    unfold Memory.insert
    split
    · rw [Memory.find, if_neg h.symm]
    · split
      · rename_i _ heq
        rw [Memory.find, if_neg h.symm, Memory.find, if_neg (fun hc => h (hc.symm.trans heq.symm))]
      · simp only [Memory.find, ih]

theorem Memory.find_erase_other (m : List Host.Cell) {a a' : Nat} (h : a' ≠ a) :
    Memory.find (Memory.erase m a) a' = Memory.find m a' := by
  induction m with
  | nil => rfl
  | cons c m ih =>
    unfold Memory.erase
    split
    · rename_i heq
      rw [Memory.find, if_neg (fun hc => h (hc.symm.trans heq))]
    · simp only [Memory.find, ih]

theorem Memory.find_eq_none {m : List Host.Cell} {a : Nat} (h : ∀ c ∈ m, c.1 ≠ a) : Memory.find m a = none := by
  induction m with
  | nil => rfl
  | cons c m ih =>
    rw [Memory.find, if_neg (h c (by simp)), ih fun d hd => h d (by simp [hd])]

theorem Memory.find_erase_same {m : List Host.Cell} (a : Nat) (h : m.Pairwise fun c d => c.1 < d.1) :
    Memory.find (Memory.erase m a) a = none := by
  induction m with
  | nil => rfl
  | cons c m ih =>
    rw [List.pairwise_cons] at h
    unfold Memory.erase
    split
    · rename_i heq
      exact Memory.find_eq_none fun d hd => by have := h.1 d hd; omega
    · rename_i hne
      rw [Memory.find, if_neg hne, ih h.2]

/-! ## The canonical form -/

theorem Memory.mem_of_mem_erase {m : List Host.Cell} {a : Nat} {c : Host.Cell} (h : c ∈ Memory.erase m a) :
    c ∈ m := by
  induction m with
  | nil => exact h
  | cons d m ih =>
    unfold Memory.erase at h
    split at h
    · exact List.mem_cons_of_mem _ h
    · rcases List.mem_cons.mp h with rfl | h
      · simp
      · exact List.mem_cons_of_mem _ (ih h)

theorem Memory.mem_of_mem_insert {m : List Host.Cell} {a : Nat} {b : Byte} {c : Host.Cell}
    (h : c ∈ Memory.insert m a b) : c = (a, b) ∨ c ∈ m := by
  induction m with
  | nil => simpa [Memory.insert] using h
  | cons d m ih =>
    unfold Memory.insert at h
    split at h
    · simpa using h
    · split at h
      · rcases List.mem_cons.mp h with h | h
        · exact .inl h
        · exact .inr (List.mem_cons_of_mem _ h)
      · rcases List.mem_cons.mp h with rfl | h
        · simp
        · rcases ih h with h | h
          · exact .inl h
          · exact .inr (List.mem_cons_of_mem _ h)

theorem Memory.pairwise_erase {m : List Host.Cell} (a : Nat) (h : m.Pairwise fun c d => c.1 < d.1) :
    (Memory.erase m a).Pairwise fun c d => c.1 < d.1 := by
  induction m with
  | nil => exact h
  | cons c m ih =>
    rw [List.pairwise_cons] at h
    unfold Memory.erase
    split
    · exact h.2
    · exact List.pairwise_cons.mpr ⟨fun d hd => h.1 d (Memory.mem_of_mem_erase hd), ih h.2⟩

theorem Memory.pairwise_insert {m : List Host.Cell} (a : Nat) (b : Byte)
    (h : m.Pairwise fun c d => c.1 < d.1) : (Memory.insert m a b).Pairwise fun c d => c.1 < d.1 := by
  induction m with
  | nil => simp [Memory.insert]
  | cons c m ih =>
    have h' := List.pairwise_cons.mp h
    unfold Memory.insert
    split
    · rename_i hlt
      refine List.pairwise_cons.mpr ⟨fun d hd => ?_, h⟩
      rcases List.mem_cons.mp hd with rfl | hd
      · exact hlt
      · exact Nat.lt_trans hlt (h'.1 d hd)
    · split
      · rename_i _ heq
        exact List.pairwise_cons.mpr ⟨fun d hd => by have := h'.1 d hd; simp only; omega, h'.2⟩
      · rename_i hge hne
        refine List.pairwise_cons.mpr ⟨fun d hd => ?_, ih h'.2⟩
        rcases Memory.mem_of_mem_insert hd with rfl | hd
        · simp only; omega
        · exact h'.1 d hd

/-- A write inside the memory keeps the canonical form. -/
theorem Memory.wf_write {v : Variant} {m : List Host.Cell} {a : Nat} (b : Byte) (h : Memory.wf v m)
    (ha : a < memSize v) : Memory.wf v (Memory.write v m a b) := by
  unfold Memory.write
  split
  · exact ⟨Memory.pairwise_erase a h.1, fun c hc => h.2 c (Memory.mem_of_mem_erase hc)⟩
  · rename_i hb
    refine ⟨Memory.pairwise_insert a b h.1, fun c hc => ?_⟩
    rcases Memory.mem_of_mem_insert hc with rfl | hc
    · exact ⟨ha, hb⟩
    · exact h.2 c hc

/-- Nothing listed is canonical. -/
theorem Memory.wf_nil (v : Variant) : Memory.wf v [] := ⟨List.Pairwise.nil, fun _ h => nomatch h⟩

/-- The memory of the machine right after reset is canonical. -/
theorem State.reset_mem_wf : Memory.wf State.reset.variant State.reset.mem := Memory.wf_nil _

/-! ## Reads after writes -/

theorem Memory.read_write_same {v : Variant} {m : List Host.Cell} (a : Nat) (b : Byte) (h : Memory.wf v m) :
    Memory.read v (Memory.write v m a b) a = b := by
  unfold Memory.read Memory.write
  split
  · rename_i hb
    rw [Memory.find_erase_same a h.1, Option.getD_none, hb]
  · rw [Memory.find_insert_same, Option.getD_some]

theorem Memory.read_write_other (v : Variant) (m : List Host.Cell) {a a' : Nat} (b : Byte) (h : a' ≠ a) :
    Memory.read v (Memory.write v m a b) a' = Memory.read v m a' := by
  unfold Memory.read Memory.write
  split
  · rw [Memory.find_erase_other m h]
  · rw [Memory.find_insert_other m b h]

/-! ## The bus index -/

theorem memSize_pos (v : Variant) : 0 < memSize v := Nat.two_pow_pos _

/-- Masking an address is taking it modulo the size of the memory (20_memory.md rule R81). -/
theorem busIndex_eq (v : Variant) (a : Addr) : busIndex v a = a.toNat % memSize v := by
  cases v <;>
    simp [busIndex, addrMask, memSize, addrBits] <;>
    first
      | exact Nat.and_two_pow_sub_one_eq_mod a.toNat 12
      | exact Nat.and_two_pow_sub_one_eq_mod a.toNat 16
      | exact Nat.and_two_pow_sub_one_eq_mod a.toNat 24

theorem busIndex_lt (v : Variant) (a : Addr) : busIndex v a < memSize v :=
  busIndex_eq v a ▸ Nat.mod_lt _ (memSize_pos v)

/-- A masked address lies in the memory and is masked again without change (10_state.md rule R33). -/
theorem toNat_and_addrMask (v : Variant) (a : Addr) : (a &&& addrMask v).toNat = a.toNat % memSize v :=
  busIndex_eq v a

/-- `I` masked is `I` modulo `2^I_WIDTH` (10_state.md rule R36). -/
theorem toNat_and_iMask (v : Variant) (a : Addr) : (a &&& iMask v).toNat = a.toNat % 2 ^ iWidth v := by
  cases v <;>
    simp [iMask, iWidth] <;>
    first
      | exact Nat.and_two_pow_sub_one_eq_mod a.toNat 16
      | exact Nat.and_two_pow_sub_one_eq_mod a.toNat 24

theorem memSize_dvd (v : Variant) : memSize v ∣ 2 ^ 24 := by cases v <;> decide

theorem memSize_ge (v : Variant) : 4096 ≤ memSize v := by cases v <;> decide

/-- The index of an address `k` further on. -/
theorem busIndex_add (v : Variant) (a : Addr) (k : Nat) :
    busIndex v (a + BitVec.ofNat 24 k) = (a.toNat + k) % memSize v := by
  rw [busIndex_eq, BitVec.toNat_add, BitVec.toNat_ofNat, Nat.add_mod_mod, Nat.mod_mod_of_dvd _ (memSize_dvd v)]

/-- Consecutive addresses name different bytes, as long as there are no more of them than bytes. -/
theorem busIndex_add_ne {v : Variant} (a : Addr) {j k : Nat} (hj : j < memSize v) (hk : k < memSize v)
    (h : j ≠ k) : busIndex v (a + BitVec.ofNat 24 j) ≠ busIndex v (a + BitVec.ofNat 24 k) := by
  rw [busIndex_add, busIndex_add]
  intro heq
  exact h (Nat.mod_eq_of_lt hj ▸ Nat.mod_eq_of_lt hk ▸ Nat.ModEq.add_left_cancel' a.toNat heq)

end Sys2Proof.Machine
end

