-- ==== Sys2Proof/Laws/Bus.lean ====
section
/-!
SUPPORT. The laws of the bus operations on the state: what a store of one byte or of several does to every later
read, and that it changes nothing but memory.
-/

namespace Sys2Proof.Machine

variable (s : State)

/-- A read depends on the settings and the memory alone. -/
theorem State.read_congr {s t : State} (hs : t.settings = s.settings) (hm : t.mem = s.mem) (a : Addr) :
    t.read a = s.read a := by
  unfold State.read State.variant
  rw [hs, hm]

theorem State.read_write_same (h : Memory.wf s.variant s.mem) {a a' : Addr} (b : Byte)
    (ha : busIndex s.variant a' = busIndex s.variant a) : (s.write a b).read a' = b := by
  unfold State.read
  rw [State.write_variant, State.write_mem, ha, Memory.read_write_same _ _ h]

theorem State.read_write_other {a a' : Addr} (b : Byte) (ha : busIndex s.variant a' ≠ busIndex s.variant a) :
    (s.write a b).read a' = s.read a' := by
  unfold State.read
  rw [State.write_variant, State.write_mem, Memory.read_write_other _ _ _ ha]

theorem State.write_wf (h : Memory.wf s.variant s.mem) (a : Addr) (b : Byte) :
    Memory.wf (s.write a b).variant (s.write a b).mem :=
  Memory.wf_write b h (busIndex_lt _ _)

/-! ## Several bytes -/

/-- A store of bytes changes nothing but memory. -/
theorem State.storeBytes_frame (bs : List Byte) :
    ∀ (s : State) (a : Addr), s.storeBytes a bs = { s with mem := (s.storeBytes a bs).mem } := by
  induction bs with
  | nil => intro s a; rfl
  | cons b bs ih => intro s a; rw [State.storeBytes, ih]; rfl

@[simp] theorem State.storeBytes_settings (a : Addr) (bs : List Byte) :
    (s.storeBytes a bs).settings = s.settings := by rw [State.storeBytes_frame]

@[simp] theorem State.storeBytes_variant (a : Addr) (bs : List Byte) :
    (s.storeBytes a bs).variant = s.variant := by unfold State.variant; rw [State.storeBytes_settings]

@[simp] theorem State.storeBytes_quirks (a : Addr) (bs : List Byte) :
    (s.storeBytes a bs).quirks = s.quirks := by unfold State.quirks; rw [State.storeBytes_settings]

@[simp] theorem State.storeBytes_pc (a : Addr) (bs : List Byte) : (s.storeBytes a bs).pc = s.pc := by
  rw [State.storeBytes_frame]

@[simp] theorem State.storeBytes_i (a : Addr) (bs : List Byte) : (s.storeBytes a bs).i = s.i := by
  rw [State.storeBytes_frame]

@[simp] theorem State.storeBytes_v (a : Addr) (bs : List Byte) : (s.storeBytes a bs).v = s.v := by
  rw [State.storeBytes_frame]

/-- A store of bytes keeps the canonical form. -/
theorem State.storeBytes_wf (bs : List Byte) :
    ∀ (s : State) (a : Addr), Memory.wf s.variant s.mem → Memory.wf s.variant (s.storeBytes a bs).mem := by
  induction bs with
  | nil => intro s a h; exact h
  | cons b bs ih => intro s a h; exact ih (s.write a b) (a + 1) (s.write_wf h a b)

theorem addr_add_succ (a : Addr) (k : Nat) : a + 1 + BitVec.ofNat 24 k = a + BitVec.ofNat 24 (k + 1) := by
  rw [BitVec.add_assoc, Nat.add_comm k 1, BitVec.ofNat_add]
  rfl

theorem addr_add_zero (a : Addr) : a + BitVec.ofNat 24 0 = a := by simp

/-- A store of bytes leaves every byte outside the stored ones. -/
theorem State.read_storeBytes_outside (bs : List Byte) :
    ∀ (s : State) (a b : Addr),
      (∀ k, k < bs.length → busIndex s.variant b ≠ busIndex s.variant (a + BitVec.ofNat 24 k)) →
        (s.storeBytes a bs).read b = s.read b := by
  induction bs with
  | nil => intro s a b _; rfl
  | cons c bs ih =>
    intro s a b h
    rw [State.storeBytes, ih]
    · apply State.read_write_other
      have := h 0 (by simp)
      rwa [addr_add_zero] at this
    · intro k hk
      rw [State.write_variant, addr_add_succ]
      exact h (k + 1) (by simpa using hk)

/-- A store of bytes puts each of them at its address, as long as there are no more of them than bytes of memory. -/
theorem State.read_storeBytes_inside (bs : List Byte) :
    ∀ (s : State) (a : Addr), Memory.wf s.variant s.mem → bs.length ≤ memSize s.variant →
      ∀ (k : Nat) (h : k < bs.length), (s.storeBytes a bs).read (a + BitVec.ofNat 24 k) = bs[k] := by
  induction bs with
  | nil => intro s a _ _ k h; exact absurd h (Nat.not_lt_zero k)
  | cons c bs ih =>
    intro s a hw hl k hk
    simp only [List.length_cons] at hl hk
    cases k with
    | zero =>
      rw [State.storeBytes, State.read_storeBytes_outside]
      · exact State.read_write_same s hw c (by rw [addr_add_zero])
      · intro j hj
        rw [State.write_variant, addr_add_succ]
        exact busIndex_add_ne a (by omega) (by omega) (by omega)
    | succ k =>
      rw [State.storeBytes, ← addr_add_succ]
      exact ih (s.write a c) (a + 1) (s.write_wf hw a c) (by rw [State.write_variant]; omega) k (by omega)

/-- The bytes loaded are those at the consecutive addresses. -/
theorem State.loadBytes_length (a : Addr) (n : Nat) : (s.loadBytes a n).length = n := by
  simp [State.loadBytes]

theorem State.loadBytes_getElem (a : Addr) (n k : Nat) (h : k < (s.loadBytes a n).length) :
    (s.loadBytes a n)[k] = s.read (a + BitVec.ofNat 24 k) := by
  simp [State.loadBytes]

end Sys2Proof.Machine
end

