-- ==== Sys2Proof/Laws/Raster.lean ====
section
/-!
SUPPORT. The laws of the bitplanes, pixel by pixel: the pixel primitive, clear, the scrolls, and what a change of
the selected planes does to each plane.
-/

namespace Sys2Proof.Machine

/-! ## One pixel -/

theorem Plane.pixel_of_lt (p : Plane) (x : Nat) {y : Nat} (h : y < 64) :
    Plane.pixel p x y = p[y].getLsbD x := by
  simp [Plane.pixel, Vector.getD, h]

theorem Plane.pixel_of_ge (p : Plane) (x : Nat) {y : Nat} (h : 64 ≤ y) : Plane.pixel p x y = false := by
  simp [Plane.pixel, Vector.getD, Nat.not_lt.mpr h]

theorem Plane.pixel_eq_false_of_ge (p : Plane) {x : Nat} (y : Nat) (h : 128 ≤ x) :
    Plane.pixel p x y = false := by
  unfold Plane.pixel
  exact BitVec.getLsbD_of_ge _ _ h

/-- A pixel set is the pixel read; every other pixel is as before. -/
theorem Plane.pixel_setPixel (p : Plane) (x y : Nat) (b : Bool) (x' y' : Nat) :
    Plane.pixel (Plane.setPixel p x y b) x' y' =
      if x' = x ∧ y' = y ∧ x < 128 ∧ y < 64 then b else Plane.pixel p x' y' := by
  unfold Plane.setPixel
  split
  · rename_i hy
    by_cases hy' : y' < 64
    · rw [Plane.pixel_of_lt _ _ hy', Plane.pixel_of_lt _ _ hy', Vector.getElem_set]
      by_cases hyy : y = y'
      · subst hyy
        by_cases hx' : x' < 128
        · by_cases hx : x' = x
          · subst hx; cases b <;> simp [hx', hy]
          · cases b <;> simp [hx, hx'] <;> omega
        · rw [BitVec.getLsbD_of_ge _ _ (by omega), if_neg (by omega), BitVec.getLsbD_of_ge _ _ (by omega)]
      · simp [hyy, Ne.symm hyy]
    · rw [Plane.pixel_of_ge _ _ (by omega), Plane.pixel_of_ge _ _ (by omega)]
      rw [if_neg (by omega)]
  · rw [if_neg (by omega)]

/-- `togglePixel` leaves every other pixel (41_display.md rule R203). -/
theorem pixel_togglePixel (m : DrawMode) (p : Plane) (x y x' y' : Nat) :
    Plane.pixel (togglePixel m p x y).1 x' y' =
      if x' = x ∧ y' = y ∧ x < 128 ∧ y < 64 then m.apply (Plane.pixel p x y) else Plane.pixel p x' y' :=
  Plane.pixel_setPixel p x y _ x' y'

/-- In XOR mode the collision signal is that the pixel was on (41_display.md rule R203). -/
theorem togglePixel_hit (p : Plane) (x y : Nat) : (togglePixel .xor p x y).2 = Plane.pixel p x y := by
  unfold togglePixel
  cases Plane.pixel p x y <;> rfl

@[simp] theorem pixel_blankPlane (x y : Nat) : Plane.pixel blankPlane x y = false := by
  by_cases hy : y < 64
  · rw [Plane.pixel_of_lt _ _ hy]; simp [blankPlane]
  · exact Plane.pixel_of_ge _ _ (by omega)

/-! ## Scrolls (41_display.md rule R224) -/

theorem Plane.pixel_scrollDown (p : Plane) {bh : Nat} (hb : bh ≤ 64) (n x y : Nat) :
    Plane.pixel (Plane.scrollDown bh n p) x y =
      (decide (n ≤ y ∧ y < bh) && Plane.pixel p x (y - n)) := by
  by_cases hy : y < 64
  · rw [Plane.pixel_of_lt _ _ hy]
    simp only [Plane.scrollDown, Vector.getElem_ofFn]
    by_cases h : n ≤ y ∧ y < bh <;> simp [h, Plane.pixel]
  · rw [Plane.pixel_of_ge _ _ (by omega)]
    simp; omega

theorem Plane.pixel_scrollUp (p : Plane) {bh : Nat} (hb : bh ≤ 64) (n x y : Nat) :
    Plane.pixel (Plane.scrollUp bh n p) x y = (decide (y + n < bh) && Plane.pixel p x (y + n)) := by
  by_cases hy : y < 64
  · rw [Plane.pixel_of_lt _ _ hy]
    simp only [Plane.scrollUp, Vector.getElem_ofFn]
    by_cases h : y + n < bh <;> simp [h, Plane.pixel]
  · rw [Plane.pixel_of_ge _ _ (by omega)]
    simp; omega

theorem rowMask_getLsbD {bw : Nat} (hb : bw ≤ 128) (x : Nat) : (rowMask bw).getLsbD x = decide (x < bw) := by
  simp only [rowMask, BitVec.getLsbD_ushiftRight, BitVec.getLsbD_allOnes]
  congr 1
  apply propext
  omega

theorem Plane.pixel_scrollRight (p : Plane) {bw : Nat} (hb : bw ≤ 128) (n x y : Nat) :
    Plane.pixel (Plane.scrollRight bw n p) x y = (decide (n ≤ x ∧ x < bw) && Plane.pixel p (x - n) y) := by
  by_cases hy : y < 64
  · rw [Plane.pixel_of_lt _ _ hy, Plane.pixel_of_lt _ _ hy]
    simp only [Plane.scrollRight, Vector.getElem_ofFn, BitVec.getLsbD_and, BitVec.getLsbD_shiftLeft,
      rowMask_getLsbD hb]
    by_cases h1 : n ≤ x <;> by_cases h2 : x < bw <;> simp [h1, h2]
    omega
  · rw [Plane.pixel_of_ge _ _ (by omega), Plane.pixel_of_ge _ _ (by omega), Bool.and_false]

theorem Plane.pixel_scrollLeft (p : Plane) {bw : Nat} (hb : bw ≤ 128) (n x y : Nat) :
    Plane.pixel (Plane.scrollLeft bw n p) x y = (decide (x + n < bw) && Plane.pixel p (x + n) y) := by
  by_cases hy : y < 64
  · rw [Plane.pixel_of_lt _ _ hy, Plane.pixel_of_lt _ _ hy]
    simp only [Plane.scrollLeft, Vector.getElem_ofFn, BitVec.getLsbD_ushiftRight, BitVec.getLsbD_and,
      rowMask_getLsbD hb]
    rw [Nat.add_comm n x, Bool.and_comm]
  · rw [Plane.pixel_of_ge _ _ (by omega), Plane.pixel_of_ge _ _ (by omega), Bool.and_false]

/-! ## The buffer and the planes -/

theorem State.bufWidth_le (s : State) : s.bufWidth ≤ 128 := by
  unfold State.bufWidth State.width; repeat' split
  all_goals omega

theorem State.bufHeight_le (s : State) : s.bufHeight ≤ 64 := by
  unfold State.bufHeight State.height; repeat' split
  all_goals omega

/-- A change of the selected planes, plane by plane. -/
theorem State.planes_mapSelected (s : State) (f : Plane → Plane) (p : Fin 4) :
    (s.mapSelected f).planes[p.val] = if s.selected p then f s.planes[p.val] else s.planes[p.val] := by
  simp [State.mapSelected]

theorem State.planes_clearAll (s : State) (p : Fin 4) : s.clearAll.planes[p.val] = blankPlane := by
  simp

/-- A switch of the extended mode changes only `EXT` and, but on legacy SCHIP, the planes. -/
theorem State.setExt_frame (s : State) (e : Bool) :
    s.setExt e = { s with ext := e, planes := (s.setExt e).planes } := by
  unfold State.setExt; split <;> rfl

theorem State.planes_setExt (s : State) (e : Bool) (p : Fin 4) :
    (s.setExt e).planes[p.val] = if legacySchip s.variant then s.planes[p.val] else blankPlane := by
  unfold State.setExt
  split
  · rfl
  · exact s.planes_clearAll p

end Sys2Proof.Machine
end

