-- ==== Sys2Proof/Laws/Draw.lean ====
section
/-!
SUPPORT. The laws of the sprite rasterizer: a draw is the toggling of a list of distinct buffer pixels, so it flips
exactly the pixels the sprite covers, and it collides exactly where one of them was on (41_display.md rules R200 to
R210).
-/

namespace Sys2Proof.Machine

open Sys2Proof.Safety

/-! ## Toggling a list of pixels -/

/-- The pixel at a pair of coordinates. -/
def Plane.at (p : Plane) (q : Nat × Nat) : Bool := Plane.pixel p q.1 q.2

theorem toggleBlock_append (m : DrawMode) (qs rs : List (Nat × Nat)) :
    ∀ a : Plane × Bool, toggleBlock m (qs ++ rs) a = toggleBlock m rs (toggleBlock m qs a) := by
  induction qs with
  | nil => intro a; rfl
  | cons q qs ih => intro a; exact ih _

/-- A list of pixels that is not listed with `q` leaves `q`, in every draw mode. -/
theorem toggleBlock_other (m : DrawMode) (qs : List (Nat × Nat)) :
    ∀ (a : Plane × Bool) (q : Nat × Nat), q ∉ qs → (toggleBlock m qs a).1.at q = a.1.at q := by
  induction qs with
  | nil => intro a q _; rfl
  | cons r qs ih =>
    intro a q h
    simp only [List.mem_cons, not_or] at h
    rw [toggleBlock, ih _ _ h.2]
    simp only [Plane.at, pixel_togglePixel]
    rw [if_neg]
    intro hc
    exact h.1 (Prod.ext hc.1 hc.2.1)

/-- In XOR mode each listed pixel of the storage flips. -/
theorem toggleBlock_mem (qs : List (Nat × Nat)) :
    ∀ (a : Plane × Bool) (q : Nat × Nat), qs.Nodup → q ∈ qs → q.1 < 128 → q.2 < 64 →
      (toggleBlock .xor qs a).1.at q = !a.1.at q := by
  induction qs with
  | nil => intro a q _ h; exact absurd h List.not_mem_nil
  | cons r qs ih =>
    intro a q hn h hx hy
    rw [List.nodup_cons] at hn
    rcases List.mem_cons.mp h with rfl | h
    · rw [toggleBlock, toggleBlock_other _ _ _ _ hn.1]
      simp [Plane.at, pixel_togglePixel, hx, hy, DrawMode.apply]
    · rw [toggleBlock, ih _ _ hn.2 h hx hy]
      simp only [Plane.at, pixel_togglePixel]
      rw [if_neg]
      intro hc
      exact hn.1 ((Prod.ext hc.1 hc.2.1 : q = r) ▸ h)

/-- In XOR mode a collision is that a listed pixel was on. -/
theorem toggleBlock_hit (qs : List (Nat × Nat)) :
    ∀ a : Plane × Bool, qs.Nodup →
      ((toggleBlock .xor qs a).2 = true ↔ a.2 = true ∨ ∃ q ∈ qs, a.1.at q = true) := by
  induction qs with
  | nil => intro a _; simp [toggleBlock]
  | cons r qs ih =>
    intro a hn
    rw [List.nodup_cons] at hn
    rw [toggleBlock, ih _ hn.2]
    simp only [togglePixel_hit, Bool.or_eq_true, List.mem_cons, exists_eq_or_imp, or_assoc]
    have : (∃ q ∈ qs, (togglePixel .xor a.1 r.1 r.2).1.at q = true) ↔ ∃ q ∈ qs, a.1.at q = true := by
      refine exists_congr fun q => and_congr_right fun hq => ?_
      simp only [Plane.at, pixel_togglePixel]
      rw [if_neg]
      intro hc
      exact hn.1 ((Prod.ext hc.1 hc.2.1 : q = r) ▸ hq)
    rw [this]
    rfl

/-! ## The pixels of a block, a row and a line of the sprite -/

theorem mem_blockPixels {scale : Nat} (hs : 0 < scale) (xx yy : Nat) (q : Nat × Nat) :
    q ∈ blockPixels scale xx yy ↔ q.1 / scale = xx ∧ q.2 / scale = yy := by
  obtain ⟨x, y⟩ := q
  simp only [blockPixels, List.mem_flatMap, List.mem_map, List.mem_range, Prod.mk.injEq]
  constructor
  · rintro ⟨dy, hdy, dx, hdx, rfl, rfl⟩
    rw [Nat.mul_add_div hs, Nat.mul_add_div hs, Nat.div_eq_of_lt hdx, Nat.div_eq_of_lt hdy]
    exact ⟨rfl, rfl⟩
  · rintro ⟨rfl, rfl⟩
    exact ⟨y % scale, Nat.mod_lt _ hs, x % scale, Nat.mod_lt _ hs, Nat.div_add_mod _ _, Nat.div_add_mod _ _⟩

theorem blockPixels_nodup (scale xx yy : Nat) : (blockPixels scale xx yy).Nodup := by
  rw [blockPixels, List.nodup_flatMap]
  refine ⟨fun dy _ => ?_, ?_⟩
  · refine List.Nodup.map ?_ List.nodup_range
    intro a b h
    have := (Prod.mk.inj h).1
    omega
  · refine List.Pairwise.imp_of_mem ?_ List.nodup_range
    intro a b _ _ hab
    rw [Function.onFun, List.disjoint_left]
    intro q hq hq'
    simp only [List.mem_map] at hq hq'
    obtain ⟨_, _, rfl⟩ := hq
    obtain ⟨_, _, h⟩ := hq'
    have := (Prod.mk.inj h).2
    omega

/-- The pixels of column `c` of a row drawn at the logical row `yy`. -/
def colPixels (d : DrawSetup) (bit : Nat → Bool) (yy c : Nat) : List (Nat × Nat) :=
  if bit c then
    if d.x0 + c < d.w then blockPixels d.scale (d.x0 + c) yy
    else if d.wrap then blockPixels d.scale ((d.x0 + c) % d.w) yy
    else []
  else []

theorem drawCols_eq (d : DrawSetup) (bit : Nat → Bool) (yy : Nat) (cs : List Nat) :
    ∀ a, drawCols d bit yy cs a = toggleBlock d.mode (cs.flatMap (colPixels d bit yy)) a := by
  induction cs with
  | nil => intro a; rfl
  | cons c cs ih =>
    intro a
    rw [List.flatMap_cons, toggleBlock_append, drawCols, colPixels]
    split
    · split
      · exact ih _
      · split
        · exact ih _
        · exact ih _
    · exact ih _

/-- The bounds every draw works in (10_state.md rule R50; 41_display.md rules R201, R202, R207). -/
structure DrawBounds (d : DrawSetup) : Prop where
  scale_pos : 0 < d.scale
  cols_le : d.cols ≤ d.w
  rows_le : d.rows ≤ d.h
  x0_lt : d.x0 < d.w
  y0_lt : d.y0 < d.h
  width : d.scale * d.w ≤ 128
  height : d.scale * d.h ≤ 64

theorem State.drawSetup_bounds (s : State) (x y : RegIx) (n : Nibble) : DrawBounds (s.drawSetup x y n) := by
  have hw : 64 ≤ s.width := by unfold State.width; split <;> omega
  have hh : 32 ≤ s.height := by unfold State.height; split <;> omega
  have hn := n.isLt
  have hg : (spriteGeometry s.variant n).1 ≤ 16 ∧ (spriteGeometry s.variant n).2.1 ≤ 16 := by
    unfold spriteGeometry; repeat' split
    all_goals simp
    all_goals omega
  refine ⟨?_, ?_, ?_, Nat.mod_lt _ (by omega), Nat.mod_lt _ (by omega), ?_, ?_⟩
  · simp only [State.drawSetup]; split <;> omega
  · simp only [State.drawSetup]; omega
  · simp only [State.drawSetup]; omega
  · simp only [State.drawSetup, State.width]
    cases s.ext <;> cases legacySchip s.variant <;> simp
  · simp only [State.drawSetup, State.height]
    cases s.ext <;> cases legacySchip s.variant <;> simp

/-- The scale times the logical size is the size of the buffer (10_state.md rule R50). -/
theorem State.drawSetup_buffer (s : State) (x y : RegIx) (n : Nibble) :
    (s.drawSetup x y n).scale * (s.drawSetup x y n).w = s.bufWidth ∧
      (s.drawSetup x y n).scale * (s.drawSetup x y n).h = s.bufHeight := by
  simp only [State.drawSetup, State.bufWidth, State.bufHeight, State.width, State.height]
  cases s.ext <;> cases legacySchip s.variant <;> simp

theorem mem_colPixels {d : DrawSetup} (hs : 0 < d.scale) (bit : Nat → Bool) (yy c : Nat) (q : Nat × Nat) :
    q ∈ colPixels d bit yy c ↔ q.2 / d.scale = yy ∧ colAt d c (q.1 / d.scale) ∧ bit c = true := by
  unfold colPixels colAt
  by_cases hb : bit c = true
  · rw [if_pos hb]
    by_cases hx : d.x0 + c < d.w
    · rw [if_pos hx, mem_blockPixels hs]
      simp only [hb, hx, Nat.not_le.mpr hx, true_and, false_and, or_false, and_comm]
    · rw [if_neg hx]
      by_cases hwr : d.wrap = true
      · rw [if_pos hwr, mem_blockPixels hs]; simp [hb, hx, hwr]; omega
      · rw [if_neg hwr]; simp [hx, hwr]
  · rw [if_neg hb]; simp [hb]

/-- Two columns of a sprite are drawn at different logical columns. -/
theorem colAt_inj {d : DrawSetup} (hd : DrawBounds d) {c c' xx : Nat} (hc : c < d.cols) (hc' : c' < d.cols)
    (h : colAt d c xx) (h' : colAt d c' xx) : c = c' := by
  have h1 := hd.cols_le; have h2 := hd.x0_lt
  unfold colAt at h h'
  have key : ∀ k, k < d.cols → d.w ≤ d.x0 + k → (d.x0 + k) % d.w = d.x0 + k - d.w := fun k hk hge => by
    rw [Nat.mod_eq_sub_mod hge, Nat.mod_eq_of_lt (by omega)]
  rcases h with ⟨ha, hb⟩ | ⟨ha, _, hb⟩ <;> rcases h' with ⟨ha', hb'⟩ | ⟨ha', _, hb'⟩
  · omega
  · rw [key _ hc' ha'] at hb'; omega
  · rw [key _ hc ha] at hb; omega
  · rw [key _ hc ha] at hb; rw [key _ hc' ha'] at hb'; omega

/-- Two rows of a sprite are drawn at different logical rows. -/
theorem rowAt_inj {d : DrawSetup} (hd : DrawBounds d) {r r' yy : Nat} (hr : r < d.rows) (hr' : r' < d.rows)
    (h : rowAt d r yy) (h' : rowAt d r' yy) : r = r' := by
  have h1 := hd.rows_le; have h2 := hd.y0_lt
  unfold rowAt at h h'
  have key : ∀ k, k < d.rows → d.h ≤ d.y0 + k → (d.y0 + k) % d.h = d.y0 + k - d.h := fun k hk hge => by
    rw [Nat.mod_eq_sub_mod hge, Nat.mod_eq_of_lt (by omega)]
  rcases h with ⟨ha, hb⟩ | ⟨ha, _, _, hb⟩ <;> rcases h' with ⟨ha', hb'⟩ | ⟨ha', _, _, hb'⟩
  · omega
  · rw [key _ hr' ha'] at hb'; omega
  · rw [key _ hr ha] at hb; omega
  · rw [key _ hr ha] at hb; rw [key _ hr' ha'] at hb'; omega

theorem rowAt_lt {d : DrawSetup} (hd : DrawBounds d) {r yy : Nat} (h : rowAt d r yy) : yy < d.h := by
  rcases h with ⟨ha, rfl⟩ | ⟨_, _, _, rfl⟩
  · exact ha
  · exact Nat.mod_lt _ (Nat.lt_of_le_of_lt (Nat.zero_le _) hd.y0_lt)

theorem colAt_lt {d : DrawSetup} (hd : DrawBounds d) {c xx : Nat} (h : colAt d c xx) : xx < d.w := by
  rcases h with ⟨ha, rfl⟩ | ⟨_, _, rfl⟩
  · exact ha
  · exact Nat.mod_lt _ (Nat.lt_of_le_of_lt (Nat.zero_le _) hd.x0_lt)

/-- The pixels of one row drawn at the logical row `yy`. -/
def rowPixels (d : DrawSetup) (bit : Nat → Bool) (yy : Nat) : List (Nat × Nat) :=
  (List.range d.cols).flatMap (colPixels d bit yy)

theorem mem_rowPixels {d : DrawSetup} (hs : 0 < d.scale) (bit : Nat → Bool) (yy : Nat) (q : Nat × Nat) :
    q ∈ rowPixels d bit yy ↔
      q.2 / d.scale = yy ∧ ∃ c, c < d.cols ∧ colAt d c (q.1 / d.scale) ∧ bit c = true := by
  simp only [rowPixels, List.mem_flatMap, List.mem_range, mem_colPixels hs]
  constructor
  · rintro ⟨c, hc, hy, hx, hb⟩; exact ⟨hy, c, hc, hx, hb⟩
  · rintro ⟨hy, c, hc, hx, hb⟩; exact ⟨c, hc, hy, hx, hb⟩

theorem rowPixels_nodup {d : DrawSetup} (hd : DrawBounds d) (bit : Nat → Bool) (yy : Nat) :
    (rowPixels d bit yy).Nodup := by
  rw [rowPixels, List.nodup_flatMap]
  refine ⟨fun c _ => ?_, ?_⟩
  · unfold colPixels
    split
    · split
      · exact blockPixels_nodup _ _ _
      · split
        · exact blockPixels_nodup _ _ _
        · exact List.nodup_nil
    · exact List.nodup_nil
  · refine List.Pairwise.imp_of_mem ?_ List.nodup_range
    intro c c' hc hc' hne
    rw [Function.onFun, List.disjoint_left]
    intro q hq hq'
    rw [mem_colPixels hd.scale_pos] at hq hq'
    exact hne (colAt_inj hd (List.mem_range.mp hc) (List.mem_range.mp hc') hq.2.1 hq'.2.1)

/-! ## The rows of a sprite in one plane -/

/-- A set bit of row `r`, read through `byteAt`, is drawn over the pixel `q`. -/
def lineCovers (d : DrawSetup) (byteAt : Nat → Byte) (r : Nat) (q : Nat × Nat) : Prop :=
  rowAt d r (q.2 / d.scale) ∧
    ∃ c, c < d.cols ∧ colAt d c (q.1 / d.scale) ∧ spriteBit d byteAt r c = true

/-- A covered pixel lies in the buffer. -/
theorem lineCovers_lt {d : DrawSetup} (hd : DrawBounds d) {byteAt : Nat → Byte} {r : Nat} {q : Nat × Nat}
    (h : lineCovers d byteAt r q) : q.1 < d.scale * d.w ∧ q.2 < d.scale * d.h := by
  obtain ⟨hr, c, _, hc, _⟩ := h
  have h1 := rowAt_lt hd hr
  have h2 := colAt_lt hd hc
  rw [Nat.div_lt_iff_lt_mul hd.scale_pos] at h1 h2
  rw [Nat.mul_comm] at h1 h2
  exact ⟨h2, h1⟩

/-- One row drawn: it flips its pixels, collides where one was on, and counts itself if it collided. -/
theorem drawRow_spec {d : DrawSetup} (hd : DrawBounds d) (hm : d.mode = .xor) (byteAt : Nat → Byte) {r yy : Nat}
    (hy : rowAt d r yy) (a : DrawAcc) :
    (∀ q, lineCovers d byteAt r q → (drawRow d byteAt r yy a).plane.at q = !a.plane.at q) ∧
    (∀ q, ¬lineCovers d byteAt r q → (drawRow d byteAt r yy a).plane.at q = a.plane.at q) ∧
    ((drawRow d byteAt r yy a).hit = true ↔
      a.hit = true ∨ ∃ q, lineCovers d byteAt r q ∧ a.plane.at q = true) ∧
    ((∃ q, lineCovers d byteAt r q ∧ a.plane.at q = true) →
      (drawRow d byteAt r yy a).count = a.count + 1) ∧
    ((¬∃ q, lineCovers d byteAt r q ∧ a.plane.at q = true) → (drawRow d byteAt r yy a).count = a.count) := by
  have hyu : ∀ yy', rowAt d r yy' ↔ yy' = yy := by
    intro yy'
    unfold rowAt at *
    constructor
    · intro h; rcases h with ⟨h1, h2⟩ | ⟨h1, _, _, h2⟩ <;> rcases hy with ⟨h3, h4⟩ | ⟨h3, _, _, h4⟩ <;> omega
    · rintro rfl; exact hy
  have hmem : ∀ q, q ∈ rowPixels d (spriteBit d byteAt r) yy ↔ lineCovers d byteAt r q := by
    intro q
    rw [mem_rowPixels hd.scale_pos, lineCovers, hyu]
  have hn := rowPixels_nodup hd (spriteBit d byteAt r) yy
  have heq : drawCols d (spriteBit d byteAt r) yy (List.range d.cols) (a.plane, false) =
      toggleBlock .xor (rowPixels d (spriteBit d byteAt r) yy) (a.plane, false) := by
    rw [drawCols_eq, hm]; rfl
  have hhit : (toggleBlock .xor (rowPixels d (spriteBit d byteAt r) yy) (a.plane, false)).2 = true ↔
      ∃ q, lineCovers d byteAt r q ∧ a.plane.at q = true := by
    rw [toggleBlock_hit _ _ hn]
    simp only [Bool.false_eq_true, false_or, hmem]
  simp only [drawRow, heq]
  refine ⟨fun q hq => ?_, fun q hq => ?_, ?_, fun h => ?_, fun h => ?_⟩
  · have hl := lineCovers_lt hd hq
    exact toggleBlock_mem _ _ _ hn ((hmem q).mpr hq) (lt_of_lt_of_le hl.1 hd.width)
      (lt_of_lt_of_le hl.2 hd.height)
  · exact toggleBlock_other _ _ _ _ fun hc => hq ((hmem q).mp hc)
  · rw [Bool.or_eq_true, hhit]
  · rw [if_pos (hhit.mpr h)]
  · rw [if_neg fun hc => h (hhit.mp hc)]; rfl

/-- Whether a row adds to the count: it lies past the bottom, or one of its pixels goes off. -/
def lineCounts (d : DrawSetup) (byteAt : Nat → Byte) (p : Plane) (r : Nat) : Prop :=
  (d.counting = true ∧ d.h ≤ d.y0 + r) ∨ ∃ q, lineCovers d byteAt r q ∧ p.at q = true

open Classical in
/-- The rows of a sprite drawn into one plane: they flip the pixels they cover, collide where one was on, and count
themselves. -/
theorem drawRows_spec {d : DrawSetup} (hd : DrawBounds d) (hm : d.mode = .xor) (byteAt : Nat → Byte)
    (rs : List Nat) :
    ∀ a : DrawAcc, rs.Pairwise (· < ·) → (∀ r ∈ rs, r < d.rows) →
      (∀ q, (∃ r ∈ rs, lineCovers d byteAt r q) → (drawRows d byteAt rs a).plane.at q = !a.plane.at q) ∧
      (∀ q, (¬∃ r ∈ rs, lineCovers d byteAt r q) → (drawRows d byteAt rs a).plane.at q = a.plane.at q) ∧
      ((drawRows d byteAt rs a).hit = true ↔
        a.hit = true ∨ ∃ q, (∃ r ∈ rs, lineCovers d byteAt r q) ∧ a.plane.at q = true) ∧
      (drawRows d byteAt rs a).count = a.count + (rs.filter fun r => lineCounts d byteAt a.plane r).length := by
  induction rs with
  | nil => intro a _ _; simp [drawRows]
  | cons r rs ih =>
    intro a hpw hlt
    rw [List.pairwise_cons] at hpw
    have hr := hlt r (by simp)
    have hlt' : ∀ r' ∈ rs, r' < d.rows := fun r' h => hlt r' (by simp [h])
    -- a row that is drawn
    have drawn : ∀ yy, rowAt d r yy →
        drawRows d byteAt (r :: rs) a = drawRows d byteAt rs (drawRow d byteAt r yy a) →
        ¬(d.counting = true ∧ d.h ≤ d.y0 + r) → _ := fun yy hyy heq hnc => by
      have h1 := drawRow_spec hd hm byteAt hyy a
      have h2 := ih (drawRow d byteAt r yy a) hpw.2 hlt'
      have hdisj : ∀ q, lineCovers d byteAt r q → ¬∃ r' ∈ rs, lineCovers d byteAt r' q := by
        rintro q hq ⟨r', hr', hq'⟩
        exact absurd (rowAt_inj hd hr (hlt' r' hr') hq.1 hq'.1) (Nat.ne_of_lt (hpw.1 r' hr'))
      have hsame : ∀ q, (∃ r' ∈ rs, lineCovers d byteAt r' q) →
          (drawRow d byteAt r yy a).plane.at q = a.plane.at q :=
        fun q hq => h1.2.1 q fun hc => hdisj q hc hq
      have hcount : ∀ r' ∈ rs, (lineCounts d byteAt (drawRow d byteAt r yy a).plane r' ↔
          lineCounts d byteAt a.plane r') := by
        intro r' hr'
        unfold lineCounts
        refine or_congr_right (exists_congr fun q => and_congr_right fun hq => ?_)
        rw [hsame q ⟨r', hr', hq⟩]
      exact (show
        (∀ q, (∃ r' ∈ r :: rs, lineCovers d byteAt r' q) →
          (drawRows d byteAt (r :: rs) a).plane.at q = !a.plane.at q) ∧
        (∀ q, (¬∃ r' ∈ r :: rs, lineCovers d byteAt r' q) →
          (drawRows d byteAt (r :: rs) a).plane.at q = a.plane.at q) ∧
        ((drawRows d byteAt (r :: rs) a).hit = true ↔
          a.hit = true ∨ ∃ q, (∃ r' ∈ r :: rs, lineCovers d byteAt r' q) ∧ a.plane.at q = true) ∧
        (drawRows d byteAt (r :: rs) a).count =
          a.count + ((r :: rs).filter fun r => lineCounts d byteAt a.plane r).length from by
        rw [heq]
        refine ⟨fun q hq => ?_, fun q hq => ?_, ?_, ?_⟩
        · simp only [List.mem_cons, exists_eq_or_imp] at hq
          by_cases hq' : ∃ r' ∈ rs, lineCovers d byteAt r' q
          · rw [h2.1 q hq', hsame q hq']
          · rw [h2.2.1 q hq', h1.1 q (hq.resolve_right hq')]
        · simp only [List.mem_cons, exists_eq_or_imp, not_or] at hq
          rw [h2.2.1 q hq.2, h1.2.1 q hq.1]
        · rw [h2.2.2.1, h1.2.2.1, or_assoc]
          refine or_congr_right ?_
          constructor
          · rintro (⟨q, hq, ho⟩ | ⟨q, hq, ho⟩)
            · exact ⟨q, ⟨r, by simp, hq⟩, ho⟩
            · rw [hsame q hq] at ho
              obtain ⟨r', hr', hq⟩ := hq
              exact ⟨q, ⟨r', by simp [hr'], hq⟩, ho⟩
          · rintro ⟨q, ⟨r', hr', hq⟩, ho⟩
            rcases List.mem_cons.mp hr' with rfl | hr'
            · exact .inl ⟨q, hq, ho⟩
            · exact .inr ⟨q, ⟨r', hr', hq⟩, by rw [hsame q ⟨r', hr', hq⟩]; exact ho⟩
        · rw [h2.2.2.2, List.filter_cons]
          have hf : (rs.filter fun r' => lineCounts d byteAt (drawRow d byteAt r yy a).plane r') =
              rs.filter fun r' => lineCounts d byteAt a.plane r' := by
            apply List.filter_congr
            intro r' hr'
            exact decide_eq_decide.mpr (hcount r' hr')
          rw [hf]
          by_cases hc : ∃ q, lineCovers d byteAt r q ∧ a.plane.at q = true
          · rw [h1.2.2.2.1 hc, if_pos (decide_eq_true (.inr hc)), List.length_cons]; omega
          · rw [h1.2.2.2.2 hc, if_neg (by
              rw [decide_eq_true_eq]; exact fun h => h.elim hnc hc)])
    -- a row past the bottom that is not drawn
    have notAt : d.h ≤ d.y0 + r → (d.counting = true ∨ d.wrap = false) → ∀ q, ¬lineCovers d byteAt r q := by
      intro hge hcw q hq
      rcases hq.1 with ⟨h1, _⟩ | ⟨_, h1, h2, _⟩
      · omega
      · rcases hcw with h | h
        · rw [h1] at h; cases h
        · rw [h2] at h; cases h
    by_cases hlow : d.y0 + r < d.h
    · exact drawn (d.y0 + r) (.inl ⟨hlow, rfl⟩) (by rw [drawRows, if_pos hlow]) (by omega)
    · have hge : d.h ≤ d.y0 + r := by omega
      by_cases hcnt : d.counting = true
      · have hna := notAt hge (.inl hcnt)
        have h2 := ih { a with count := a.count + 1 } hpw.2 hlt'
        have heq : drawRows d byteAt (r :: rs) a = drawRows d byteAt rs { a with count := a.count + 1 } := by
          rw [drawRows, if_neg hlow, if_pos hcnt]
        rw [heq]
        simp only [List.mem_cons, exists_eq_or_imp, hna, false_or]
        refine ⟨h2.1, h2.2.1, h2.2.2.1, ?_⟩
        rw [h2.2.2.2, List.filter_cons, if_pos (decide_eq_true (.inl ⟨hcnt, hge⟩)), List.length_cons]
        simp only; omega
      · by_cases hwr : d.wrap = true
        · exact drawn ((d.y0 + r) % d.h) (.inr ⟨hge, by simpa using hcnt, hwr, rfl⟩)
            (by rw [drawRows, if_neg hlow, if_neg hcnt, if_pos hwr]) (fun h => hcnt h.1)
        · have hall : ∀ r' ∈ r :: rs, ∀ q, ¬lineCovers d byteAt r' q := by
            intro r' hr' q hq
            have : r ≤ r' := by
              rcases List.mem_cons.mp hr' with rfl | hr'
              · exact Nat.le_refl _
              · exact Nat.le_of_lt (hpw.1 r' hr')
            rcases hq.1 with ⟨h1, _⟩ | ⟨_, _, h2, _⟩
            · omega
            · exact hwr h2
          have heq : drawRows d byteAt (r :: rs) a = a := by
            rw [drawRows, if_neg hlow, if_neg hcnt, if_neg hwr]
          rw [heq]
          refine ⟨?_, fun _ _ => rfl, ?_, ?_⟩
          · rintro q ⟨r', hr', hq⟩; exact absurd hq (hall r' hr' q)
          · constructor
            · exact .inl
            · rintro (h | ⟨q, ⟨r', hr', hq⟩, _⟩)
              · exact h
              · exact absurd hq (hall r' hr' q)
          · have : ((r :: rs).filter fun r => lineCounts d byteAt a.plane r) = [] := by
              rw [List.filter_eq_nil_iff]
              intro r' hr'
              rw [decide_eq_true_eq]
              rintro (h | ⟨q, hq, _⟩)
              · exact hcnt h.1
              · exact hall r' hr' q hq
            rw [this]; rfl

/-! ## All selected planes (41_display.md rule R209) -/

/-- The bytes of the `j`-th slice of the sprite at `I`. -/
def State.slice (s : State) (d : DrawSetup) (j off : Nat) : Byte :=
  s.read (s.i + BitVec.ofNat 24 (j * (d.rows * d.bytesPerRow) + off))

/-- The `j`-th slice is drawn over the pixel `q`. -/
def State.sliceCovers (s : State) (d : DrawSetup) (j : Nat) (q : Nat × Nat) : Prop :=
  ∃ r ∈ List.range d.rows, lineCovers d (s.slice d j) r q

/-- A draw into the listed planes, the first of them from the `j`-th slice. -/
theorem drawPlanes_spec (s : State) {d : DrawSetup} (hd : DrawBounds d) (hm : d.mode = .xor)
    (ps : List (Fin 4)) :
    ∀ (j : Nat) (a : DrawResult), ps.Nodup →
      (∀ k p q, ps[k]? = some p → s.sliceCovers d (j + k) q →
        (drawPlanes s d ps j a).planes[p.val].at q = !a.planes[p.val].at q) ∧
      (∀ k p q, ps[k]? = some p → ¬s.sliceCovers d (j + k) q →
        (drawPlanes s d ps j a).planes[p.val].at q = a.planes[p.val].at q) ∧
      (∀ p, p ∉ ps → (drawPlanes s d ps j a).planes[p.val] = a.planes[p.val]) ∧
      ((drawPlanes s d ps j a).hit = true ↔
        a.hit = true ∨ ∃ k p q, ps[k]? = some p ∧ s.sliceCovers d (j + k) q ∧ a.planes[p.val].at q = true) := by
  induction ps with
  | nil => intro j a _; simp [drawPlanes]
  | cons p ps ih =>
    intro j a hn
    rw [List.nodup_cons] at hn
    have h1 := drawRows_spec hd hm (s.slice d j) (List.range d.rows)
      { plane := a.planes[p.val], hit := a.hit, count := a.count } List.pairwise_lt_range
      (fun r hr => List.mem_range.mp hr)
    generalize htd : drawRows d (s.slice d j) (List.range d.rows)
      { plane := a.planes[p.val], hit := a.hit, count := a.count } = t at h1
    have heq : drawPlanes s d (p :: ps) j a =
        drawPlanes s d ps (j + 1) { planes := a.planes.set p.val t.plane, hit := t.hit, count := t.count } := by
      rw [← htd]; rfl
    have h2 := ih (j + 1) { planes := a.planes.set p.val t.plane, hit := t.hit, count := t.count } hn.2
    have hset : ∀ p' : Fin 4, p' ≠ p → (a.planes.set p.val t.plane)[p'.val] = a.planes[p'.val] := by
      intro p' hne
      rw [Vector.getElem_set_ne]
      exact fun h => hne (Fin.ext h.symm)
    have hin : ∀ (k : Nat) (p' : Fin 4), ps[k]? = some p' → p' ≠ p := by
      rintro k p' hk rfl
      exact hn.1 (List.mem_of_getElem? hk)
    have hnew : (drawPlanes s d (p :: ps) j a).planes[p.val] = t.plane := by
      rw [heq, h2.2.2.1 p hn.1]; simp
    have hshift : ∀ k, j + 1 + k = j + (k + 1) := fun k => by omega
    refine ⟨fun k p' q hk hc => ?_, fun k p' q hk hc => ?_, fun p' hp' => ?_, ?_⟩
    · cases k with
      | zero =>
        rw [List.getElem?_cons_zero, Option.some_inj] at hk
        subst hk
        rw [hnew]
        exact h1.1 q hc
      | succ k =>
        rw [List.getElem?_cons_succ] at hk
        rw [heq, h2.1 k p' q hk (by rw [hshift]; exact hc), hset p' (hin k p' hk)]
    · cases k with
      | zero =>
        rw [List.getElem?_cons_zero, Option.some_inj] at hk
        subst hk
        rw [hnew]
        exact h1.2.1 q hc
      | succ k =>
        rw [List.getElem?_cons_succ] at hk
        rw [heq, h2.2.1 k p' q hk (by rw [hshift]; exact hc), hset p' (hin k p' hk)]
    · rw [List.mem_cons, not_or] at hp'
      rw [heq, h2.2.2.1 p' hp'.2, hset p' hp'.1]
    · rw [heq, h2.2.2.2]
      simp only
      rw [h1.2.2.1, or_assoc]
      refine or_congr_right ?_
      constructor
      · rintro (⟨q, hq, ho⟩ | ⟨k, p', q, hk, hq, ho⟩)
        · exact ⟨0, p, q, rfl, hq, ho⟩
        · rw [hset p' (hin k p' hk)] at ho
          exact ⟨k + 1, p', q, hk, by rw [← hshift]; exact hq, ho⟩
      · rintro ⟨k, p', q, hk, hq, ho⟩
        cases k with
        | zero =>
          rw [List.getElem?_cons_zero, Option.some_inj] at hk
          subst hk
          exact .inl ⟨q, hq, ho⟩
        | succ k =>
          rw [List.getElem?_cons_succ] at hk
          exact .inr ⟨k, p', q, hk, by rw [hshift]; exact hq, by rw [hset p' (hin k p' hk)]; exact ho⟩

theorem State.mem_selectedPlanes (s : State) (p : Fin 4) : p ∈ s.selectedPlanes ↔ s.selected p = true := by
  have : p ∈ [0, 1, 2, 3] := by revert p; decide
  simp [State.selectedPlanes, this]

theorem State.selectedPlanes_nodup (s : State) : s.selectedPlanes.Nodup :=
  List.Nodup.filter _ (by decide)

/-- A selected plane takes as many slices further on as there are selected planes below it. -/
theorem State.selectedPlanes_index (s : State) (k : Nat) (p : Fin 4) (h : s.selectedPlanes[k]? = some p) :
    (s.selectedPlanes.filter fun q => q < p).length = k := by
  have key : ∀ (b : Fin 4 → Bool) (k p : Fin 4), ([0, 1, 2, 3].filter b)[k.val]? = some p →
      (([0, 1, 2, 3].filter b).filter fun q => q < p).length = k.val := by
    intro b
    have hb : b = ![b 0, b 1, b 2, b 3] := by
      funext i; revert i; simp [Fin.forall_fin_succ]
    rw [hb]
    generalize b 0 = b0, b 1 = b1, b 2 = b2, b 3 = b3
    revert b0 b1 b2 b3
    decide
  have hk : k < 4 := by
    have h1 := (List.getElem?_eq_some_iff.mp h).1
    have h2 : s.selectedPlanes.length ≤ 4 := List.length_filter_le _ _
    omega
  exact key s.selected ⟨k, hk⟩ p h

/-- The slice of a selected plane is the one `sliceByte` reads. -/
theorem State.sliceCovers_iff (s : State) (d : DrawSetup) (k : Nat) (p : Fin 4) (q : Nat × Nat)
    (h : s.selectedPlanes[k]? = some p) : s.sliceCovers d k q ↔ spriteCovers s d p q.1 q.2 := by
  have hk := s.selectedPlanes_index k p h
  have hsel := (s.mem_selectedPlanes p).mp (List.mem_of_getElem? h)
  have hs : s.slice d k = sliceByte s d p := by
    funext off
    rw [State.slice, sliceByte, hk]
  simp only [State.sliceCovers, spriteCovers, hsel, true_and, List.mem_range, hs]
  rfl

/-- A draw flips the pixels the sprite covers, leaves every other, and hits where a covered pixel was on. -/
theorem State.drawSprite_spec (s : State) (x y : RegIx) (n : Nibble) (hm : s.dmode = .xor) :
    (∀ p bx py, spriteCovers s (s.drawSetup x y n) p bx py →
      Plane.pixel (s.drawSprite x y n).planes[p.val] bx py = !pixelOf s p bx py) ∧
    (∀ p bx py, ¬spriteCovers s (s.drawSetup x y n) p bx py →
      Plane.pixel (s.drawSprite x y n).planes[p.val] bx py = pixelOf s p bx py) ∧
    ((s.drawSprite x y n).hit = true ↔
      ∃ p bx py, spriteCovers s (s.drawSetup x y n) p bx py ∧ pixelOf s p bx py = true) := by
  have h := drawPlanes_spec s (s.drawSetup_bounds x y n) hm s.selectedPlanes 0
    { planes := s.planes, hit := false, count := 0 } s.selectedPlanes_nodup
  simp only [Nat.zero_add] at h
  have hidx : ∀ p, s.selected p = true → ∃ k : Nat, s.selectedPlanes[k]? = some p := fun p hp =>
    List.mem_iff_getElem?.mp ((s.mem_selectedPlanes p).mpr hp)
  refine ⟨fun p bx py hc => ?_, fun p bx py hc => ?_, ?_⟩
  · obtain ⟨k, hk⟩ := hidx p hc.1
    exact h.1 k p (bx, py) hk ((s.sliceCovers_iff _ k p (bx, py) hk).mpr hc)
  · by_cases hp : s.selected p = true
    · obtain ⟨k, hk⟩ := hidx p hp
      exact h.2.1 k p (bx, py) hk fun hcc => hc ((s.sliceCovers_iff _ k p (bx, py) hk).mp hcc)
    · have := h.2.2.1 p fun hm => hp ((s.mem_selectedPlanes p).mp hm)
      exact congrArg (fun pl => Plane.pixel pl bx py) this
  · rw [State.drawSprite, h.2.2.2]
    simp only [Bool.false_eq_true, false_or]
    constructor
    · rintro ⟨k, p, q, hk, hq, ho⟩
      exact ⟨p, q.1, q.2, (s.sliceCovers_iff _ k p q hk).mp hq, ho⟩
    · rintro ⟨p, bx, py, hc, ho⟩
      obtain ⟨k, hk⟩ := hidx p hc.1
      exact ⟨k, p, (bx, py), hk, (s.sliceCovers_iff _ k p (bx, py) hk).mpr hc, ho⟩

/-- A covered pixel is a pixel of the buffer of a selected plane. -/
theorem spriteCovers_lt (s : State) (x y : RegIx) (n : Nibble) {p : Fin 4} {bx py : Nat}
    (h : spriteCovers s (s.drawSetup x y n) p bx py) :
    s.selected p = true ∧ bx < s.bufWidth ∧ py < s.bufHeight := by
  obtain ⟨hp, r, _, hr⟩ := h
  have hl := lineCovers_lt (s.drawSetup_bounds x y n) (q := (bx, py)) hr
  rw [(s.drawSetup_buffer x y n).1, (s.drawSetup_buffer x y n).2] at hl
  exact ⟨hp, hl⟩

open Classical in
/-- The count of a draw into plane 0 alone (41_display.md rules R204, R208). -/
theorem State.drawSprite_count (s : State) (x y : RegIx) (n : Nibble) (hm : s.dmode = .xor)
    (hs : s.selectedPlanes = [0]) :
    (s.drawSprite x y n).count = ((List.range (s.drawSetup x y n).rows).filter fun r =>
      lineCounts (s.drawSetup x y n) (s.slice (s.drawSetup x y n) 0) s.planes[0] r).length := by
  rw [State.drawSprite, hs]
  have := (drawRows_spec (s.drawSetup_bounds x y n) hm (s.slice (s.drawSetup x y n) 0)
    (List.range (s.drawSetup x y n).rows)
    { plane := s.planes[0], hit := false, count := 0 } List.pairwise_lt_range
    (fun r hr => List.mem_range.mp hr)).2.2.2
  rw [Nat.zero_add] at this
  exact this

end Sys2Proof.Machine
end

