-- ==== Sys2Proof/Laws/Encoding.lean ====
section
/-!
SUPPORT. The laws of the word formats (30_encoding.md rule R110), through the number a word is: the fields of a packed
word are what it was packed from, and a word is packed from its fields.
-/

namespace Sys2Proof

open Sys2Proof.Machine

/-! ## Words and fields as numbers -/

theorem toNat_append_eq {m n : Nat} (a : BitVec m) (b : BitVec n) :
    (a ++ b).toNat = a.toNat * 2 ^ n + b.toNat := by
  rw [BitVec.toNat_append, ← Nat.shiftLeft_add_eq_or_of_lt b.isLt, Nat.shiftLeft_eq]

theorem toNat_packNNN (g : Nibble) (nnn : Imm12) : (packNNN g nnn).toNat = g.toNat * 4096 + nnn.toNat :=
  toNat_append_eq g nnn

theorem toNat_packXNN (g : Nibble) (x : RegIx) (nn : Byte) :
    (packXNN g x nn).toNat = (g.toNat * 16 + x.val) * 256 + nn.toNat := by
  have h1 := toNat_append_eq (g ++ (BitVec.ofFin x : Nibble)) nn
  have h2 := toNat_append_eq g (BitVec.ofFin x : Nibble)
  have h3 : (packXNN g x nn).toNat = (g ++ (BitVec.ofFin x : Nibble) ++ nn).toNat := rfl
  have h4 : (BitVec.ofFin x : Nibble).toNat = x.val := rfl
  omega

theorem toNat_packXYN (g : Nibble) (x y : RegIx) (n : Nibble) :
    (packXYN g x y n).toNat = ((g.toNat * 16 + x.val) * 16 + y.val) * 16 + n.toNat := by
  have h1 := toNat_append_eq (g ++ (BitVec.ofFin x : Nibble) ++ (BitVec.ofFin y : Nibble)) n
  have h2 := toNat_append_eq (g ++ (BitVec.ofFin x : Nibble)) (BitVec.ofFin y : Nibble)
  have h3 := toNat_append_eq g (BitVec.ofFin x : Nibble)
  have h4 : (packXYN g x y n).toNat =
    (g ++ (BitVec.ofFin x : Nibble) ++ (BitVec.ofFin y : Nibble) ++ n).toNat := rfl
  have h5 : (BitVec.ofFin x : Nibble).toNat = x.val := rfl
  have h6 : (BitVec.ofFin y : Nibble).toNat = y.val := rfl
  omega

theorem toNat_fieldG (w : Word) : (fieldG w).toNat = w.toNat / 4096 := by
  have := w.isLt
  simp [fieldG, BitVec.extractLsb'_toNat, Nat.shiftRight_eq_div_pow]; omega

theorem val_fieldX (w : Word) : (fieldX w).val = w.toNat / 256 % 16 := by
  show (fieldXBits w).toNat = _
  simp [fieldXBits, BitVec.extractLsb'_toNat, Nat.shiftRight_eq_div_pow]

theorem val_fieldY (w : Word) : (fieldY w).val = w.toNat / 16 % 16 := by
  show (w.extractLsb' 4 4).toNat = _
  simp [BitVec.extractLsb'_toNat, Nat.shiftRight_eq_div_pow]

theorem toNat_fieldN (w : Word) : (fieldN w).toNat = w.toNat % 16 := by
  simp [fieldN, BitVec.extractLsb'_toNat]

theorem toNat_fieldNN (w : Word) : (fieldNN w).toNat = w.toNat % 256 := by
  simp [fieldNN, BitVec.extractLsb'_toNat]

theorem toNat_fieldNNN (w : Word) : (fieldNNN w).toNat = w.toNat % 4096 := by
  simp [fieldNNN, BitVec.extractLsb'_toNat]

/-! ## The fields of a packed word -/

@[simp] theorem fieldG_packNNN (g : Nibble) (nnn : Imm12) : fieldG (packNNN g nnn) = g :=
  BitVec.eq_of_toNat_eq (by rw [toNat_fieldG, toNat_packNNN]; have := nnn.isLt; omega)

@[simp] theorem fieldNNN_packNNN (g : Nibble) (nnn : Imm12) : fieldNNN (packNNN g nnn) = nnn :=
  BitVec.eq_of_toNat_eq (by rw [toNat_fieldNNN, toNat_packNNN]; have := nnn.isLt; omega)

@[simp] theorem fieldG_packXNN (g : Nibble) (x : RegIx) (nn : Byte) : fieldG (packXNN g x nn) = g :=
  BitVec.eq_of_toNat_eq (by rw [toNat_fieldG, toNat_packXNN]; have := nn.isLt; have := x.isLt; omega)

@[simp] theorem fieldX_packXNN (g : Nibble) (x : RegIx) (nn : Byte) : fieldX (packXNN g x nn) = x :=
  Fin.ext (by rw [val_fieldX, toNat_packXNN]; have := nn.isLt; have := x.isLt; omega)

@[simp] theorem fieldXBits_packXNN (g : Nibble) (n : Nibble) (nn : Byte) :
    fieldXBits (packXNN g n.toFin nn) = n :=
  BitVec.eq_of_toNat_eq (congrArg Fin.val (fieldX_packXNN g n.toFin nn))

@[simp] theorem fieldNN_packXNN (g : Nibble) (x : RegIx) (nn : Byte) : fieldNN (packXNN g x nn) = nn :=
  BitVec.eq_of_toNat_eq (by rw [toNat_fieldNN, toNat_packXNN]; have := nn.isLt; omega)

@[simp] theorem fieldG_packXYN (g : Nibble) (x y : RegIx) (n : Nibble) : fieldG (packXYN g x y n) = g :=
  BitVec.eq_of_toNat_eq (by
    rw [toNat_fieldG, toNat_packXYN]; have := n.isLt; have := x.isLt; have := y.isLt; omega)

@[simp] theorem fieldX_packXYN (g : Nibble) (x y : RegIx) (n : Nibble) : fieldX (packXYN g x y n) = x :=
  Fin.ext (by rw [val_fieldX, toNat_packXYN]; have := n.isLt; have := x.isLt; have := y.isLt; omega)

@[simp] theorem fieldY_packXYN (g : Nibble) (x y : RegIx) (n : Nibble) : fieldY (packXYN g x y n) = y :=
  Fin.ext (by rw [val_fieldY, toNat_packXYN]; have := n.isLt; have := y.isLt; omega)

@[simp] theorem fieldN_packXYN (g : Nibble) (x y : RegIx) (n : Nibble) : fieldN (packXYN g x y n) = n :=
  BitVec.eq_of_toNat_eq (by rw [toNat_fieldN, toNat_packXYN]; have := n.isLt; omega)

/-! ## A word packed from its fields -/

theorem packNNN_fields (w : Word) : packNNN (fieldG w) (fieldNNN w) = w :=
  BitVec.eq_of_toNat_eq (by rw [toNat_packNNN, toNat_fieldG, toNat_fieldNNN]; omega)

theorem packXNN_fields (w : Word) : packXNN (fieldG w) (fieldX w) (fieldNN w) = w :=
  BitVec.eq_of_toNat_eq (by
    rw [toNat_packXNN, toNat_fieldG, val_fieldX, toNat_fieldNN]; have := w.isLt; omega)

theorem packXYN_fields (w : Word) : packXYN (fieldG w) (fieldX w) (fieldY w) (fieldN w) = w :=
  BitVec.eq_of_toNat_eq (by
    rw [toNat_packXYN, toNat_fieldG, val_fieldX, val_fieldY, toNat_fieldN]; have := w.isLt; omega)

end Sys2Proof
end

