-- ==== Sys2Proof/Laws/Registers.lean ====
section
/-!
SUPPORT. The laws of the register operations: what each write leaves in every register, and that it changes
nothing else.
-/

namespace Sys2Proof.Machine

variable (s : State)

/-! ## One register -/

@[simp] theorem State.reg_setReg_same (x : RegIx) (b : Byte) : (s.setReg x b).reg x = b := by
  simp [State.reg]

theorem State.reg_setReg_other {x k : RegIx} (b : Byte) (h : k ≠ x) : (s.setReg x b).reg k = s.reg k := by
  have : x.val ≠ k.val := fun hc => h (Fin.ext hc.symm)
  simp [State.reg, this]

theorem State.reg_setReg (x k : RegIx) (b : Byte) : (s.setReg x b).reg k = if k = x then b else s.reg k := by
  split
  · rename_i h; rw [h, State.reg_setReg_same]
  · rename_i h; exact s.reg_setReg_other b h

/-- A register depends on the register file alone. -/
theorem State.reg_congr {s t : State} (h : t.v = s.v) (k : RegIx) : t.reg k = s.reg k := by
  unfold State.reg; simp only [h]

/-! ## A result and its flag (00_scope.md rule R18) -/

theorem State.setResultFlag_frame (x : RegIx) (r f : Byte) :
    s.setResultFlag x r f = { s with v := (s.setResultFlag x r f).v } := rfl

theorem State.reg_setResultFlag (x k : RegIx) (r f : Byte) :
    (s.setResultFlag x r f).reg k = if k = flagReg then f else if k = x then r else s.reg k := by
  rw [State.setResultFlag, State.reg_setReg, State.reg_setReg]

theorem State.setLogic_frame (x : RegIx) (r : Byte) :
    s.setLogic x r = { s with v := (s.setLogic x r).v } := by
  unfold State.setLogic; split <;> rfl

theorem State.reg_setLogic (x k : RegIx) (r : Byte) :
    (s.setLogic x r).reg k =
      if s.quirks.vfReset = true ∧ k = flagReg then 0 else if k = x then r else s.reg k := by
  unfold State.setLogic
  cases s.quirks.vfReset <;> simp [State.reg_setReg]

/-! ## Several registers -/

theorem State.setRegs_frame (ps : List (RegIx × Byte)) :
    ∀ s : State, s.setRegs ps = { s with v := (s.setRegs ps).v } := by
  induction ps with
  | nil => intro s; rfl
  | cons p ps ih => intro s; rw [State.setRegs, ih]; rfl

theorem State.reg_setRegs_other (ps : List (RegIx × Byte)) :
    ∀ (s : State) (k : RegIx), k ∉ ps.map Prod.fst → (s.setRegs ps).reg k = s.reg k := by
  induction ps with
  | nil => intro s k _; rfl
  | cons p ps ih =>
    intro s k h
    simp only [List.map_cons, List.mem_cons, not_or] at h
    rw [State.setRegs, ih _ _ h.2, State.reg_setReg_other _ _ h.1]

theorem State.reg_setRegs_mem (ps : List (RegIx × Byte)) :
    ∀ s : State, (ps.map Prod.fst).Nodup → ∀ p ∈ ps, (s.setRegs ps).reg p.1 = p.2 := by
  induction ps with
  | nil => intro s _ p hp; exact absurd hp (List.not_mem_nil)
  | cons q ps ih =>
    intro s hn p hp
    simp only [List.map_cons, List.nodup_cons] at hn
    rcases List.mem_cons.mp hp with rfl | hp
    · rw [State.setRegs, State.reg_setRegs_other _ _ _ hn.1, State.reg_setReg_same]
    · exact ih _ hn.2 p hp

/-! ## The flags storage -/

theorem State.setFlags_frame (ps : List (RegIx × Byte)) :
    ∀ s : State, s.setFlags ps = { s with flags := (s.setFlags ps).flags } := by
  induction ps with
  | nil => intro s; rfl
  | cons p ps ih => intro s; rw [State.setFlags, ih]

theorem State.flags_setFlags_other (ps : List (RegIx × Byte)) :
    ∀ (s : State) (k : RegIx), k ∉ ps.map Prod.fst → (s.setFlags ps).flags[k.val] = s.flags[k.val] := by
  induction ps with
  | nil => intro s k _; rfl
  | cons p ps ih =>
    intro s k h
    simp only [List.map_cons, List.mem_cons, not_or] at h
    rw [State.setFlags, ih _ _ h.2]
    have : p.1.val ≠ k.val := fun hc => h.1 (Fin.ext hc.symm)
    simp [this]

theorem State.flags_setFlags_mem (ps : List (RegIx × Byte)) :
    ∀ s : State, (ps.map Prod.fst).Nodup → ∀ p ∈ ps, (s.setFlags ps).flags[p.1.val] = p.2 := by
  induction ps with
  | nil => intro s _ p hp; exact absurd hp (List.not_mem_nil)
  | cons q ps ih =>
    intro s hn p hp
    simp only [List.map_cons, List.nodup_cons] at hn
    rcases List.mem_cons.mp hp with rfl | hp
    · rw [State.setFlags, State.flags_setFlags_other _ _ _ hn.1]; simp
    · exact ih _ hn.2 p hp

/-! ## Register ranges (42_memory_ops.md) -/

theorem regsUpTo_length : ∀ x : RegIx, (regsUpTo x).length = x.val + 1 := by decide

theorem regsUpTo_nodup : ∀ x : RegIx, (regsUpTo x).Nodup := by decide

theorem mem_regsUpTo : ∀ x k : RegIx, k ∈ regsUpTo x ↔ k ≤ x := by decide

theorem regsUpTo_getElem? : ∀ x k : RegIx, k ≤ x → (regsUpTo x)[k.val]? = some k := by decide

theorem regRange_length :
    ∀ x y : RegIx, (regRange x y).length = (if x ≤ y then y.val - x.val else x.val - y.val) + 1 := by decide

theorem regRange_nodup : ∀ x y : RegIx, (regRange x y).Nodup := by decide

theorem mem_regRange : ∀ x y k : RegIx, k ∈ regRange x y ↔ (x ≤ k ∧ k ≤ y) ∨ (y ≤ k ∧ k ≤ x) := by decide

/-- The `k`-th register of a range that ascends is `X + k`. -/
theorem regRange_up : ∀ x y k : RegIx, x ≤ k → k ≤ y → (regRange x y)[k.val - x.val]? = some k := by decide

/-- The `k`-th register of a range that descends is `X - k`. -/
theorem regRange_down : ∀ x y k : RegIx, y ≤ k → k ≤ x → x ≠ y → (regRange x y)[x.val - k.val]? = some k := by
  decide

end Sys2Proof.Machine
end

