-- ==== Sys2Proof/Laws/Ops.lean ====
section
/-!
SUPPORT. One law per shared operation of the meanings: where `PC` and `I` go, the skip, the stack, the key scan, the
operand forms, and the loads and stores of several registers.
-/

namespace Sys2Proof.Machine

variable (s : State)

/-! ## `PC` and `I` -/

theorem State.setPc_frame (t : Addr) : s.setPc t = { s with pc := t &&& addrMask s.variant } := rfl

theorem State.setI_frame (t : Addr) : s.setI t = { s with i := t &&& iMask s.variant } := rfl

theorem State.toNat_setPc (t : Addr) : (s.setPc t).pc.toNat = t.toNat % memSize s.variant :=
  toNat_and_addrMask _ _

theorem State.toNat_setI (t : Addr) : (s.setI t).i.toNat = t.toNat % 2 ^ iWidth s.variant := toNat_and_iMask _ _

theorem iWidth_le (v : Variant) : iWidth v ≤ 24 := by cases v <;> decide

/-- An address a number of bytes further on, reduced as `PC` is. -/
theorem toNat_add_mod_memSize (v : Variant) (a : Addr) (k : Nat) :
    (a + BitVec.ofNat 24 k).toNat % memSize v = (a.toNat + k) % memSize v := by
  rw [← busIndex_eq, busIndex_add]

/-- The fetch moves `PC` two bytes on (10_state.md rule R34). -/
theorem State.toNat_advance : s.advance.pc.toNat = (s.pc.toNat + 2) % memSize s.variant := by
  rw [State.advance, State.toNat_setPc]
  exact toNat_add_mod_memSize s.variant s.pc 2

/-- The address of the instruction being executed is the address it was fetched from (10_state.md rule R34). -/
theorem State.instrAddr_advance (h : s.pc.toNat < memSize s.variant) : s.advance.instrAddr = s.pc := by
  apply BitVec.eq_of_toNat_eq
  have hv : s.advance.variant = s.variant := rfl
  rw [State.instrAddr, hv, toNat_and_addrMask, BitVec.toNat_sub, State.toNat_advance,
    Nat.mod_mod_of_dvd _ (memSize_dvd _)]
  have hd := memSize_dvd s.variant
  have hm := memSize_ge s.variant
  generalize memSize s.variant = m at *
  obtain ⟨c, hc⟩ := hd
  have h2 : (2 : Addr).toNat = 2 := rfl
  rw [h2]
  by_cases hw : s.pc.toNat + 2 < m
  · rw [Nat.mod_eq_of_lt hw, show 2 ^ 24 - 2 + (s.pc.toNat + 2) = s.pc.toNat + 2 ^ 24 from by omega, hc,
      Nat.add_mul_mod_self_left, Nat.mod_eq_of_lt h]
  · have hr : (s.pc.toNat + 2) % m = s.pc.toNat + 2 - m := by
      rw [Nat.mod_eq_sub_mod (by omega), Nat.mod_eq_of_lt (by omega)]
    rw [hr]
    have hmc : m ≤ m * c := by
      have : 1 ≤ c := by rcases c with _ | c <;> simp_all
      exact Nat.le_mul_of_pos_right m this
    have h3 : 2 ^ 24 - 2 + (s.pc.toNat + 2 - m) = s.pc.toNat + m * (c - 1) := by
      rw [Nat.mul_sub_one]; omega
    rw [h3, Nat.add_mul_mod_self_left, Nat.mod_eq_of_lt h]

/-! ## Skips (43_control_flow.md rule R329) -/

theorem State.skip_frame : s.skip = { s with pc := s.skip.pc } := by
  unfold State.skip; split <;> rfl

theorem State.toNat_skip :
    s.skip.pc.toNat =
      (s.pc.toNat + (if xoClass s.variant = true ∧ s.readWord s.pc = 0xF000#16 then 4 else 2)) %
        memSize s.variant := by
  unfold State.skip
  by_cases h : xoClass s.variant = true ∧ s.readWord s.pc = 0xF000#16
  · rw [if_pos h, if_pos (by simp [h.1, h.2]), State.toNat_setPc]
    exact toNat_add_mod_memSize s.variant s.pc 4
  · rw [if_neg h, if_neg (by simpa using h), State.toNat_setPc]
    exact toNat_add_mod_memSize s.variant s.pc 2

theorem State.skipIf_frame (c : Bool) : s.skipIf c = { s with pc := (s.skipIf c).pc } := by
  cases c
  · rfl
  · exact s.skip_frame

/-! ## The stack (10_state.md rule R37) -/

theorem State.topOfStack_eq (k : Fin 16) (h : s.sp.val = k.val + 1) : s.topOfStack = s.stack[k.val] := by
  simp [State.topOfStack, h, Vector.getD]

/-- What was pushed is on top. -/
theorem State.topOfStack_push (h : s.sp.val < 16) : (s.push h).topOfStack = s.pc := by
  simp [State.topOfStack, State.push, Vector.getD, h]

/-! ## Keys (44_keys_timers_sound.md rule R377) -/

theorem allKeys_getElem? : ∀ k : RegIx, allKeys[k.val]? = some k := by decide

theorem mem_allKeys : ∀ k : RegIx, k ∈ allKeys := by decide

theorem State.lowestKey_eq_none : s.lowestKey = none ↔ ∀ k, s.key k = false := by
  simp [State.lowestKey, List.find?_eq_none, mem_allKeys]

/-- The key found is held and no lower one is. -/
theorem State.lowestKey_eq_some (k : RegIx) :
    s.lowestKey = some k ↔ s.key k = true ∧ ∀ j, j < k → s.key j = false := by
  have hs : ∀ k : RegIx, s.lowestKey = some k → s.key k = true ∧ ∀ j, j < k → s.key j = false := by
    intro k h
    rw [State.lowestKey, List.find?_eq_some_iff_append] at h
    obtain ⟨hk, as, bs, hl, hn⟩ := h
    have hpw : ∀ (as bs : List RegIx) (k : RegIx), allKeys = as ++ k :: bs → ∀ j, j < k → j ∈ as := by
      intro as bs k hl j hj
      have hp : allKeys.Pairwise (· < ·) := by decide
      have hm := mem_allKeys j
      rw [hl] at hp hm
      rw [List.pairwise_append] at hp
      rcases List.mem_append.mp hm with hm | hm
      · exact hm
      · rcases List.mem_cons.mp hm with rfl | hm
        · exact absurd hj (lt_irrefl _)
        · exact absurd hj (not_lt_of_ge (le_of_lt ((List.pairwise_cons.mp hp.2.1).1 j hm)))
    exact ⟨hk, fun j hj => by simpa using hn j (hpw as bs k hl j hj)⟩
  refine ⟨hs k, fun ⟨hk, hlow⟩ => ?_⟩
  cases hl : s.lowestKey with
  | none => have := (s.lowestKey_eq_none.mp hl) k; rw [hk] at this; cases this
  | some j =>
    obtain ⟨hj, hjlow⟩ := hs j hl
    rcases lt_trichotomy j k with h | h | h
    · rw [hlow j h] at hj; cases hj
    · rw [h]
    · rw [hjlow k h] at hk; cases hk

/-! ## Operand forms -/

theorem lowNibble_val (b : Byte) : (lowNibble b).val = b.toNat % 16 := by
  show (b.extractLsb' 0 4).toNat = _
  simp [BitVec.extractLsb'_toNat]

theorem topNibble_val (nnn : Imm12) : (topNibble nnn).val = nnn.toNat / 256 := by
  show (nnn.extractLsb' 8 4).toNat = _
  have := nnn.isLt
  simp [BitVec.extractLsb'_toNat, Nat.shiftRight_eq_div_pow]; omega

theorem toNat_smallGlyph (d : RegIx) : (smallGlyph d).toNat = 5 * d.val := by
  have := d.isLt
  simp [smallGlyph, smallFontBase]; omega

theorem toNat_bigGlyph (d : RegIx) : (bigGlyph d).toNat = 0x50 + 10 * d.val := by
  have := d.isLt
  simp [bigGlyph, bigFontBase, BitVec.toNat_add]; omega

/-- The jump offset of a base (43_control_flow.md rule R324). -/
theorem State.jumpOffset_eq (nnn : Imm12) :
    s.jumpOffset nnn = if s.quirks.jumpWithVX then s.reg (Fin.ofNat 16 (nnn.toNat / 256)) else s.reg 0 := by
  have h : topNibble nnn = Fin.ofNat 16 (nnn.toNat / 256) := by
    apply Fin.ext
    have := nnn.isLt
    rw [topNibble_val, Fin.val_ofNat]; omega
  rw [State.jumpOffset, h]

/-! ## `I` after a register save or load (42_memory_ops.md rules R279, R280) -/

theorem State.autoInc_frame (x : RegIx) : s.autoInc x = { s with i := (s.autoInc x).i } := by
  unfold State.autoInc; split <;> rfl

theorem State.toNat_autoInc (x : RegIx) (h : s.quirks.autoIncI = true) :
    (s.autoInc x).i.toNat = (s.i.toNat + x.val + 1) % 2 ^ iWidth s.variant := by
  rw [State.autoInc, if_pos h, State.toNat_setI, State.indexAddr, BitVec.toNat_add, BitVec.toNat_ofNat,
    Nat.add_mod_mod, Nat.mod_mod_of_dvd _ (Nat.pow_dvd_pow 2 (iWidth_le _)), Nat.add_assoc]

theorem State.autoInc_off (x : RegIx) (h : s.quirks.autoIncI = false) : s.autoInc x = s := by
  rw [State.autoInc, h]; rfl

/-! ## Loads and stores of several registers -/

/-- A load puts the `j`-th byte into the `j`-th register listed. -/
theorem State.reg_load (rs : List RegIx) (a : Addr) (hn : rs.Nodup) {j : Nat} {k : RegIx}
    (h : rs[j]? = some k) :
    (s.setRegs (rs.zip (s.loadBytes a rs.length))).reg k = s.read (a + BitVec.ofNat 24 j) := by
  have hl : rs.length = (s.loadBytes a rs.length).length := (s.loadBytes_length a _).symm
  have hj : j < rs.length := (List.getElem?_eq_some_iff.mp h).1
  have hk : rs[j] = k := (List.getElem?_eq_some_iff.mp h).2
  have hm : (k, s.read (a + BitVec.ofNat 24 j)) ∈ rs.zip (s.loadBytes a rs.length) := by
    rw [List.mem_iff_getElem]
    refine ⟨j, by simpa [State.loadBytes] using hj, ?_⟩
    rw [List.getElem_zip, State.loadBytes_getElem, hk]
  have hfst : (rs.zip (s.loadBytes a rs.length)).map Prod.fst = rs := List.map_fst_zip (by omega)
  exact State.reg_setRegs_mem _ s (by rw [hfst]; exact hn) _ hm

/-- A load leaves every register that is not listed. -/
theorem State.reg_load_other (rs : List RegIx) (a : Addr) {k : RegIx} (h : k ∉ rs) :
    (s.setRegs (rs.zip (s.loadBytes a rs.length))).reg k = s.reg k := by
  apply State.reg_setRegs_other
  rw [List.map_fst_zip (by rw [State.loadBytes_length])]
  exact h

/-- A store puts the `j`-th register listed at the `j`-th address. -/
theorem State.read_store (rs : List RegIx) (a : Addr) (hw : Memory.wf s.variant s.mem) (hl : rs.length ≤ 16)
    {j : Nat} {k : RegIx} (h : rs[j]? = some k) :
    (s.storeBytes a (s.regValues rs)).read (a + BitVec.ofNat 24 j) = s.reg k := by
  have hj : j < rs.length := (List.getElem?_eq_some_iff.mp h).1
  have hk : rs[j] = k := (List.getElem?_eq_some_iff.mp h).2
  have hm := memSize_ge s.variant
  have hj' : j < (s.regValues rs).length := by simpa [State.regValues] using hj
  rw [State.read_storeBytes_inside _ _ _ hw (by simp [State.regValues]; omega) j hj']
  simp [State.regValues, hk]

end Sys2Proof.Machine
end

