-- ==== Sys2Proof/Laws/PerInstr.lean ====
section
/-!
SUPPORT. Statements about every instruction as syntax, one lemma per constructor: its encoding has the length that
the decoder tells from its first word alone (30_encoding.md rule R111).
-/

namespace Sys2Proof.Laws.LengthOf

open Sys2Proof Sys2Proof.Machine

/-- On every variant that has the instruction, the length told from its first word is that of its encoding. -/
def Statement (i : Instr) : Prop :=
  ∀ v, wellFormed v i = true → lengthOf v i.word1 = (encodeBytes i).length

/-! ## First words that are not the long form's -/

/-- An instruction of one word, whose word is not the long form's, has two bytes. -/
theorem of_short {i : Instr} (h2 : i.word2 = none) (h : i.word1 ≠ 0xF000#16) : Statement i := by
  intro v _
  have hb : (i.word1 == 0xF000#16) = false := by simpa using h
  simp [lengthOf, hb, encodeBytes, encode, h2, wordBytes]

theorem ne_of_group {w : Word} (h : fieldG w ≠ 0xF#4) : w ≠ 0xF000#16 := fun hc => h (hc ▸ by decide)

theorem ne_of_low {w : Word} (h : fieldNN w ≠ 0x00#8) : w ≠ 0xF000#16 := fun hc => h (hc ▸ by decide)

/-! ## One lemma per constructor -/

theorem scd (n : Nibble) : Statement (.scd n) := of_short rfl (by rw [Instr.word1]; revert n; decide)

theorem scu (n : Nibble) : Statement (.scu n) := of_short rfl (by rw [Instr.word1]; revert n; decide)

theorem cls : Statement .cls := of_short rfl (by decide)

theorem ret : Statement .ret := of_short rfl (by decide)

theorem scr : Statement .scr := of_short rfl (by decide)

theorem scl : Statement .scl := of_short rfl (by decide)

theorem exit : Statement .exit := of_short rfl (by decide)

theorem low : Statement .low := of_short rfl (by decide)

theorem high : Statement .high := of_short rfl (by decide)

theorem jp (nnn : Imm12) : Statement (.jp nnn) :=
  of_short rfl (ne_of_group (by rw [Instr.word1, fieldG_packNNN]; decide))

theorem call (nnn : Imm12) : Statement (.call nnn) :=
  of_short rfl (ne_of_group (by rw [Instr.word1, fieldG_packNNN]; decide))

theorem seImm (x : RegIx) (nn : Byte) : Statement (.seImm x nn) :=
  of_short rfl (ne_of_group (by rw [Instr.word1, fieldG_packXNN]; decide))

theorem sneImm (x : RegIx) (nn : Byte) : Statement (.sneImm x nn) :=
  of_short rfl (ne_of_group (by rw [Instr.word1, fieldG_packXNN]; decide))

theorem seReg (x y : RegIx) : Statement (.seReg x y) :=
  of_short rfl (ne_of_group (by rw [Instr.word1, fieldG_packXYN]; decide))

theorem saveRange (x y : RegIx) : Statement (.saveRange x y) :=
  of_short rfl (ne_of_group (by rw [Instr.word1, fieldG_packXYN]; decide))

theorem loadRange (x y : RegIx) : Statement (.loadRange x y) :=
  of_short rfl (ne_of_group (by rw [Instr.word1, fieldG_packXYN]; decide))

theorem ldImm (x : RegIx) (nn : Byte) : Statement (.ldImm x nn) :=
  of_short rfl (ne_of_group (by rw [Instr.word1, fieldG_packXNN]; decide))

theorem addImm (x : RegIx) (nn : Byte) : Statement (.addImm x nn) :=
  of_short rfl (ne_of_group (by rw [Instr.word1, fieldG_packXNN]; decide))

theorem ldReg (x y : RegIx) : Statement (.ldReg x y) :=
  of_short rfl (ne_of_group (by rw [Instr.word1, fieldG_packXYN]; decide))

theorem orReg (x y : RegIx) : Statement (.orReg x y) :=
  of_short rfl (ne_of_group (by rw [Instr.word1, fieldG_packXYN]; decide))

theorem andReg (x y : RegIx) : Statement (.andReg x y) :=
  of_short rfl (ne_of_group (by rw [Instr.word1, fieldG_packXYN]; decide))

theorem xorReg (x y : RegIx) : Statement (.xorReg x y) :=
  of_short rfl (ne_of_group (by rw [Instr.word1, fieldG_packXYN]; decide))

theorem addReg (x y : RegIx) : Statement (.addReg x y) :=
  of_short rfl (ne_of_group (by rw [Instr.word1, fieldG_packXYN]; decide))

theorem subReg (x y : RegIx) : Statement (.subReg x y) :=
  of_short rfl (ne_of_group (by rw [Instr.word1, fieldG_packXYN]; decide))

theorem shr (x y : RegIx) : Statement (.shr x y) :=
  of_short rfl (ne_of_group (by rw [Instr.word1, fieldG_packXYN]; decide))

theorem subn (x y : RegIx) : Statement (.subn x y) :=
  of_short rfl (ne_of_group (by rw [Instr.word1, fieldG_packXYN]; decide))

theorem shl (x y : RegIx) : Statement (.shl x y) :=
  of_short rfl (ne_of_group (by rw [Instr.word1, fieldG_packXYN]; decide))

theorem sneReg (x y : RegIx) : Statement (.sneReg x y) :=
  of_short rfl (ne_of_group (by rw [Instr.word1, fieldG_packXYN]; decide))

theorem ldI (nnn : Imm12) : Statement (.ldI nnn) :=
  of_short rfl (ne_of_group (by rw [Instr.word1, fieldG_packNNN]; decide))

theorem jpOffset (nnn : Imm12) : Statement (.jpOffset nnn) :=
  of_short rfl (ne_of_group (by rw [Instr.word1, fieldG_packNNN]; decide))

theorem rnd (x : RegIx) (nn : Byte) : Statement (.rnd x nn) :=
  of_short rfl (ne_of_group (by rw [Instr.word1, fieldG_packXNN]; decide))

theorem drw (x y : RegIx) (n : Nibble) : Statement (.drw x y n) :=
  of_short rfl (ne_of_group (by rw [Instr.word1, fieldG_packXYN]; decide))

theorem skp (x : RegIx) : Statement (.skp x) :=
  of_short rfl (ne_of_group (by rw [Instr.word1, fieldG_packXNN]; decide))

theorem sknp (x : RegIx) : Statement (.sknp x) :=
  of_short rfl (ne_of_group (by rw [Instr.word1, fieldG_packXNN]; decide))

theorem ldILong (nnnn : Word) : Statement (.ldILong nnnn) := by
  intro v h
  have hx : xoClass v = true := by simpa [wellFormed, inVariantSet, flagRangeOk] using h
  simp [lengthOf, hx, Instr.word1, encodeBytes, encode, Instr.word2, wordBytes]

theorem plane (n : Nibble) : Statement (.plane n) :=
  of_short rfl (ne_of_low (by rw [Instr.word1, fieldNN_packXNN]; decide))

theorem audio : Statement .audio := of_short rfl (by decide)

theorem ldVxDt (x : RegIx) : Statement (.ldVxDt x) :=
  of_short rfl (ne_of_low (by rw [Instr.word1, fieldNN_packXNN]; decide))

theorem ldVxK (x : RegIx) : Statement (.ldVxK x) :=
  of_short rfl (ne_of_low (by rw [Instr.word1, fieldNN_packXNN]; decide))

theorem ldDtVx (x : RegIx) : Statement (.ldDtVx x) :=
  of_short rfl (ne_of_low (by rw [Instr.word1, fieldNN_packXNN]; decide))

theorem ldStVx (x : RegIx) : Statement (.ldStVx x) :=
  of_short rfl (ne_of_low (by rw [Instr.word1, fieldNN_packXNN]; decide))

theorem addI (x : RegIx) : Statement (.addI x) :=
  of_short rfl (ne_of_low (by rw [Instr.word1, fieldNN_packXNN]; decide))

theorem ldF (x : RegIx) : Statement (.ldF x) :=
  of_short rfl (ne_of_low (by rw [Instr.word1, fieldNN_packXNN]; decide))

theorem ldHF (x : RegIx) : Statement (.ldHF x) :=
  of_short rfl (ne_of_low (by rw [Instr.word1, fieldNN_packXNN]; decide))

theorem ldB (x : RegIx) : Statement (.ldB x) :=
  of_short rfl (ne_of_low (by rw [Instr.word1, fieldNN_packXNN]; decide))

theorem pitch (x : RegIx) : Statement (.pitch x) :=
  of_short rfl (ne_of_low (by rw [Instr.word1, fieldNN_packXNN]; decide))

theorem storeRegs (x : RegIx) : Statement (.storeRegs x) :=
  of_short rfl (ne_of_low (by rw [Instr.word1, fieldNN_packXNN]; decide))

theorem loadRegs (x : RegIx) : Statement (.loadRegs x) :=
  of_short rfl (ne_of_low (by rw [Instr.word1, fieldNN_packXNN]; decide))

theorem saveFlags (x : RegIx) : Statement (.saveFlags x) :=
  of_short rfl (ne_of_low (by rw [Instr.word1, fieldNN_packXNN]; decide))

theorem loadFlags (x : RegIx) : Statement (.loadFlags x) :=
  of_short rfl (ne_of_low (by rw [Instr.word1, fieldNN_packXNN]; decide))

end Sys2Proof.Laws.LengthOf
end

