-- ==== Sys2Proof/Laws/Session.lean ====
section
/-!
SUPPORT. The laws of session construction: what the copy of a ROM leaves in every byte, and that it keeps the
canonical form (20_memory.md rules R88 to R90).
-/

namespace Sys2Proof.Machine

/-- A copy that fits keeps the canonical form. -/
theorem loadImage_wf (v : Variant) (bs : List Byte) :
    ∀ (m : List Host.Cell) (a : Nat), Memory.wf v m → a + bs.length ≤ memSize v →
      Memory.wf v (loadImage v m a bs) := by
  induction bs with
  | nil => intro m a h _; exact h
  | cons b bs ih =>
    intro m a h hl
    rw [List.length_cons] at hl
    exact ih _ _ (Memory.wf_write b h (by omega)) (by omega)

/-- A copy leaves every byte below it. -/
theorem read_loadImage_below (v : Variant) (bs : List Byte) :
    ∀ (m : List Host.Cell) (a k : Nat), k < a →
      Memory.read v (loadImage v m a bs) k = Memory.read v m k := by
  induction bs with
  | nil => intro m a k _; rfl
  | cons b bs ih =>
    intro m a k h
    rw [loadImage, ih _ _ _ (by omega), Memory.read_write_other _ _ _ (by omega)]

/-- A copy that fits puts its bytes at consecutive indexes and leaves every other byte. -/
theorem read_loadImage (v : Variant) (bs : List Byte) :
    ∀ (m : List Host.Cell) (a k : Nat), Memory.wf v m → a + bs.length ≤ memSize v →
      Memory.read v (loadImage v m a bs) k =
        if a ≤ k ∧ k < a + bs.length then bs.getD (k - a) 0 else Memory.read v m k := by
  induction bs with
  | nil => intro m a k _ _; rw [if_neg (by simp)]; rfl
  | cons b bs ih =>
    intro m a k h hl
    rw [List.length_cons] at hl
    by_cases hk : k = a
    · subst hk
      rw [loadImage, read_loadImage_below _ _ _ _ _ (by omega), Memory.read_write_same _ _ h,
        if_pos (by simp)]
      simp
    · rw [loadImage, ih _ _ _ (Memory.wf_write b h (by omega)) (by omega),
        Memory.read_write_other _ _ _ hk]
      by_cases hin : a + 1 ≤ k ∧ k < a + 1 + bs.length
      · rw [if_pos hin, if_pos (by rw [List.length_cons]; omega), show k - a = k - (a + 1) + 1 from by omega,
          List.getD_cons_succ]
      · rw [if_neg hin, if_neg (by rw [List.length_cons]; omega)]

/-- The program start leaves room below the end of memory. -/
theorem progStart_le (v : Variant) : (progStart v).toNat ≤ memSize v := by cases v <;> decide

/-- Construction succeeds exactly when the ROM fits. -/
theorem construct_ok (cfg : Settings) (t0 : Rat) (keys : Vector Bool 16) (rom : List Byte)
    (h : rom.length ≤ romRoom cfg.variant) :
    construct cfg t0 keys rom =
      .ok { State.fresh cfg t0 keys with mem := loadImage cfg.variant [] (progStart cfg.variant).toNat rom } := by
  rw [construct, if_neg (by omega)]

theorem construct_error (cfg : Settings) (t0 : Rat) (keys : Vector Bool 16) (rom : List Byte)
    (h : romRoom cfg.variant < rom.length) :
    construct cfg t0 keys rom = .error (.constructionError rom.length (romRoom cfg.variant)) := by
  rw [construct, if_pos h]

end Sys2Proof.Machine
end

