-- ==== Sys2Proof/Laws/Sound.lean ====
section
/-!
SUPPORT. The laws of the synthesizer: a buffer has a frame's length, a sample is the amplitude or its negative, and
the phase update stays in the range of a phase (44_keys_timers_sound.md rules R385 to R391).
-/

namespace Sys2Proof.Machine

theorem synth_length (p : Pattern) (step : Rat) (n : Nat) :
    ∀ phase, (synth p step n phase).1.length = n := by
  induction n with
  | zero => intro phase; rfl
  | succ n ih => intro phase; simp [synth, ih]

theorem toneSample_cases (p : Pattern) (phase : Rat) :
    toneSample p phase = (Config.amplitude : Int) ∨ toneSample p phase = -(Config.amplitude : Int) := by
  unfold toneSample
  split
  · exact .inl rfl
  · exact .inr rfl

/-- Every sample of a tone is read from the pattern at some phase. -/
theorem mem_synth (p : Pattern) (step : Rat) (n : Nat) :
    ∀ phase, ∀ a ∈ (synth p step n phase).1, ∃ ph, a = toneSample p ph := by
  induction n with
  | zero => intro phase a h; exact absurd h List.not_mem_nil
  | succ n ih =>
    intro phase a h
    rcases List.mem_cons.mp h with rfl | h
    · exact ⟨phase, rfl⟩
    · exact ih _ a h

theorem pcmWidth_cases : Config.pcmWidth = 8 ∨ Config.pcmWidth = 16 := by
  unfold Config.pcmWidth; split <;> simp

/-- The amplitude is positive and fits `PCM_WIDTH` (44_keys_timers_sound.md rule R391). -/
theorem amplitude_range : 0 < Config.amplitude ∧ Config.amplitude < 2 ^ (Config.pcmWidth - 1) := by
  unfold Config.amplitude
  rcases pcmWidth_cases with h | h <;> rw [h] <;> omega

/-- The encoding of a sample gives it back (44_keys_timers_sound.md rule R391). -/
theorem toInt_encodeSample {a : Int} (h : a = 0 ∨ a = (Config.amplitude : Int) ∨ a = -(Config.amplitude : Int)) :
    (encodeSample a).toInt = a := by
  obtain ⟨h1, h2⟩ := amplitude_range
  unfold encodeSample
  rw [BitVec.toInt_ofInt, Int.bmod_def]
  rcases pcmWidth_cases with hw | hw <;> rw [hw] at h2 ⊢ <;> norm_num at h2 ⊢ <;> split <;> omega

theorem modOne_range (q : Rat) : 0 ≤ modOne q ∧ modOne q < 1 := by
  have h1 := Rat.floor_le q
  have h2 := Rat.lt_floor_add_one q
  unfold modOne
  push_cast at h2
  constructor <;> linarith

/-- The phase after any number of samples is a phase if the one before was. -/
theorem synth_phase_range (p : Pattern) (step : Rat) (n : Nat) :
    ∀ phase, 0 ≤ phase ∧ phase < 1 → 0 ≤ (synth p step n phase).2 ∧ (synth p step n phase).2 < 1 := by
  induction n with
  | zero => intro phase h; exact h
  | succ n ih => intro phase _; exact ih _ (modOne_range _)

/-- The phase after `k + 1` samples is the phase after `k` samples from the next one. -/
theorem phaseAt_nextPhase (step : Rat) (k : Nat) :
    ∀ phase, Safety.phaseAt step (nextPhase phase step) k = Safety.phaseAt step phase (k + 1) := by
  induction k with
  | zero => intro phase; rfl
  | succ k ih => intro phase; rw [Safety.phaseAt, ih]; rfl

/-- The phase that `n` samples leave. -/
theorem synth_phase (p : Pattern) (step : Rat) (n : Nat) :
    ∀ phase, (synth p step n phase).2 = Safety.phaseAt step phase n := by
  induction n with
  | zero => intro phase; rfl
  | succ n ih => intro phase; rw [synth, ih, phaseAt_nextPhase]

/-- Sample `k` is read at the phase after `k` updates (44_keys_timers_sound.md rule R385). -/
theorem synth_getElem? (p : Pattern) (step : Rat) (n : Nat) :
    ∀ (k : Nat) (phase : Rat), k < n →
      (synth p step n phase).1[k]? = some (toneSample p (Safety.phaseAt step phase k)) := by
  induction n with
  | zero => intro k phase h; exact absurd h (Nat.not_lt_zero k)
  | succ n ih =>
    intro k phase h
    cases k with
    | zero => rfl
    | succ k => rw [synth, List.getElem?_cons_succ, ih k _ (by omega), phaseAt_nextPhase]

/-- A phase of the sequence stays in the range of a phase if the first is (10_state.md rule R58). -/
theorem phaseAt_range (step phase : Rat) (h : 0 ≤ phase ∧ phase < 1) :
    ∀ k, 0 ≤ Safety.phaseAt step phase k ∧ Safety.phaseAt step phase k < 1
  | 0 => h
  | _ + 1 => modOne_range _

theorem phaseIndex_lt (phase : Rat) : phaseIndex phase < 128 := Nat.mod_lt _ (by decide)

/-- A bit of a pattern of all ones is on. -/
theorem patternBit_ones (p : Pattern) (h : ∀ k : Fin 16, p[k.val] = 0xFF#8) {i : Nat} (hi : i < 128) :
    patternBit p i = true := by
  have hb : i / 8 < 16 := by omega
  have hp : p.getD (i / 8) 0 = 0xFF#8 := by
    simpa [Vector.getD, hb] using h ⟨i / 8, hb⟩
  rw [patternBit, hp]
  have : ∀ k : Fin 8, (0xFF#8).getLsbD k.val = true := by decide
  exact this ⟨7 - i % 8, by omega⟩

end Sys2Proof.Machine
end

