-- ==== Sys2Proof/Laws/Step.lean ====
section
/-!
SUPPORT. What a step can do, said once: the cases of a step that answers a next state, the end of a frame, and the
parts of the scheduler.
-/

namespace Sys2Proof.Machine

variable (s : State)

/-! ## Readiness -/

/-- Within a frame only the breakpoint hook is consulted before the next fetch. -/
theorem State.ready_eq (hf : s.inFrame = true) (hr : s.run = .running) : s.ready = s.consultHook := by
  simp [State.ready, State.framed, hf, hr]

/-- Between frames a frame begins first. -/
theorem State.ready_between (hf : s.inFrame = false) :
    s.ready = (s.beginFrame (if s.clock < s.deadline then s.deadline else s.clock)).consultHook := by
  simp [State.ready, State.framed, hf]

/-- With debugging off the hook is not consulted (00_scope.md rule R28). -/
theorem State.consultHook_off (h : s.debug = false) : s.consultHook = s := by
  have hz : (if s.debug then 1 else 0) = 0 := by simp [h]
  unfold State.consultHook
  rw [hz]; rfl

/-- Readiness touches only the run state, the clock, the pacer, the frame loop and the count of the hook. -/
theorem State.ready_frame :
    s.ready = { s with
      run := s.ready.run, deadline := s.ready.deadline, clock := s.ready.clock, frameStart := s.ready.frameStart
      inFrame := s.ready.inFrame, slots := s.ready.slots, frameCyc := s.ready.frameCyc
      hookCalls := s.ready.hookCalls } := by
  unfold State.ready State.framed; split <;> rfl

/-- The hook is consulted once, exactly when debugging is on. -/
theorem State.ready_hookCalls : s.ready.hookCalls = s.hookCalls + (if s.debug then 1 else 0) := by
  unfold State.ready State.framed; split <;> rfl

@[simp] theorem State.ready_settings : s.ready.settings = s.settings := by rw [State.ready_frame]
@[simp] theorem State.ready_variant : s.ready.variant = s.variant := by
  unfold State.variant; rw [State.ready_settings]
@[simp] theorem State.ready_quirks : s.ready.quirks = s.quirks := by unfold State.quirks; rw [State.ready_settings]
@[simp] theorem State.ready_pc : s.ready.pc = s.pc := by rw [State.ready_frame]
@[simp] theorem State.ready_mem : s.ready.mem = s.mem := by rw [State.ready_frame]
@[simp] theorem State.ready_v : s.ready.v = s.v := by rw [State.ready_frame]
@[simp] theorem State.ready_sp : s.ready.sp = s.sp := by rw [State.ready_frame]

theorem State.ready_read (a : Addr) : s.ready.read a = s.read a := by
  unfold State.read; rw [State.ready_variant, State.ready_mem]

/-- The next fetch reads the same instruction before and after readiness. -/
theorem State.ready_fetchDecode : s.ready.fetchDecode = s.fetchDecode := by
  simp only [State.fetchDecode, State.readWord, State.ready_read, State.ready_variant, State.ready_pc]

/-- A ready state of a live session is a running one within a frame. -/
theorem State.ready_running (h : s.run = .running ∨ s.run = .frameWait) :
    s.ready.run = .running ∧ s.ready.inFrame = true := by
  unfold State.ready State.framed
  split
  · rename_i hc; simpa [and_comm] using hc
  · rcases h with h | h <;> simp [State.beginFrame, h]

/-! ## The loop of a frame -/

theorem State.strictMode_congr {s t : State} (h : t.settings = s.settings) : t.strictMode = s.strictMode := by
  unfold State.strictMode; rw [h]

theorem State.charge_budget (i : Instr) (before : State) (h : s.strictMode = false) :
    s.charge i before = { s with slots := s.slots + 1 } := by unfold State.charge; rw [h]; rfl

theorem State.charge_strict (i : Instr) (before : State) (h : s.strictMode = true) :
    s.charge i before = { s with cyc := s.cyc + cycleCost i before } := by unfold State.charge; rw [h]; rfl

theorem State.loopGoesOn_budget (h : s.strictMode = false) (hr : s.run = .running) :
    s.loopGoesOn = decide (s.slots < s.ipfEff) := by unfold State.loopGoesOn; rw [h, hr]; rfl

theorem State.loopGoesOn_strict (h : s.strictMode = true) (hr : s.run = .running) :
    s.loopGoesOn = decide (s.cyc < (s.frameCyc / cyclesPerFrame + 1) * cyclesPerFrame) := by
  unfold State.loopGoesOn; rw [h, hr]; rfl

/-- What an instruction costs does not depend on the host's side of the state (70_reset_and_hazards.md rule
R492). -/
theorem cycleCost_congr (i : Instr) {s t : State} (h : t.machinePart = s.machinePart) :
    cycleCost i t = cycleCost i s := by unfold cycleCost; rw [h]

theorem State.decrements_budget (h : s.strictMode = false) : s.decrements = 1 := by
  unfold State.decrements; rw [h]; rfl

theorem State.decrements_strict (h : s.strictMode = true) :
    s.decrements = s.cyc / cyclesPerFrame - s.frameCyc / cyclesPerFrame := by
  unfold State.decrements; rw [h]; rfl

/-! ## The end of a frame -/

/-- Only the timers and the budget change. -/
theorem State.tickTimersN_frame (n : Nat) :
    ∀ s : State, s.tickTimersN n = { s with dt := (s.tickTimersN n).dt, st := (s.tickTimersN n).st } := by
  induction n with
  | zero => intro s; rfl
  | succ n ih => intro s; rw [State.tickTimersN, ih]; rfl

theorem tickDown_toNat (b : Byte) : (tickDown b).toNat = b.toNat - 1 := by
  unfold tickDown
  split
  · rename_i h; rw [h]; rfl
  · rename_i h
    have : b.toNat ≠ 0 := fun hc => h (BitVec.eq_of_toNat_eq hc)
    rw [BitVec.toNat_sub]
    have := b.isLt
    simp; omega

/-- `n` decrements take `n` off each timer, down to 0 (60_exceptions.md rule R440). -/
theorem State.toNat_tickTimersN (n : Nat) :
    ∀ s : State, (s.tickTimersN n).dt.toNat = s.dt.toNat - n ∧ (s.tickTimersN n).st.toNat = s.st.toNat - n := by
  induction n with
  | zero => intro s; exact ⟨rfl, rfl⟩
  | succ n ih =>
    intro s
    obtain ⟨h1, h2⟩ := ih s.tickTimers
    rw [State.tickTimersN, h1, h2]
    simp only [State.tickTimers, tickDown_toNat]
    omega

/-- Only the budget changes. -/
theorem State.updateBudget_frame : s.updateBudget = { s with ipfEff := s.updateBudget.ipfEff } := by
  unfold State.updateBudget; split <;> rfl

theorem State.closeFrame_frame :
    s.closeFrame = { s with dt := s.closeFrame.dt, st := s.closeFrame.st, ipfEff := s.closeFrame.ipfEff } := by
  unfold State.closeFrame
  rw [State.updateBudget_frame, State.tickTimersN_frame]

/-- The end of a frame takes its decrements off each timer, down to 0 (60_exceptions.md rule R440). -/
theorem State.toNat_closeFrame :
    s.closeFrame.dt.toNat = s.dt.toNat - s.decrements ∧ s.closeFrame.st.toNat = s.st.toNat - s.decrements := by
  unfold State.closeFrame
  rw [State.updateBudget_frame]
  exact State.toNat_tickTimersN s.decrements s

/-- The end of a frame leaves the budget that the update gives (10_state.md rule R48; 70_reset_and_hazards.md rule
R495). -/
theorem State.closeFrame_ipfEff : s.closeFrame.ipfEff = s.updateBudget.ipfEff := by
  unfold State.closeFrame State.updateBudget
  rw [State.tickTimersN_frame]
  split <;> rfl

theorem State.pushSamples_frame :
    s.pushSamples = { s with phase := s.pushSamples.phase, pcm := s.pushSamples.pcm } := by
  unfold State.pushSamples; split <;> rfl

/-- The end of a frame touches only the sound's phase and buffer, the timers, the budget and the frame's flag; it
answers a next state exactly when the host's buffers fit. -/
theorem State.endFrame_next (t : State) :
    s.endFrame = .next t ↔
      s.gridFits s.hostGrid = true ∧ s.pcmFits s.hostPcm = true ∧
        t = { s.pushSamples.closeFrame with inFrame := false } := by
  unfold State.endFrame
  by_cases h : (s.gridFits s.hostGrid && s.pcmFits s.hostPcm) = true
  · rw [if_pos h]
    rw [Bool.and_eq_true] at h
    constructor
    · intro hn; exact ⟨h.1, h.2, (Host.Outcome.next.inj hn).symm⟩
    · rintro ⟨_, _, rfl⟩; rfl
  · rw [if_neg h]
    rw [Bool.and_eq_true] at h
    constructor
    · intro hn; simp only [State.outcome, State.raise_run] at hn; cases hn
    · rintro ⟨h1, h2, _⟩; exact absurd ⟨h1, h2⟩ h

/-- A buffer of the host that does not fit is the fatal `ArgumentError` (60_exceptions.md rule R424). -/
theorem State.endFrame_argumentError (h : s.gridFits s.hostGrid = false ∨ s.pcmFits s.hostPcm = false) :
    s.endFrame = .fault .argumentError := by
  unfold State.endFrame
  rw [if_neg (by rcases h with h | h <;> simp [h])]
  rfl

/-! ## The host's call of `populateRenderBuffer` -/

theorem State.afterRender_fits {grid : Option (Nat × Nat)} (h : s.gridFits grid = true) : s.afterRender grid = s := by
  unfold State.afterRender; rw [if_pos h]

theorem State.afterRender_argumentError {grid : Option (Nat × Nat)} (h : s.gridFits grid = false) :
    s.afterRender grid = s.raise .argumentError := by unfold State.afterRender; rw [if_neg (by simp [h])]

/-- What the end of a frame leaves unchanged. -/
theorem State.endFrame_frame (t : State) (h : s.endFrame = .next t) :
    t = { s with
      phase := t.phase, pcm := t.pcm, dt := t.dt, st := t.st, ipfEff := t.ipfEff, inFrame := false } := by
  obtain ⟨_, _, rfl⟩ := (s.endFrame_next t).mp h
  rw [State.closeFrame_frame, State.pushSamples_frame]

theorem State.charge_frame (i : Instr) (before : State) :
    s.charge i before = { s with cyc := (s.charge i before).cyc, slots := (s.charge i before).slots } := by
  unfold State.charge; split <;> rfl

/-! ## The cases of a step -/

/-- What one instruction fetched in `s` can lead to. -/
inductive InstrStepTo (s : State) : State → Prop
  /-- `00FD`: nothing more of the frame. -/
  | halts (i : Instr) (t : State) (hf : s.fetchDecode = .valid i) (he : exec i s.advance = .next t)
      (hr : t.run = .halted) : InstrStepTo s t
  /-- The frame's loop goes on. -/
  | goesOn (i : Instr) (t : State) (hf : s.fetchDecode = .valid i) (he : exec i s.advance = .next t)
      (hr : t.run = .running) (hl : (t.charge i s).loopGoesOn = true) : InstrStepTo s (t.charge i s)
  /-- The frame ends. -/
  | endsFrame (i : Instr) (t u : State) (hf : s.fetchDecode = .valid i) (he : exec i s.advance = .next t)
      (hr : t.run = .running ∨ t.run = .frameWait) (hl : (t.charge i s).loopGoesOn = false)
      (hu : (t.charge i s).endFrame = .next u) : InstrStepTo s u

theorem instrStep_next {s u : State} (h : instrStep s = .next u) : InstrStepTo s u := by
  unfold instrStep at h
  split at h
  · rename_i i hf
    unfold runInstr at h
    split at h
    · rename_i t he
      unfold State.afterInstr at h
      split at h
      · cases h
      · cases h
      · rename_i hr; cases h; exact .halts i u hf he hr
      · rename_i hr
        split at h
        · rename_i hl; cases h; exact .goesOn i t hf he hr hl
        · rename_i hl; exact .endsFrame i t u hf he (.inl hr) (by simpa using hl) h
      · rename_i hr
        split at h
        · rename_i hl
          have : (t.charge i s).run = .frameWait := by rw [State.charge_frame]; exact hr
          rw [State.loopGoesOn, this] at hl
          simp at hl
        · rename_i hl; exact .endsFrame i t u hf he (.inr hr) (by simpa using hl) h
    · cases h
    · cases h
  all_goals
    simp only [State.decodeError, State.outcome] at h
    cases h

/-- What one step can lead to. -/
inductive StepTo (s : State) : State → Prop
  /-- An instruction, with no move of the host taken. -/
  | instr (t : State) (h : InstrStepTo s.ready t) : StepTo s t
  /-- The host passes, then an instruction. -/
  | idle (rest : List HostEvent) (t : State) (hi : s.inbox = .idle :: rest)
      (h : InstrStepTo { s with inbox := rest }.ready t) : StepTo s t
  /-- A key is written. -/
  | key (rest : List HostEvent) (k : RegIx) (held : Bool) (hi : s.inbox = .key k held :: rest) :
      StepTo s { s with keys := s.keys.set k.val held, inbox := rest }
  /-- The clock is read anew. -/
  | clock (rest : List HostEvent) (t : Rat) (hi : s.inbox = .clock t :: rest) :
      StepTo s { s with clock := t, inbox := rest }
  /-- The host supplies buffers. -/
  | buffers (rest : List HostEvent) (pcm : Option Nat) (grid : Option (Nat × Nat))
      (hi : s.inbox = .buffers pcm grid :: rest) :
      StepTo s { s with hostPcm := pcm, hostGrid := grid, inbox := rest }
  /-- The host takes the render grid, which has the right size. -/
  | render (rest : List HostEvent) (grid : Option (Nat × Nat)) (hi : s.inbox = .render grid :: rest)
      (hg : s.gridFits grid = true) : StepTo s { s with inbox := rest }
  /-- The debug flag is set. -/
  | debug (rest : List HostEvent) (on : Bool) (hi : s.inbox = .debug on :: rest) :
      StepTo s { s with debug := on, inbox := rest }
  /-- The audio device fails, or a tick is not due. -/
  | nothing (rest : List HostEvent)
      (hi : s.inbox = .audioFailure :: rest ∨
        (s.inbox = .tick :: rest ∧ s.inFrame = false ∧ s.frameDue s.clock = false)) :
      StepTo s { s with inbox := rest }
  /-- A tick begins a frame. -/
  | beginsFrame (rest : List HostEvent) (hi : s.inbox = .tick :: rest) (hf : s.inFrame = false)
      (hd : s.frameDue s.clock = true) : StepTo s ({ s with inbox := rest }.beginFrame s.clock)

/-- The cases of a step: the session had not ended, and one of the moves of `StepTo` was made. -/
theorem step_cases {s t : State} (h : step s = .next t) :
    (s.run = .running ∨ s.run = .frameWait) ∧ StepTo s t := by
  have hlive : s.run = .running ∨ s.run = .frameWait := by
    unfold step machineStep at h; split at h
    · cases h
    · cases h
    · cases h
    · rename_i hr; exact .inl hr
    · rename_i hr; exact .inr hr
  unfold step machineStep at h
  have go : (match s.inbox with
      | [] => instrStep s.ready
      | e :: rest => hostMove s rest e) = .next t → StepTo s t := by
    intro h
    split at h
    · exact .instr t (instrStep_next h)
    · rename_i e rest hi
      unfold hostMove at h
      split at h
      · cases h; exact .key rest _ _ hi
      · cases h; exact .clock rest _ hi
      · cases h; exact .buffers rest _ _ hi
      · rename_i grid
        cases hg : s.gridFits grid
        · rw [State.afterRender_argumentError _ (by exact hg)] at h
          cases h
        · have hr : (State.outcome { s with inbox := rest }) = .next { s with inbox := rest } := by
            unfold State.outcome; rcases hlive with hl | hl <;> simp [hl]
          rw [State.afterRender_fits _ (by exact hg), hr] at h
          cases h; exact .render rest grid hi hg
      · cases h; exact .debug rest _ hi
      · cases h; exact .nothing rest (.inl hi)
      · exact .idle rest t hi (instrStep_next h)
      · split at h
        · exact .instr t (instrStep_next h)
        · rename_i hf
          have hf : s.inFrame = false := by simpa using hf
          split at h
          · rename_i hd; cases h; exact .beginsFrame rest hi hf hd
          · rename_i hd; cases h; exact .nothing rest (.inr ⟨hi, hf, by simpa using hd⟩)
      · split at h
        · exact .instr t (instrStep_next h)
        · cases h
  refine ⟨hlive, go ?_⟩
  rcases hlive with hr | hr <;> rw [hr] at h <;> exact h

/-! ## The pacer -/

theorem pacerMaxLag_nonneg : 0 ≤ Config.pacerMaxLag := by
  unfold Config.pacerMaxLag
  split <;> simp_all

theorem State.nextDeadline_resync (t : Rat) (h : Config.pacerMaxLag < t - (s.deadline + s.period)) :
    s.nextDeadline t = t + s.period := by
  unfold State.nextDeadline
  rw [if_pos ⟨lt_of_le_of_lt pacerMaxLag_nonneg h, h⟩]

theorem State.nextDeadline_carry (t : Rat) (h : t - (s.deadline + s.period) ≤ Config.pacerMaxLag) :
    s.nextDeadline t = s.deadline + s.period := by
  unfold State.nextDeadline
  rw [if_neg fun hh => absurd hh.2 (not_lt.mpr h)]

theorem throttleDivisor_pos : 0 < Config.throttleDivisor := by
  unfold Config.throttleDivisor
  split <;> simp_all

/-- With no move of the host listed, the step of a live session is the instruction step. -/
theorem step_eq_instrStep (hr : s.run = .running ∨ s.run = .frameWait) (hi : s.inbox = []) :
    step s = instrStep s.ready := by
  unfold step machineStep
  rcases hr with hr | hr <;> simp [hr, hi]

end Sys2Proof.Machine
end

