-- ==== Sys2Proof/Tests/Slice0.lean ====
section
/-!
SUPPORT. Small tests: the ill-formed terms the checks refuse, a hand-written word for every constructor, one-step
vectors of spec/95_test_vectors.md, and a witness for every statement that has hypotheses. An expected value comes
from the spec's text, named in each comment.
-/

open Sys2Proof Sys2Proof.Machine Sys2Proof.Safety

namespace Sys2Proof.Tests

set_option maxRecDepth 8000

/-! ## Helpers -/

/-- The next state; the reset state where there is none. -/
def after (o : Host.Outcome State Fault Refusal) : State :=
  match o with
  | .next s => s
  | .fault _ => State.reset
  | .refused _ => State.reset

/-- Whether there is a next state. -/
def goesOn (o : Host.Outcome State Fault Refusal) : Bool :=
  match o with
  | .next _ => true
  | .fault _ => false
  | .refused _ => false

theorem next_after {o : Host.Outcome State Fault Refusal} (h : goesOn o = true) : o = .next (after o) := by
  cases o <;> simp_all [goesOn, after]

/-- A fresh session of a variant, its quirks the defaults, with a budget of 20 and an empty ROM. -/
def fresh (v : Variant) : State :=
  State.fresh (resolveSettings { variant := v, ipfTarget := some 20 }) 0 (Vector.replicate 16 false)

/-- The state with some registers set. -/
def regs (s : State) (l : List (RegIx × Byte)) : State := s.setRegs l

/-- The state with bytes stored from an address on. -/
def bytes (s : State) (a : Addr) (l : List Byte) : State := s.storeBytes a l

/-- One step on a word (and a second one) placed at `PC`. -/
def run (s : State) (w : Word) (w2 : Word := 0) : State := after (step (s.placeWords w w2))

/-- The keypad with the listed keys held. -/
def held (s : State) (l : List (Fin 16)) : State := { s with keys := Vector.ofFn fun k => decide (k ∈ l) }

/-- Plane 0 with the listed pixels on. -/
def pixels (s : State) (p : Fin 4) (l : List (Nat × Nat)) : State :=
  { s with planes := s.planes.set p.val (l.foldl (fun q c => Plane.setPixel q c.1 c.2 true) blankPlane) }

/-! ## Well-formed instructions -/

/-- 30_encoding.md rules R116 to R118: a form that a variant lacks is refused, and the same form elsewhere is not. -/
theorem test_wellFormed_variant_set :
    wellFormed .chip8 .exit = false ∧ wellFormed .schip10 .exit = true ∧
    wellFormed .schip10 (.scd 1) = false ∧ wellFormed .schip11 (.scd 1) = true ∧
    wellFormed .schip11 (.scu 1) = false ∧ wellFormed .xochip (.scu 1) = true ∧
    wellFormed .chip8x (.jpOffset 0) = false ∧ wellFormed .chip8 (.jpOffset 0) = true := by decide

/-- 30_encoding.md rule R119: the range of the flags-storage instructions, at its bound. -/
theorem test_wellFormed_flag_range :
    wellFormed .schip11 (.saveFlags 8) = false ∧ wellFormed .schip11 (.saveFlags 7) = true ∧
    wellFormed .schip11 (.loadFlags 8) = false ∧ wellFormed .schip11 (.loadFlags 7) = true ∧
    wellFormed .xochip (.saveFlags 15) = true := by decide

/-! ## Decoding: words written from the opcode map of 30_encoding.md section 3 -/

theorem test_decode_group0 :
    decode .xochip 0b0000000011000101 0 = .valid (.scd 5) ∧ decode .xochip 0b0000000011011010 0 = .valid (.scu 0xA) ∧
    decode .chip8 0b0000000011100000 0 = .valid .cls ∧ decode .chip8 0b0000000011101110 0 = .valid .ret ∧
    decode .schip11 0b0000000011111011 0 = .valid .scr ∧ decode .schip11 0b0000000011111100 0 = .valid .scl ∧
    decode .schip10 0b0000000011111101 0 = .valid .exit ∧ decode .schip10 0b0000000011111110 0 = .valid .low ∧
    decode .schip10 0b0000000011111111 0 = .valid .high := by decide

theorem test_decode_jumps :
    decode .chip8 0b0001101010111100 0 = .valid (.jp 0xABC) ∧ decode .chip8 0b0010101010111100 0 = .valid (.call 0xABC) ∧
    decode .chip8 0b1010101010111100 0 = .valid (.ldI 0xABC) ∧
    decode .chip8 0b1011101010111100 0 = .valid (.jpOffset 0xABC) := by decide

theorem test_decode_skips :
    decode .chip8 0b0011000111000111 0 = .valid (.seImm 1 0xC7) ∧
    decode .chip8 0b0100000111000111 0 = .valid (.sneImm 1 0xC7) ∧
    decode .chip8 0b0101000111000000 0 = .valid (.seReg 1 0xC) ∧
    decode .chip8 0b1001000111000000 0 = .valid (.sneReg 1 0xC) ∧
    decode .chip8 0b1110011110011110 0 = .valid (.skp 7) ∧ decode .chip8 0b1110011110100001 0 = .valid (.sknp 7) := by
  decide

theorem test_decode_ranges_and_immediates :
    decode .xochip 0b0101000111000010 0 = .valid (.saveRange 1 0xC) ∧
    decode .xochip 0b0101000111000011 0 = .valid (.loadRange 1 0xC) ∧
    decode .chip8 0b0110101000110101 0 = .valid (.ldImm 0xA 0x35) ∧
    decode .chip8 0b0111101000110101 0 = .valid (.addImm 0xA 0x35) ∧
    decode .chip8 0b1100101000110101 0 = .valid (.rnd 0xA 0x35) ∧
    decode .chip8 0b1101101000110101 0 = .valid (.drw 0xA 3 5) := by decide

theorem test_decode_group8 :
    decode .chip8 0b1000001011010000 0 = .valid (.ldReg 2 0xD) ∧ decode .chip8 0b1000001011010001 0 = .valid (.orReg 2 0xD) ∧
    decode .chip8 0b1000001011010010 0 = .valid (.andReg 2 0xD) ∧ decode .chip8 0b1000001011010011 0 = .valid (.xorReg 2 0xD) ∧
    decode .chip8 0b1000001011010100 0 = .valid (.addReg 2 0xD) ∧ decode .chip8 0b1000001011010101 0 = .valid (.subReg 2 0xD) ∧
    decode .chip8 0b1000001011010110 0 = .valid (.shr 2 0xD) ∧ decode .chip8 0b1000001011010111 0 = .valid (.subn 2 0xD) ∧
    decode .chip8 0b1000001011011110 0 = .valid (.shl 2 0xD) := by decide

theorem test_decode_groupF_sound_and_keys :
    decode .xochip 0b1111000000000000 0xBEEF = .valid (.ldILong 0xBEEF) ∧
    decode .xochip 0b1111011000000001 0 = .valid (.plane 6) ∧ decode .xochip 0b1111000000000010 0 = .valid .audio ∧
    decode .chip8 0b1111011000000111 0 = .valid (.ldVxDt 6) ∧ decode .chip8 0b1111011000001010 0 = .valid (.ldVxK 6) ∧
    decode .chip8 0b1111011000010101 0 = .valid (.ldDtVx 6) ∧ decode .chip8 0b1111011000011000 0 = .valid (.ldStVx 6) ∧
    decode .xochip 0b1111011000111010 0 = .valid (.pitch 6) := by decide

theorem test_decode_groupF_index_and_memory :
    decode .chip8 0b1111011000011110 0 = .valid (.addI 6) ∧ decode .chip8 0b1111011000101001 0 = .valid (.ldF 6) ∧
    decode .schip10 0b1111011000110000 0 = .valid (.ldHF 6) ∧ decode .chip8 0b1111011000110011 0 = .valid (.ldB 6) ∧
    decode .chip8 0b1111011001010101 0 = .valid (.storeRegs 6) ∧ decode .chip8 0b1111011001100101 0 = .valid (.loadRegs 6) ∧
    decode .schip10 0b1111011001110101 0 = .valid (.saveFlags 6) ∧
    decode .schip10 0b1111011010000101 0 = .valid (.loadFlags 6) := by decide

/-- 95_test_vectors.md E1, E4, E5, E7, E10, E13, E15: invalid on a fully specified variant. -/
theorem test_decode_invalid :
    decode .chip8 0x0000 0 = .invalid ∧ decode .chip8 0x00FD 0 = .invalid ∧ decode .chip8 0x00FF 0 = .invalid ∧
    decode .chip8 0xF030 0 = .invalid ∧ decode .schip10 0x00C1 0 = .invalid ∧ decode .schip10 0x00FB 0 = .invalid ∧
    decode .schip11 0x00D1 0 = .invalid ∧ decode .schip11 0x5012 0 = .invalid ∧ decode .schip11 0xF001 0 = .invalid ∧
    decode .xochip 0xF102 0 = .invalid ∧ decode .xochip 0x8018 0 = .invalid ∧ decode .schipm 0x801F 0 = .invalid ∧
    decode .chip8 0x9011 0 = .invalid ∧ decode .chip8 0xE0A2 0 = .invalid ∧ decode .chip8 0xF0FF 0 = .invalid ∧
    decode .chip8 0xF000 0 = .invalid ∧ decode .chip8 0x0123 0 = .invalid := by decide

/-- 95_test_vectors.md E2, E3, E8, E11, E12, E13: the refusals. -/
theorem test_decode_refused :
    decode .chip8x 0x0000 0 = .unknownExtension ∧ decode .chip8x 0xB200 0 = .unknownExtension ∧
    decode .megachip 0x00D1 0 = .unknownExtension ∧ decode .hwc64 0xE0A2 0 = .unknownExtension ∧
    decode .schip11 0xF775 0 = .valid (.saveFlags 7) ∧ decode .schip11 0xF875 0 = .flagRangeUnknown ∧
    decode .xochip 0xFF75 0 = .valid (.saveFlags 15) ∧ decode .xochip 0xFF85 0 = .valid (.loadFlags 15) := by decide

/-- 20_memory.md rule R83 and 30_encoding.md rule R110: the byte at the lower address holds the group and `X`. -/
theorem test_decode_bytes : decodeBytes .chip8 0x6A 0x35 0 0 = .valid (.ldImm 0xA 0x35) ∧
    decodeBytes .xochip 0xF0 0x00 0x12 0x34 = .valid (.ldILong 0x1234) := by decide

/-- 30_encoding.md section 1: the words of an instruction, and the table's numbering of their bits. -/
theorem test_encode : encode (.drw 1 2 5) = [0xD125] ∧ encode (.ldILong 0x1234) = [0xF000, 0x1234] ∧
    encodeBytes (.ldILong 0x1234) = [0xF0, 0x00, 0x12, 0x34] ∧ decodeTableWord 16 0x00C3 = some (.scd 3) ∧
    decodeTableWord 32 0xF0001234 = some (.ldILong 0x1234) := by decide

/-- 30_encoding.md rule R111: the length from the first word alone. -/
theorem test_length : lengthOf .xochip 0xF000 = 4 ∧ lengthOf .chip8 0xF000 = 2 ∧ lengthOf .xochip 0xF002 = 2 := by
  decide

/-! ## Reset -/

/-- 10_state.md rules R67, R72, R75; 20_memory.md rule R86: values the spec states for reset. -/
theorem test_reset : State.reset.pc = 0x200 ∧ State.reset.pitch = 64 ∧ State.reset.pattern[7] = 0xFF ∧
    State.reset.pattern[8] = 0 ∧ State.reset.read 0x023 = 0xF0 ∧ State.reset.read 0x024 = 0x10 ∧
    State.reset.read 0x04A = 0x80 ∧ State.reset.read 0x04F = 0xF0 ∧ State.reset.read 0x200 = 0 ∧ (fresh .chip8x).pc = 0x300 ∧
    (fresh .chip8).quirks = ⟨true, true, true, false, false, false⟩ := by decide

/-- 10_state.md rule R66 and 95_test_vectors.md X5: a fresh session with an empty ROM meets an invalid word. -/
theorem test_reset_faults : step State.reset = .fault (.invalidInstruction 0x0000 0x200) := rfl

/-! ## One step: 95_test_vectors.md sections 3 to 7 -/

/-- A24, and 40_alu.md rule R150's example. -/
theorem test_ldImm : (run (fresh .chip8) 0x6AFF).reg 10 = 0xFF ∧ (run (fresh .chip8) 0x6005).reg 0 = 5 ∧
    (run (fresh .chip8) 0x6AFF).pc = 0x202 := by decide

/-- A22, A23. -/
theorem test_addImm : (run (regs (fresh .chip8) [(0, 0xFF), (15, 9)]) 0x7002).reg 0 = 1 ∧
    (run (regs (fresh .chip8) [(0, 0xFF), (15, 9)]) 0x7002).reg 15 = 9 ∧
    (run (regs (fresh .chip8) [(15, 0xFF)]) 0x7F01).reg 15 = 0 := by decide

/-- A21. -/
theorem test_ldReg : (run (regs (fresh .chip8) [(1, 0x2A), (15, 9)]) 0x8010).reg 0 = 0x2A ∧
    (run (regs (fresh .chip8) [(1, 0x2A), (15, 9)]) 0x8010).reg 15 = 9 := by decide

/-- A16, A17. -/
theorem test_orReg : (run (regs (fresh .chip8) [(0, 0x0F), (1, 0xF0), (15, 7)]) 0x8011).reg 0 = 0xFF ∧
    (run (regs (fresh .chip8) [(0, 0x0F), (1, 0xF0), (15, 7)]) 0x8011).reg 15 = 0 ∧
    (run (regs (fresh .schip11) [(0, 0x0F), (1, 0xF0), (15, 7)]) 0x8011).reg 15 = 7 := by decide

/-- A20: the clear follows the result. -/
theorem test_orReg_flag_register : (run (regs (fresh .chip8) [(15, 1), (1, 0xF0)]) 0x8F11).reg 15 = 0 := by decide

/-- A18. -/
theorem test_andReg : (run (regs (fresh .chip8) [(0, 0x3C), (1, 0x0F), (15, 9)]) 0x8012).reg 0 = 0x0C ∧
    (run (regs (fresh .chip8) [(0, 0x3C), (1, 0x0F), (15, 9)]) 0x8012).reg 15 = 0 := by decide

/-- A19, and 40_alu.md rule R155's example. -/
theorem test_xorReg : (run (regs (fresh .chip8) [(0, 0x55), (15, 9)]) 0x8003).reg 0 = 0 ∧
    (run (regs (fresh .chip8) [(0, 0xFF), (1, 0x0F)]) 0x8013).reg 0 = 0xF0 := by decide

/-- A1, A2, A4. -/
theorem test_addReg : (run (regs (fresh .chip8) [(0, 0xFF), (1, 1)]) 0x8014).reg 0 = 0 ∧
    (run (regs (fresh .chip8) [(0, 0xFF), (1, 1)]) 0x8014).reg 15 = 1 ∧
    (run (regs (fresh .chip8) [(0, 0x7F), (1, 0x80), (15, 1)]) 0x8014).reg 15 = 0 ∧
    (run (regs (fresh .chip8) [(0, 0x80)]) 0x8004).reg 15 = 1 := by decide

/-- A5: the carry overwrites the result. -/
theorem test_addReg_flag_register : (run (regs (fresh .chip8) [(15, 0x10), (1, 0xF5)]) 0x8F14).reg 15 = 1 := by
  decide

/-- A6, A7. -/
theorem test_subReg : (run (regs (fresh .chip8) [(0, 5), (1, 5)]) 0x8015).reg 15 = 1 ∧
    (run (regs (fresh .chip8) [(0, 5), (1, 5)]) 0x8015).reg 0 = 0 ∧
    (run (regs (fresh .chip8) [(0, 0), (1, 1), (15, 1)]) 0x8015).reg 0 = 0xFF ∧
    (run (regs (fresh .chip8) [(0, 0), (1, 1), (15, 1)]) 0x8015).reg 15 = 0 := by decide

/-- A8. -/
theorem test_subReg_flag_register : (run (regs (fresh .chip8) [(15, 3), (1, 5)]) 0x8F15).reg 15 = 0 := by decide

/-- A11, A12. -/
theorem test_shr : (run (regs (fresh .chip8) [(0, 0xAA), (1, 1)]) 0x8016).reg 0 = 0 ∧
    (run (regs (fresh .chip8) [(0, 0xAA), (1, 1)]) 0x8016).reg 15 = 1 ∧
    (run (regs (fresh .chip8) [(0, 0xAA), (1, 1)]) 0x8016).reg 1 = 1 ∧
    (run (regs (fresh .schip11) [(0, 0x81), (1, 0)]) 0x8016).reg 0 = 0x40 ∧
    (run (regs (fresh .schip11) [(0, 0x81), (1, 0)]) 0x8016).reg 15 = 1 := by decide

/-- A9, A10. -/
theorem test_subn : (run (regs (fresh .chip8) [(0, 1), (1, 0), (15, 1)]) 0x8017).reg 0 = 0xFF ∧
    (run (regs (fresh .chip8) [(0, 1), (1, 0), (15, 1)]) 0x8017).reg 15 = 0 ∧
    (run (regs (fresh .chip8) [(0, 1), (1, 3)]) 0x8017).reg 0 = 2 ∧
    (run (regs (fresh .chip8) [(0, 1), (1, 3)]) 0x8017).reg 15 = 1 := by decide

/-- A13, A14. -/
theorem test_shl : (run (regs (fresh .chip8) [(1, 0x80)]) 0x801E).reg 0 = 0 ∧
    (run (regs (fresh .chip8) [(1, 0x80)]) 0x801E).reg 15 = 1 ∧
    (run (regs (fresh .chip8) [(1, 0x7F), (15, 1)]) 0x801E).reg 0 = 0xFE ∧
    (run (regs (fresh .chip8) [(1, 0x7F), (15, 1)]) 0x801E).reg 15 = 0 := by decide

/-- A15. -/
theorem test_shl_flag_register : (run (regs (fresh .chip8) [(15, 0xFF)]) 0x8FFE).reg 15 = 1 := by decide

/-- A26: whatever the draw, a mask of 0 leaves 0. -/
theorem test_rnd : (run (regs (fresh .chip8) [(0, 7)]) 0xC000).reg 0 = 0 := BitVec.and_zero

/-- A24's frame for the draw: the next draw is another one. -/
theorem test_rnd_draws : (run (fresh .chip8) 0xC00F).draws = 1 ∧ (run (fresh .chip8) 0xC00F).pc = 0x202 := by decide

/-- M1. -/
theorem test_ldI : (run (fresh .chip8) 0xA123).i = 0x123 := by decide

/-- E14, M2: the second word at the top of memory wraps. -/
theorem test_ldILong : (run (fresh .xochip) 0xF000 0x1234).i = 0x1234 ∧ (run (fresh .xochip) 0xF000 0x1234).pc = 0x204 ∧
    (run { fresh .xochip with pc := 0xFFFE } 0xF000 0x1234).i = 0x1234 ∧
    (run { fresh .xochip with pc := 0xFFFE } 0xF000 0x1234).pc = 0x0002 := by decide

/-- M3, M4. -/
theorem test_addI : (run (regs { fresh .xochip with i := 0xFFFF } [(0, 1), (15, 5)]) 0xF01E).i = 0 ∧
    (run (regs { fresh .xochip with i := 0xFFFF } [(0, 1), (15, 5)]) 0xF01E).reg 15 = 5 ∧
    (run (regs { fresh .chip8 with i := 0x0FFF } [(0, 1)]) 0xF01E).i = 0x1000 := by decide

/-- M5. -/
theorem test_ldF : (run (regs (fresh .chip8) [(0, 0x1A)]) 0xF029).i = 0x032 := by decide

/-- M6. -/
theorem test_ldHF : (run (regs (fresh .schip11) [(0, 3)]) 0xF030).i = 0x06E := by decide

/-- M8, M9: each address wraps on its own. -/
theorem test_ldB : (run (regs { fresh .chip8 with i := 0x300 } [(0, 255)]) 0xF033).read 0x300 = 2 ∧
    (run (regs { fresh .chip8 with i := 0x300 } [(0, 255)]) 0xF033).read 0x302 = 5 ∧
    (run (regs { fresh .chip8 with i := 0xFFF } [(0, 123)]) 0xF033).read 0xFFF = 1 ∧
    (run (regs { fresh .chip8 with i := 0xFFF } [(0, 123)]) 0xF033).read 0 = 2 ∧
    (run (regs { fresh .chip8 with i := 0xFFF } [(0, 123)]) 0xF033).read 1 = 3 := by decide

/-- M10, M11. -/
theorem test_storeRegs : (run (regs { fresh .chip8 with i := 0x300 } [(0, 9)]) 0xF055).read 0x300 = 9 ∧
    (run (regs { fresh .chip8 with i := 0x300 } [(0, 9)]) 0xF055).i = 0x301 ∧
    (run (regs { fresh .schip11 with i := 0x300 } [(0, 1), (14, 14), (15, 15)]) 0xFF55).read 0x30F = 15 ∧
    (run (regs { fresh .schip11 with i := 0x300 } [(0, 1), (14, 14), (15, 15)]) 0xFF55).i = 0x300 := by decide

/-- M12. -/
theorem test_loadRegs : (run (bytes { fresh .xochip with i := 0x300 } 0x30E [0x1E, 0x1F]) 0xFF65).reg 15 = 0x1F ∧
    (run (bytes { fresh .xochip with i := 0x300 } 0x30E [0x1E, 0x1F]) 0xFF65).reg 14 = 0x1E ∧
    (run (bytes { fresh .xochip with i := 0x300 } 0x30E [0x1E, 0x1F]) 0xFF65).i = 0x310 := by decide

/-- M13: in order and in reverse. -/
theorem test_saveRange : (run (regs { fresh .xochip with i := 0x300 } [(2, 0xA), (3, 0xB)]) 0x5232).read 0x300 = 0xA ∧
    (run (regs { fresh .xochip with i := 0x300 } [(2, 0xA), (3, 0xB)]) 0x5232).read 0x301 = 0xB ∧
    (run (regs { fresh .xochip with i := 0x300 } [(2, 0xA), (3, 0xB)]) 0x5322).read 0x300 = 0xB ∧
    (run (regs { fresh .xochip with i := 0x300 } [(2, 0xA), (3, 0xB)]) 0x5322).i = 0x300 := by decide

/-- M14: in reverse. -/
theorem test_loadRange : (run (bytes { fresh .xochip with i := 0x300 } 0x300 [0xA, 0xB]) 0x5323).reg 3 = 0xA ∧
    (run (bytes { fresh .xochip with i := 0x300 } 0x300 [0xA, 0xB]) 0x5323).reg 2 = 0xB := by decide

/-- M16, first half. -/
theorem test_saveFlags : (run (regs (fresh .schip11) [(0, 1), (7, 8), (8, 9)]) 0xF775).flags[7] = 8 ∧
    (run (regs (fresh .schip11) [(0, 1), (7, 8), (8, 9)]) 0xF775).flags[8] = 0 := by decide

/-- 42_memory_ops.md rule R288's example, M17. -/
theorem test_loadFlags : (run { fresh .xochip with flags := (Vector.replicate 16 0).set 1 6 } 0xF185).reg 1 = 6 ∧
    (run (regs (fresh .xochip) [(15, 3)]) 0xFF85).reg 15 = 0 := by decide

/-- F1. -/
theorem test_jp : (run (fresh .chip8) 0x1234).pc = 0x234 := by decide

/-- F2; P7: the 17th nested call. -/
theorem test_call : (run (fresh .chip8) 0x2300).stack[0] = 0x202 ∧ (run (fresh .chip8) 0x2300).sp = 1 ∧
    (run (fresh .chip8) 0x2300).pc = 0x300 := by decide

theorem test_call_overflow : step ({ fresh .chip8 with sp := 16 }.placeWords 0x2300 0) = .fault (.stackOverflow 0x200) ∧
    (after (exec (.call 0x300) { fresh .chip8 with sp := 16, pc := 0x202 })).pc = 0x202 := ⟨rfl, by decide⟩

/-- F3. -/
theorem test_ret : (run { fresh .chip8 with sp := 1, stack := (Vector.replicate 16 0).set 0 0x202 } 0x00EE).pc = 0x202 ∧
    (run { fresh .chip8 with sp := 1, stack := (Vector.replicate 16 0).set 0 0x202 } 0x00EE).sp = 0 := by decide

/-- F4. -/
theorem test_ret_underflow : step ((fresh .chip8).placeWords 0x00EE 0) = .fault (.stackUnderflow 0x200) ∧
    (after (exec .ret { fresh .chip8 with pc := 0x202 })).pc = 0x202 := ⟨rfl, by decide⟩

/-- F6, F8, F9. -/
theorem test_jpOffset : (run (regs (fresh .chip8) [(0, 4)]) 0xB300).pc = 0x304 ∧
    (run (regs (fresh .chip8) [(0, 1)]) 0xBFFF).pc = 0 ∧ (run (regs (fresh .xochip) [(0, 1)]) 0xBFFF).pc = 0x1000 := by
  decide

/-- F7. -/
theorem test_jpOffset_quirk : (run (regs (fresh .schip11) [(2, 5), (0, 9)]) 0xB220).pc = 0x225 := by decide

/-- F10, F11. -/
theorem test_seImm : (run (regs { fresh .chip8 with pc := 0x204 } [(0, 8)]) 0x3008).pc = 0x208 ∧
    (run (regs { fresh .chip8 with pc := 0x204 } [(0, 7)]) 0x3008).pc = 0x206 := by decide

/-- F12, F13: the long form is skipped whole on XO-CHIP. -/
theorem test_seImm_long : (run (regs { fresh .xochip with pc := 0x204 } [(0, 8)]) 0x3008 0xF000).pc = 0x20A ∧
    (run (regs { fresh .chip8 with pc := 0x204 } [(0, 8)]) 0x3008 0xF000).pc = 0x208 := by decide

/-- F15. -/
theorem test_sneImm : (run (regs (fresh .chip8) [(0, 8)]) 0x4008).pc = 0x202 ∧
    (run (regs (fresh .chip8) [(0, 7)]) 0x4008).pc = 0x204 := by decide

/-- F16. -/
theorem test_seReg : (run (fresh .chip8) 0x5330).pc = 0x204 ∧ (run (regs (fresh .chip8) [(1, 1)]) 0x5010).pc = 0x202 := by
  decide

/-- F17, and 43_control_flow.md rule R333's example. -/
theorem test_sneReg : (run (fresh .chip8) 0x9330).pc = 0x202 ∧
    (run (regs (fresh .chip8) [(0, 3), (1, 4)]) 0x9010).pc = 0x204 := by decide

/-- F18. -/
theorem test_skp : (run (held (regs (fresh .chip8) [(0, 0x15)]) [5]) 0xE09E).pc = 0x204 ∧
    (run (regs (fresh .chip8) [(0, 0x15)]) 0xE09E).pc = 0x202 := by decide

/-- F19. -/
theorem test_sknp : (run (regs (fresh .chip8) [(0, 5)]) 0xE0A1).pc = 0x204 ∧
    (run (held (regs (fresh .chip8) [(0, 5)]) [5]) 0xE0A1).pc = 0x202 := by decide

/-- F20. -/
theorem test_exit : (run { fresh .schip11 with pc := 0x206 } 0x00FD).run = .halted ∧
    (run { fresh .schip11 with pc := 0x206 } 0x00FD).pc = 0x208 ∧
    goesOn (step (run { fresh .schip11 with pc := 0x206 } 0x00FD)) = false := by decide

/-- K5. -/
theorem test_ldDtVx : (run (regs (fresh .chip8) [(3, 0x3C)]) 0xF315).dt = 0x3C := by decide

/-- 44_keys_timers_sound.md rule R370's example. -/
theorem test_ldVxDt : (run { fresh .chip8 with dt := 0x3C } 0xF307).reg 3 = 0x3C := by decide

/-- K7, first frame. -/
theorem test_ldStVx : (run (regs (fresh .chip8) [(0, 2)]) 0xF018).st = 2 := by decide

/-- K1 and K2: no key, then the lowest of two keys. -/
theorem test_ldVxK_idle : (run (fresh .chip8) 0xF50A).pc = 0x200 ∧ (run (fresh .chip8) 0xF50A).keyWait = .idle ∧
    (run (held (fresh .chip8) [3, 9]) 0xF00A).keyWait = .awaiting 3 ∧
    (run (held (fresh .chip8) [3, 9]) 0xF00A).pc = 0x200 := by decide

/-- K1 and K2: still held, then released while another key is held. -/
theorem test_ldVxK_awaiting :
    (run { held (fresh .chip8) [7] with keyWait := .awaiting 7 } 0xF50A).pc = 0x200 ∧
    (run { held (fresh .chip8) [4] with keyWait := .awaiting 3 } 0xF00A).reg 0 = 3 ∧
    (run { held (fresh .chip8) [4] with keyWait := .awaiting 3 } 0xF00A).keyWait = .idle ∧
    (run { held (fresh .chip8) [4] with keyWait := .awaiting 3 } 0xF00A).pc = 0x202 := by decide

/-- K12, and the byte at `I + 15`. -/
theorem test_audio : (run (bytes { fresh .xochip with i := 0x30 } 0x3E [0xAB, 0xCD]) 0xF002).pattern[15] = 0xCD ∧
    (run (bytes { fresh .xochip with i := 0x30 } 0x3E [0xAB, 0xCD]) 0xF002).i = 0x30 := by decide

/-- K11. -/
theorem test_pitch : (run (regs (fresh .xochip) [(0, 112)]) 0xF03A).pitch = 112 := by decide

/-- D29. -/
theorem test_plane : (run (fresh .xochip) 0xF201).pmask = 2 := by decide

/-- D18. -/
theorem test_cls : pixelOf (run { pixels (pixels (fresh .xochip) 0 [(1, 1)]) 1 [(1, 1)] with pmask := 2 } 0x00E0) 0 1 1 = true ∧
    pixelOf (run { pixels (pixels (fresh .xochip) 0 [(1, 1)]) 1 [(1, 1)] with pmask := 2 } 0x00E0) 1 1 1 = false := by
  decide

/-- D19. -/
theorem test_scd : pixelOf (run { pixels (fresh .schipm) 0 [(5, 0)] with ext := true } 0x00C3) 0 5 3 = true ∧
    pixelOf (run { pixels (fresh .schipm) 0 [(5, 0)] with ext := true } 0x00C3) 0 5 0 = false := by decide

/-- D20: on legacy SCHIP the amount is in buffer rows. -/
theorem test_scd_legacy : pixelOf (run (pixels (fresh .schip11) 0 [(0, 0), (1, 1)]) 0x00C2) 0 1 3 = true ∧
    pixelOf (run (pixels (fresh .schip11) 0 [(0, 0), (1, 1)]) 0x00C2) 0 0 2 = true := by decide

/-- D22. -/
theorem test_scu : pixelOf (run (pixels (fresh .xochip) 0 [(5, 3)]) 0x00D3) 0 5 0 = true ∧
    pixelOf (run (pixels (fresh .xochip) 0 [(5, 3)]) 0x00D3) 0 5 3 = false := by decide

/-- D23. -/
theorem test_scr : pixelOf (run { pixels (fresh .schipm) 0 [(0, 0), (127, 0)] with ext := true } 0x00FB) 0 4 0 = true ∧
    (run { pixels (fresh .schipm) 0 [(0, 0), (127, 0)] with ext := true } 0x00FB).planes[0][0] = 0x10 := by decide

/-- D24. -/
theorem test_scl : pixelOf (run { pixels (fresh .schipm) 0 [(4, 0), (0, 1)] with ext := true } 0x00FC) 0 0 0 = true ∧
    (run { pixels (fresh .schipm) 0 [(4, 0), (0, 1)] with ext := true } 0x00FC).planes[0][1] = 0 := by decide

/-- D26, D27. -/
theorem test_low : (run { pixels (fresh .schipm) 0 [(9, 9)] with ext := true } 0x00FE).planes[0][9] = 0 ∧
    (run { pixels (fresh .schipm) 0 [(9, 9)] with ext := true } 0x00FE).bufWidth = 64 ∧
    pixelOf (run { pixels (fresh .schip11) 0 [(10, 10)] with ext := true } 0x00FE) 0 10 10 = true ∧
    (run { pixels (fresh .schip11) 0 [(10, 10)] with ext := true } 0x00FE).ext = false := by decide

/-- D28: every plane is cleared, not only the selected one. -/
theorem test_high : (run (pixels (pixels (fresh .xochip) 0 [(1, 1)]) 1 [(1, 1)]) 0x00FF).planes[1][1] = 0 ∧
    (run (pixels (pixels (fresh .xochip) 0 [(1, 1)]) 1 [(1, 1)]) 0x00FF).bufHeight = 64 := by decide

/-- D2, D3: the column past the edge is clipped, or wraps under the quirk. -/
theorem test_drw_edge :
    (run (bytes (regs { fresh .chip8 with i := 0x300 } [(0, 63)]) 0x300 [0xC0]) 0xD011).planes[0][0] = 1#128 <<< 63 ∧
    (run (bytes (regs { fresh .chip8 with i := 0x300 } [(0, 63)]) 0x300 [0xC0]) 0xD011).run = .frameWait ∧
    (run (bytes (regs { fresh .xochip with i := 0x300 } [(0, 63)]) 0x300 [0xC0]) 0xD011).planes[0][0] =
      (1#128 <<< 63) + 1 := by decide

/-- D12, D17: the slices of two planes; a draw whose coordinates are in `VF`. -/
theorem test_drw_planes_and_flag :
    pixelOf (run (bytes { fresh .xochip with i := 0x300, pmask := 3 } 0x300 [0x80, 0x40]) 0xD011) 0 0 0 = true ∧
    pixelOf (run (bytes { fresh .xochip with i := 0x300, pmask := 3 } 0x300 [0x80, 0x40]) 0xD011) 1 1 0 = true ∧
    pixelOf (run (bytes (regs { fresh .chip8 with i := 0x300 } [(15, 2)]) 0x300 [0x80]) 0xDFF1) 0 2 2 = true ∧
    (run (bytes (regs { fresh .chip8 with i := 0x300 } [(15, 2)]) 0x300 [0x80]) 0xDFF1).reg 15 = 0 := by decide

/-- D7: rows past the bottom are counted on legacy SCHIP in extended mode. -/
theorem test_drw_counts_rows :
    (run (regs { fresh .schip11 with i := 0x300, ext := true } [(1, 52)]) 0xD010).reg 15 = 4 := by decide

/-- D9, D10: a 2×2 block on legacy SCHIP in lores, and the same draw again. -/
theorem test_drw_legacy_lores :
    (run (bytes { fresh .schip11 with i := 0x300 } 0x300 [0x80]) 0xD011).planes[0][1] = 3 ∧
    (run (bytes (pixels { fresh .schip11 with i := 0x300 } 0 [(0, 0), (1, 0), (0, 1), (1, 1)]) 0x300 [0x80])
      0xD011).reg 15 = 1 := by decide

/-! ## Frames, the pacer, construction: 95_test_vectors.md sections 7 to 9 -/

/-- T2, T4: a tick at 10 ms is not due; at 16.7 ms it is, once. -/
theorem test_pacer : State.reset.frameDue (10 / 1000) = false ∧ State.reset.frameDue (167 / 10000) = true ∧
    (State.reset.beginFrame (167 / 10000)).frameDue (167 / 10000) = false := by decide +kernel

/-- K6, K7: the timers at the end of a frame, a timer at 0 staying there. -/
theorem test_timers : ({ fresh .chip8 with st := 2 }.closeFrame).st = 1 ∧ ({ fresh .chip8 with st := 2 }.closeFrame).dt = 0 := by
  decide

/-- S7: a silent frame. -/
theorem test_silence : ({ fresh .chip8 with phase := 1 / 2 }.pushSamples).phase = 0 := by decide

/-- X1 to X4, at the bound. -/
theorem test_rom_room : romRoom .chip8 = 3584 ∧ romRoom .chip8x = 3328 ∧ romRoom .xochip = 65024 := by decide

/-- 60_exceptions.md rule R426. -/
theorem test_cause_codes : (Fault.argumentError.kind.map ErrorKind.code) = some 5 ∧
    ((Fault.stackUnderflow 0).kind.map ErrorKind.code) = some 4 := by decide

/-- D31. -/
theorem test_grid_size : (fresh .chip8).gridFits (some (128, 64)) = false ∧ (fresh .chip8).gridFits (some (64, 32)) = true := by
  decide

/-! ## Witnesses: states and operands that meet the hypotheses of each statement, at the bounds of its clauses -/

def request (v : Variant) : SettingsRequest := { variant := v, ipfTarget := some 20 }

def noKeys : Vector Bool 16 := Vector.replicate 16 false

/-- A ROM of exactly the room (X1), and one byte more (X2, X3). -/
theorem witness_ConstructionFailsExactlyOnLargeRom :
    (List.replicate 3584 (0x12 : Byte)).length ≤ memSize .chip8 - (progStart .chip8).toNat ∧
    memSize .chip8 - (progStart .chip8).toNat < (List.replicate 3585 (0x12 : Byte)).length ∧
    memSize .chip8x - (progStart .chip8x).toNat < (List.replicate 3329 (0x12 : Byte)).length := by
  simp only [List.length_replicate]; decide

theorem witness_ConstructionSetsResetValues :
    (List.replicate 3584 (0x12 : Byte)).length ≤ romRoom (request .chip8).variant ∧
    ([] : List Byte).length ≤ romRoom (request .chip8x).variant := by
  simp only [List.length_replicate]; decide

/-- A ROM of two bytes: the bytes around it and around each font. -/
theorem witness_ConstructionPlacesFontsAndRom :
    ∃ s, startSession (request .xochip) 0 noKeys [0x60, 0x05] = .ok s ∧ 0xFFFF < memSize .xochip ∧
      Memory.read .xochip s.mem 0x1FF = 0 ∧ Memory.read .xochip s.mem 0x200 = 0x60 ∧
      Memory.read .xochip s.mem 0x201 = 0x05 ∧ Memory.read .xochip s.mem 0x202 = 0 ∧
      Memory.read .xochip s.mem 0 = 0xF0 ∧ Memory.read .xochip s.mem 79 = 0xF0 ∧
      Memory.read .xochip s.mem 80 = Config.bigFont 0 ∧ Memory.read .xochip s.mem 239 = Config.bigFont 159 ∧
      Memory.read .xochip s.mem 240 = 0 ∧ Memory.read .xochip s.mem 0xFFFF = 0 :=
  ⟨_, rfl, by decide, by decide, by decide, by decide, by decide, by decide, by decide, rfl, rfl, by decide, by decide⟩

theorem witness_DecodeOfEncodingIsInstruction : wellFormed .xochip (.ldILong 0xF000) = true ∧
    wellFormed .schip11 (.saveFlags 7) = true ∧ wellFormed .chip8 (.jp 0xFFF) = true := by decide

theorem witness_DecodedWordIsItsEncoding : decode .xochip 0xF000 0x1234 = .valid (.ldILong 0x1234) ∧
    decode .schip11 0xF785 0x1234 = .valid (.loadFlags 7) := by decide

theorem opcodeMap_zero (w2 : Word) : opcodeMap 0x0000 w2 = none := rfl

/-- `0000` is the first word of no instruction; on Chip8X neither is `B200` that of one of the variant. -/
theorem witness_UnlistedWordsAreInvalidOrRefused :
    (∀ i, inVariantSet .chip8 i = true → i.word1 ≠ 0x0000) ∧ (∀ i, inVariantSet .hwc64 i = true → i.word1 ≠ 0x0000) := by
  have h : ∀ i : Instr, i.word1 ≠ 0x0000 := by
    intro i hi
    have hg : (fieldG i.word1, fieldNN i.word1, fieldN i.word1) = (0, 0, 0) := by rw [hi]; rfl
    cases i <;> simp [Instr.word1] at hg hi <;> revert hi <;> rename_i n <;> revert n <;> decide
  exact ⟨fun i _ => h i, fun i _ => h i⟩

theorem witness_FlagRangeDecidesFlagsStorage : schipClass .megachip = true ∧ (7 : RegIx).val ≤ 7 ∧
    8 ≤ (8 : RegIx).val ∧ xoClass .hwc64 = true ∧ decode .megachip (packXNN 0xF#4 7 0x75#8) 0 = .valid (.saveFlags 7) ∧
    decode .megachip (packXNN 0xF#4 8 0x85#8) 0 = .flagRangeUnknown ∧
    decode .hwc64 (packXNN 0xF#4 15 0x85#8) 0 = .valid (.loadFlags 15) := by decide

theorem memoryCanonical_reset : memoryCanonical State.reset := by
  show Memory.wf _ _; decide

/-- Two addresses that are equal after masking, and two that are not. -/
theorem witness_WriteIsReadBackMasked : memoryCanonical State.reset ∧
    (0x10005 : Addr).toNat % memSize State.reset.variant = (5 : Addr).toNat % memSize State.reset.variant ∧
    (6 : Addr).toNat % memSize State.reset.variant ≠ (5 : Addr).toNat % memSize State.reset.variant := by
  exact ⟨memoryCanonical_reset, by decide, by decide⟩

/-- A state at the bounds: the top of memory, a full stack, every plane, the last slot of its frame; its next
instruction stores a register there. -/
def edge : State :=
  { pixels (fresh .xochip) 3 [(127, 63)] with
    pc := 0xFFFE, i := 0xFFFF, sp := 16, stack := Vector.replicate 16 0xFFFF, pmask := 15, ext := true
    inFrame := true, slots := 19, phase := 127 / 128 }.placeWords 0xF055 0

theorem edge_steps : step edge = .next (after (step edge)) := next_after (by decide)

theorem edge_memory : memoryCanonical edge := by
  show Memory.wf _ _; decide

theorem edge_pixels : pixelsInBuffer edge := by
  intro p x y h
  refine ⟨p.isLt, ?_, ?_⟩
  · by_contra hx
    rw [show edge.bufWidth = 128 from rfl] at hx
    simp [pixelOf, Plane.pixel, BitVec.getLsbD_of_ge _ _ (by omega : 128 ≤ x)] at h
  · by_contra hy
    rw [show edge.bufHeight = 64 from rfl] at hy
    rw [pixelOf, Plane.pixel_of_ge _ _ (by omega)] at h
    exact absurd h (by decide)

theorem witness_StepKeepsMemoryCanonical : memoryCanonical edge ∧ step edge = .next (after (step edge)) ∧
    (after (step edge)).mem ≠ edge.mem := ⟨edge_memory, edge_steps, by decide⟩

theorem witness_ConstructedSessionMeetsInvariants :
    ∃ s, startSession (request .chip8x) 0 noKeys [0x12] = .ok s ∧ 1 ≤ s.settings.ipfTarget := ⟨_, rfl, by decide⟩

theorem witness_StepKeepsAddressesInBounds : pcInBounds edge ∧ indexFits edge ∧ step edge = .next (after (step edge)) :=
  ⟨⟨by decide, by decide⟩, by unfold indexFits; decide, edge_steps⟩

theorem witness_StepKeepsDisplayInBuffer : displayModes edge ∧ pixelsInBuffer edge ∧
    step edge = .next (after (step edge)) ∧ displayModes (fresh .chip8) :=
  ⟨by unfold displayModes; decide, edge_pixels, edge_steps, by unfold displayModes; decide⟩

theorem witness_StepKeepsSchedulerSound : schedulerSound edge ∧ step edge = .next (after (step edge)) :=
  ⟨by unfold schedulerSound; decide, edge_steps⟩

theorem witness_StepKeepsPhaseInRange : phaseInRange edge ∧ step edge = .next (after (step edge)) :=
  ⟨by unfold phaseInRange; decide +kernel, edge_steps⟩

theorem witness_StepNeverChangesSettings : step edge = .next (after (step edge)) := edge_steps

/-- Within a frame, and between frames. -/
theorem witness_StepRunsDecodedInstruction :
    (live edge ∧ edge.inbox = [] ∧ edge.fetchDecode = .valid (.storeRegs 0) ∧ edge.inFrame = true ∧
      edge.run = .running) ∧
    (live ((fresh .chip8).placeWords 0x6005 0) ∧ ((fresh .chip8).placeWords 0x6005 0).inbox = [] ∧
      ((fresh .chip8).placeWords 0x6005 0).fetchDecode = .valid (.ldImm 0 5) ∧
      ((fresh .chip8).placeWords 0x6005 0).inFrame = false) :=
  ⟨⟨.inl rfl, rfl, by decide, rfl, rfl⟩, ⟨.inl rfl, rfl, by decide, rfl⟩⟩

theorem witness_StepFaultsOnInvalidWord :
    live (fresh .chip8) ∧ (fresh .chip8).inbox = [] ∧ (fresh .chip8).fetchDecode = .invalid := ⟨.inl rfl, rfl, by decide⟩

theorem witness_StepRefusesUnknownWords :
    (live (fresh .chip8x) ∧ (fresh .chip8x).inbox = [] ∧ (fresh .chip8x).fetchDecode = .unknownExtension) ∧
    (live ((fresh .schip11).placeWords 0xF875 0) ∧ ((fresh .schip11).placeWords 0xF875 0).inbox = [] ∧
      ((fresh .schip11).placeWords 0xF875 0).fetchDecode = .flagRangeUnknown) :=
  ⟨⟨.inl rfl, rfl, by decide⟩, ⟨.inl rfl, rfl, by decide⟩⟩

theorem witness_EndedSessionTakesNoStep : ((fresh .chip8).halt).run = .halted ∧
    ((fresh .chip8).raise .argumentError).run = .faulted .argumentError ∧
    ((fresh .chip8).refuse .flagRangeUnknown).run = .refused .flagRangeUnknown := ⟨rfl, rfl, rfl⟩

/-- The long form placed at the last two bytes of memory: its second word lies at address 0 (M2). -/
theorem witness_PlacedInstructionIsFetched :
    memoryCanonical { State.reset with pc := 0xFFFE } ∧
    wellFormed ({ State.reset with pc := 0xFFFE } : State).variant (.ldILong 0x1234) = true :=
  ⟨by show Memory.wf _ _; decide, by decide⟩

/-- A session in the middle of a frame, with `k` slots of 20 used. -/
def midFrame (k : Nat) : State := { fresh .chip8 with inFrame := true, slots := k }.placeWords 0x6005 0

/-- The last but one slot and the last, silent and with tone; a draw that waits for the display with slots left. -/
theorem witness_InstructionUsesOneSlotAndFrameEnds :
    (∀ k, k = 18 ∨ k = 19 → ∀ b, b = 0 ∨ b = 1 →
      ∃ t, exec (.ldImm 0 5) { midFrame k with st := b }.ready.advance = .next t ∧ t.run = .running ∧
        t.gridFits t.hostGrid = true ∧ t.pcmFits t.hostPcm = true ∧ t.st = b ∧ (t.slots + 1 < t.ipfEff ↔ k = 18)) ∧
    (midFrame 18).run = .running ∧ (midFrame 19).inFrame = true ∧ (midFrame 19).inbox = [] ∧
    (midFrame 19).strictMode = false ∧ (midFrame 19).fetchDecode = .valid (.ldImm 0 5) ∧
    ((midFrame 0).placeWords 0xD011 0).fetchDecode = .valid (.drw 0 1 1) ∧
    ((midFrame 0).placeWords 0xD011 0).strictMode = false ∧
    (∃ t, exec (.drw 0 1 1) ((midFrame 0).placeWords 0xD011 0).ready.advance = .next t ∧ t.run = .frameWait ∧
      t.gridFits t.hostGrid = true ∧ t.pcmFits t.hostPcm = true) := by
  refine ⟨?_, rfl, rfl, rfl, by decide, by decide, by decide, by decide, _, rfl, rfl, rfl, rfl⟩
  rintro k (rfl | rfl) b (rfl | rfl) <;> exact ⟨_, rfl, rfl, rfl, rfl, rfl, by decide⟩

theorem witness_DisplayWaitEndsTheFrame :
    live ((fresh .chip8).placeWords 0xD011 0) ∧ ((fresh .chip8).placeWords 0xD011 0).inbox = [] ∧
    ((fresh .chip8).placeWords 0xD011 0).quirks.displayWait = true ∧
    ((fresh .chip8).placeWords 0xD011 0).strictMode = false ∧
    ((fresh .chip8).placeWords 0xD011 0).fetchDecode = .valid (.drw 0 1 1) ∧
    step ((fresh .chip8).placeWords 0xD011 0) = .next (run (fresh .chip8) 0xD011) :=
  ⟨.inl rfl, rfl, rfl, by decide, by decide, next_after (by decide)⟩

/-- 60_exceptions.md rule R444: the hook is consulted once per instruction with debugging on, and not with it off. -/
theorem test_debug_hook : (after (step { midFrame 0 with debug := true })).hookCalls = 1 ∧
    (after (step (midFrame 0))).hookCalls = 0 ∧ (after (step { midFrame 0 with debug := true })).reg 0 = 5 := by decide

/-- 60_exceptions.md rule R424: a malformed grid is fatal inside a frame too. -/
theorem test_render_argument_error : step { midFrame 0 with inbox := [.render (some (128, 64))] } = .fault .argumentError ∧
    (after (step { midFrame 0 with inbox := [.render (some (64, 32))] })).inbox = [] := ⟨rfl, rfl⟩

/-- A session between frames with a tick to come, its clock at `c`. -/
def ticking (c : Rat) : State := { fresh .chip8 with clock := c, inbox := [.tick] }

/-- Each move of the host, between frames and inside one; for the tick: not due; due at the tolerance, with no
resync; due after a lag past `PACER_MAX_LAG`. -/
theorem witness_TickBeginsFrameWhenDue :
    (∀ b e, live { midFrame 0 with inFrame := b, inbox := [e] } ∧
      ({ midFrame 0 with inFrame := b, inbox := [e] } : State).inbox = e :: [] ∧
      ({ midFrame 0 with inFrame := b, inbox := [e] } : State).inFrame = b ∧
      ({ midFrame 0 with inFrame := b, inbox := [e] } : State).fetchDecode = .valid (.ldImm 0 5)) ∧
    goesOn (step { midFrame 0 with inbox := [.cancel] }) = true ∧
    (∀ c, live (ticking c) ∧ (ticking c).inFrame = false ∧ (ticking c).inbox = .tick :: []) ∧
    (ticking 0).clock + 1 / 1000 < (ticking 0).deadline ∧
    ((ticking (1 / 60 - 1 / 1000)).deadline ≤ (ticking (1 / 60 - 1 / 1000)).clock + 1 / 1000 ∧
      (ticking (1 / 60 - 1 / 1000)).clock -
        ((ticking (1 / 60 - 1 / 1000)).deadline + (ticking (1 / 60 - 1 / 1000)).period) ≤ Config.pacerMaxLag) ∧
    (∃ c, (ticking c).deadline ≤ (ticking c).clock + 1 / 1000 ∧
      Config.pacerMaxLag < (ticking c).clock - ((ticking c).deadline + (ticking c).period)) := by
  have hd : ∀ c, (ticking c).deadline = 1 / 60 := fun c => by simp [ticking, fresh, State.fresh, resolveSettings]
  have hp : ∀ c, (ticking c).period = 1 / 60 := fun c => by
    simp [ticking, fresh, State.fresh, resolveSettings, State.period]
  have hc : ∀ c, (ticking c).clock = c := fun c => rfl
  have hl := pacerMaxLag_nonneg
  have hm : (midFrame 0).fetchDecode = .valid (.ldImm 0 5) := by decide
  refine ⟨fun b e => ⟨.inl rfl, rfl, rfl, hm⟩, by decide, fun c => ⟨.inl rfl, rfl, rfl⟩, ?_, ⟨?_, ?_⟩,
    Config.pacerMaxLag + 1, ?_, ?_⟩ <;>
    simp only [hd, hp, hc] <;> norm_num <;> linarith

/-- An adaptive session at the end of a frame that took the time `w`, and one that is not adaptive. -/
def adaptive (target : Nat) (w : Rat) : State :=
  { State.fresh (resolveSettings { variant := .chip8, ipfTarget := some target }) 0 noKeys with
    clock := w, inFrame := true }

/-- The end of a strict frame at a target of a million. -/
def strictAdaptive : State :=
  { State.fresh (resolveSettings { variant := .chip8, ipfTarget := some 1000000, strict := true }) 0 noKeys with
    clock := 1, inFrame := true }

theorem witness_FrameEndSetsAdaptiveBudget :
    (∀ n, (adaptive n 0).strictMode = false ∧ (adaptive n 0).settings.ipfTarget = n) ∧
    (∀ n w, ∃ t, (adaptive n w).endFrame = .next t) ∧
    strictAdaptive.strictMode = true ∧ 1000000 ≤ strictAdaptive.settings.ipfTarget ∧
    (∃ t, strictAdaptive.endFrame = .next t) ∧
    (adaptive 1000000 (1 / 60)).clock - (adaptive 1000000 (1 / 60)).frameStart = (adaptive 1000000 (1 / 60)).period := by
  refine ⟨fun n => ⟨rfl, rfl⟩, fun n w => ⟨_, rfl⟩, by decide, by decide, ⟨_, rfl⟩, ?_⟩
  simp [adaptive, State.fresh, resolveSettings, State.period]

/-- A strict session one cycle before the boundary. -/
def strictSession : State :=
  { State.fresh (resolveSettings { variant := .chip8, ipfTarget := some 20, strict := true }) 0 noKeys with
    cyc := 3667, inFrame := true }.placeWords 0x6005 0

theorem witness_StrictFrameCountsCycles :
    strictSession.run = .running ∧ strictSession.inFrame = true ∧ strictSession.inbox = [] ∧
    strictSession.strictMode = true ∧ strictSession.fetchDecode = .valid (.ldImm 0 5) ∧
    (∃ t, exec (.ldImm 0 5) strictSession.ready.advance = .next t ∧ t.run = .running ∧
      t.gridFits t.hostGrid = true ∧ t.pcmFits t.hostPcm = true) ∧
    (strictSession.placeWords 0xD011 0).fetchDecode = .valid (.drw 0 1 1) ∧
    (∃ t, exec (.drw 0 1 1) (strictSession.placeWords 0xD011 0).ready.advance = .next t ∧ t.run = .frameWait) :=
  ⟨rfl, rfl, rfl, by decide, by decide, ⟨_, rfl, rfl, rfl, rfl⟩, by decide, _, rfl, rfl⟩

/-- A buffer one sample too long, a grid of another size, and buffers of the right sizes. -/
theorem witness_WrongBufferIsArgumentError :
    (∃ n, ({ fresh .chip8 with hostPcm := some (Config.sampleRate / 60 + 1) } : State).hostPcm = some n ∧
      n ≠ Config.sampleRate / (fresh .chip8).settings.frameRate) ∧
    (∃ g, ({ fresh .chip8 with hostGrid := some (128, 64) } : State).hostGrid = some g ∧
      g ≠ ((fresh .chip8).bufWidth, (fresh .chip8).bufHeight)) ∧
    (fresh .chip8).hostPcm = none ∧ (fresh .chip8).hostGrid = none ∧
    (∀ grid, live { fresh .chip8 with inbox := [.render grid] }) ∧
    ((128, 64) : Nat × Nat) ≠ ((fresh .chip8).bufWidth, (fresh .chip8).bufHeight) := by
  refine ⟨⟨_, rfl, ?_⟩, ⟨_, rfl, by decide⟩, rfl, rfl, fun _ => .inl rfl, by decide⟩
  rw [show (fresh .chip8).settings.frameRate = 60 from rfl]
  omega

/-- A session of one frame a second whose phase is `q` of 128, so that a frame has a sample. -/
def toneAt (q : Nat) : State :=
  { State.fresh (resolveSettings { variant := .xochip, ipfTarget := some 20, frameRate := some 1 }) 0 noKeys with
    st := 1, phase := q / 128 }

/-- The first sample at the first and the last bit of the pattern; the pitches at the ends of the exact ones and one
between them; a variant of each mapping. -/
theorem witness_PcmBufferFollowsSoundTimer_samples :
    (toneAt 0).st ≠ 0 ∧ 0 < Config.sampleRate / (toneAt 0).settings.frameRate ∧
    (∀ q : Fin 128, ((q.val : Nat) : Int) =
      (phaseAt (stepOf (toneAt q).variant (toneAt q).pitch) (toneAt q).phase 0 * 128).floor) ∧
    phaseInRange (toneAt 127) ∧ xoClass (toneAt 0).variant = true ∧ xoClass (fresh .chip8).variant = false ∧
    (16#8).toNat = 16 + 48 * (0 : Fin 5).val ∧ (208#8).toNat = 16 + 48 * (4 : Fin 5).val ∧
    (∀ j : Fin 5, (65#8).toNat ≠ 16 + 48 * j.val) := by
  have hf : (toneAt 0).settings.frameRate = 1 := rfl
  refine ⟨by decide, by rw [hf, Nat.div_one]; exact Nat.succ_pos _, fun q => ?_, ?_, rfl, rfl, by decide, by decide,
    by decide⟩
  · have hp : (toneAt q).phase = (q.val : Rat) / 128 := rfl
    rw [phaseAt, hp, div_mul_cancel₀ _ (by norm_num)]
    exact (Rat.floor_intCast (q.val : Int)).symm
  · have hp : (toneAt 127).phase = (127 : Rat) / 128 := rfl
    unfold phaseInRange; rw [hp]; norm_num

/-- Silence, tone, and tone with an all-ones pattern (S7). -/
theorem witness_PcmBufferFollowsSoundTimer : (fresh .chip8).st = 0 ∧
    ({ fresh .xochip with st := 1, pattern := Vector.replicate 16 0xFF } : State).st ≠ 0 ∧
    (∀ k : Fin 16, ({ fresh .xochip with st := 1, pattern := Vector.replicate 16 0xFF } : State).pattern[k.val] = 0xFF) := by
  decide

/-- D31: a grid of the wrong size; the last pixel of the buffer. -/
theorem witness_CompositeShowsPlanesThroughPalette :
    ((128, 64) : Nat × Nat) ≠ ((fresh .chip8).bufWidth, (fresh .chip8).bufHeight) ∧
    63 < (fresh .chip8).bufWidth ∧ 31 < (fresh .chip8).bufHeight := by decide

theorem witness_OnlyStackInstructionsFault :
    (after (exec .ret (fresh .chip8))).run = .faulted (.stackUnderflow (fresh .chip8).instrAddr) ∧
    (after (exec (.call 0x300) { fresh .chip8 with sp := 16 })).run = .faulted (.stackOverflow (fresh .chip8).instrAddr) ∧
    (after (exec .exit (fresh .xochip))).run = .halted := by decide

theorem exec_next (i : Instr) (s : State) (h : goesOn (exec i s) = true) : exec i s = .next (after (exec i s)) :=
  next_after h

/-- One instruction for each piece of state, which it does change. -/
theorem witness_OnlyNamedInstructionsWrite :
    (∀ i ∈ ([.ldB 0, .ret, .saveFlags 0, .ldVxK 0, .plane 3, .high, .audio, .pitch 0, .ldDtVx 0, .ldStVx 0, .ldI 9,
      .cls] : List Instr), goesOn (exec i (held edge [2])) = true) ∧
    (after (exec (.ldB 0) (regs edge [(0, 1)]))).mem ≠ (regs edge [(0, 1)]).mem ∧ (after (exec .ret edge)).sp ≠ edge.sp ∧
    (after (exec (.saveFlags 0) (regs edge [(0, 1)]))).flags ≠ (regs edge [(0, 1)]).flags ∧
    (after (exec (.ldVxK 0) (held edge [2]))).keyWait ≠ edge.keyWait ∧ (after (exec (.plane 3) edge)).pmask ≠ edge.pmask ∧
    (after (exec .low edge)).ext ≠ edge.ext ∧ (after (exec .audio edge)).pattern ≠ edge.pattern ∧
    (after (exec (.pitch 0) edge)).pitch ≠ edge.pitch ∧
    (after (exec (.ldDtVx 0) (regs edge [(0, 1)]))).dt ≠ edge.dt ∧
    (after (exec (.ldStVx 0) (regs edge [(0, 1)]))).st ≠ edge.st ∧ (after (exec (.ldI 9) edge)).i ≠ edge.i ∧
    (after (exec .cls edge)).planes ≠ edge.planes := by decide

theorem witness_VfWritersAreTheFlagInstructions :
    exec (.addReg 0 0) (regs (fresh .chip8) [(0, 0x80)]) =
      .next (after (exec (.addReg 0 0) (regs (fresh .chip8) [(0, 0x80)]))) ∧
    (after (exec (.addReg 0 0) (regs (fresh .chip8) [(0, 0x80)]))).reg 15 ≠ (regs (fresh .chip8) [(0, 0x80)]).reg 15 :=
  ⟨rfl, by decide⟩

/-- With the quirk and without it. -/
theorem witness_LogicResults :
    (Instr.orReg 15 1 = .orReg 15 1 ∧ (0xFF : Byte) = (regs (fresh .chip8) [(15, 0x0F), (1, 0xF0)]).reg 15 |||
      (regs (fresh .chip8) [(15, 0x0F), (1, 0xF0)]).reg 1) ∧
    (fresh .chip8).quirks.vfReset = true ∧ (fresh .xochip).quirks.vfReset = false := by decide

theorem witness_ShiftResults : (0x40 : Byte) = (if (fresh .schip11).quirks.shiftInPlace then
      (regs (fresh .schip11) [(0, 0x40), (1, 2)]).reg 0 else (regs (fresh .schip11) [(0, 0x40), (1, 2)]).reg 1) ∧
    (2 : Byte) = (if (fresh .chip8).quirks.shiftInPlace then
      (regs (fresh .chip8) [(0, 0x40), (1, 2)]).reg 0 else (regs (fresh .chip8) [(0, 0x40), (1, 2)]).reg 1) := by decide

/-- The mask 0 of the draw's last clause. -/
theorem witness_RandomResult : (0 : Byte) = 0 ∧ goesOn (exec (.rnd 15 0) (fresh .chip8)) = true := by decide

theorem witness_IndexResults : xoClass (fresh .xochip).variant = true ∧
    ((fresh .xochip).placeWords 0xF000 0x1234).readWord ((fresh .xochip).placeWords 0xF000 0x1234).pc = 0xF000 := by decide

theorem witness_BcdResult : memoryCanonical edge := edge_memory

/-- With `autoIncI` and without it; the last register of the range. -/
theorem witness_StoreRegistersResult : memoryCanonical edge ∧ (15 : RegIx) ≤ 15 ∧ edge.quirks.autoIncI = true ∧
    (fresh .schip11).quirks.autoIncI = false := ⟨edge_memory, by decide, rfl, rfl⟩

theorem witness_LoadRegistersResult : (0 : RegIx) ≤ 0 ∧ (0 : RegIx) < 1 ∧ (fresh .chip8).quirks.autoIncI = true ∧
    (fresh .schip11).quirks.autoIncI = false := by decide

/-- In order, in reverse, one register, and registers outside the range. -/
theorem witness_SaveRangeResult : memoryCanonical edge ∧ (3 : RegIx) ≤ 3 ∧ (2 : RegIx) < 3 :=
  ⟨edge_memory, by decide, by decide⟩

theorem witness_LoadRangeResult : (2 : RegIx) ≤ 3 ∧ (2 : RegIx) < 3 ∧
    (((1 : RegIx) < 2 ∧ (1 : RegIx) < 3) ∨ ((2 : RegIx) < 1 ∧ (3 : RegIx) < 1)) ∧
    (((4 : RegIx) < 2 ∧ (4 : RegIx) < 3) ∨ ((2 : RegIx) < 4 ∧ (3 : RegIx) < 4)) := by decide

theorem witness_FlagsStorageResults : (7 : RegIx) ≤ 7 ∧ (7 : RegIx) < 8 := by decide

/-- The last free entry, the last entry in use, the first. -/
theorem witness_CallAndReturnResults : ({ fresh .chip8 with sp := 15 } : State).sp.val < 16 ∧
    ({ fresh .chip8 with sp := 16 } : State).sp.val = (15 : Fin 16).val + 1 ∧
    ({ fresh .chip8 with sp := 1 } : State).sp.val = (0 : Fin 16).val + 1 ∧
    (fresh .chip8).pc.toNat < memSize (fresh .chip8).variant := by decide

theorem witness_StackErrorsWriteNothingAndFault :
    (live ({ fresh .chip8 with sp := 16 }.placeWords 0x2300 0) ∧
      ({ fresh .chip8 with sp := 16 }.placeWords 0x2300 0).inbox = [] ∧
      ({ fresh .chip8 with sp := 16 }.placeWords 0x2300 0).pc.toNat < memSize .chip8 ∧
      ({ fresh .chip8 with sp := 16 }.placeWords 0x2300 0).fetchDecode = .valid (.call 0x300) ∧
      ({ fresh .chip8 with sp := 16 }.placeWords 0x2300 0).sp.val = 16) ∧
    (live ((fresh .chip8).placeWords 0x00EE 0) ∧ ((fresh .chip8).placeWords 0x00EE 0).inbox = [] ∧
      ((fresh .chip8).placeWords 0x00EE 0).pc.toNat < memSize .chip8 ∧
      ((fresh .chip8).placeWords 0x00EE 0).fetchDecode = .valid .ret ∧
      ((fresh .chip8).placeWords 0x00EE 0).sp.val = 0) :=
  ⟨⟨.inl rfl, rfl, by decide, by decide, rfl⟩, ⟨.inl rfl, rfl, by decide, by decide, rfl⟩⟩

/-- A skip past two bytes and one past four. -/
theorem witness_SkipResults : skipTarget (fresh .chip8) = 0x202 ∧ skipTarget ((fresh .xochip).placeWords 0xF000 0) = 0x204 := by
  unfold skipTarget; decide

theorem witness_ExitHaltsTheSession : live ((fresh .schip10).placeWords 0x00FD 0) ∧
    ((fresh .schip10).placeWords 0x00FD 0).inbox = [] ∧ ((fresh .schip10).placeWords 0x00FD 0).fetchDecode = .valid .exit :=
  ⟨.inl rfl, rfl, by decide⟩

theorem witness_ScrollResults : 127 < edge.bufWidth ∧ 63 < edge.bufHeight ∧ edge.selected 3 = true ∧
    63 < (fresh .chip8).bufWidth ∧ 31 < (fresh .chip8).bufHeight ∧ (fresh .chip8).selected 1 = false := by decide

theorem witness_ModeAndPlaneResults :
    ((Instr.low = .low ∧ false = false) ∨ (Instr.low = .high ∧ false = true)) ∧
    ((Instr.high = .low ∧ true = false) ∨ (Instr.high = .high ∧ true = true)) ∧
    legacySchip (fresh .schipm).variant = false ∧ legacySchip (fresh .schip11).variant = true := by decide

/-- A sprite row of eight pixels at the origin of a clean screen (41_display.md rule R213). -/
def spriteState (v : Variant) : State := bytes { fresh v with i := 0x300 } 0x300 [0xFF]

theorem covers_origin (v : Variant) (hs : (spriteState v).selected 0 = true)
    (hd : (spriteState v).drawSetup 0 1 1 = ⟨0, 0, 1, 8, 1, 64, 32, 1, (spriteState v).quirks.wrap, false, .xor⟩)
    (hb : sliceByte (spriteState v) ((spriteState v).drawSetup 0 1 1) 0 0 = 0xFF) :
    spriteCovers (spriteState v) ((spriteState v).drawSetup 0 1 1) 0 7 0 := by
  rw [hd] at hb ⊢
  refine ⟨hs, 0, by simp, .inl ⟨by simp, by simp⟩, 7, by simp, .inl ⟨by simp, by simp⟩, ?_⟩
  unfold spriteBit
  simp only [Nat.zero_mul, Nat.zero_add, Nat.reduceDiv]
  rw [hb]
  decide

/-- A covered pixel, and one in a plane that the variant lacks, where rows are not counted. -/
theorem witness_DrawFlipsCoveredPixels :
    (spriteState .chip8).dmode = .xor ∧ (spriteState .chip8).countsRows = false ∧
    spriteCovers (spriteState .chip8) ((spriteState .chip8).drawSetup 0 1 1) 0 7 0 ∧
    ¬spriteCovers (spriteState .chip8) ((spriteState .chip8).drawSetup 0 1 1) 1 7 0 :=
  ⟨rfl, rfl, covers_origin .chip8 (by decide) (by decide) (by decide), fun h => absurd h.1 (by decide)⟩

theorem blank_pixel (s : State) (h : s.planes = Vector.replicate 4 (Vector.replicate 64 0)) (p : Fin 4) (x y : Nat) :
    pixelOf s p x y = false := by
  simp only [pixelOf, h, Vector.getElem_replicate]
  by_cases hy : y < 64
  · rw [Plane.pixel_of_lt _ _ hy]; simp
  · rw [Plane.pixel_of_ge _ _ (by omega)]

/-- S9, D7: the rows 12 to 15 of the sprite lie past the bottom. -/
theorem witness_LegacyDrawCountsRows :
    let s := regs { fresh .schip11 with i := 0x300, ext := true } [(1, 52)]
    displayModes s ∧ s.countsRows = true ∧ [12, 13, 14, 15].Nodup ∧
    (∀ r, r ∈ [12, 13, 14, 15] ↔ r < (s.drawSetup 0 1 0).rows ∧ ((s.drawSetup 0 1 0).h ≤ (s.drawSetup 0 1 0).y0 + r ∨
      ∃ bx py, rowCovers s (s.drawSetup 0 1 0) 0 r bx py ∧ pixelOf s 0 bx py = true)) := by
  intro s
  refine ⟨by unfold displayModes; decide, by decide, by decide, fun r => ?_⟩
  have hp : ∀ bx py, pixelOf s 0 bx py = false := fun bx py => blank_pixel s rfl 0 bx py
  have hd : (s.drawSetup 0 1 0).rows = 16 ∧ (s.drawSetup 0 1 0).h = 64 ∧ (s.drawSetup 0 1 0).y0 = 52 := by decide
  simp only [hp, hd.1, hd.2.1, hd.2.2, Bool.false_eq_true, and_false, exists_false, or_false, List.mem_cons,
    List.not_mem_nil]
  omega

/-- S5: the first draw on a clean screen, and the second. -/
theorem witness_DrawTwiceRestoresPlanes :
    (spriteState .xochip).dmode = .xor ∧ (0 : RegIx) ≠ 15 ∧ (1 : RegIx) ≠ 15 ∧
    (∃ t u, exec (.drw 0 1 1) (spriteState .xochip) = .next t ∧ exec (.drw 0 1 1) t = .next u) ∧
    (spriteState .xochip).countsRows = false ∧ (∀ p bx py, pixelOf (spriteState .xochip) p bx py = false) ∧
    ∃ p bx py, spriteCovers (spriteState .xochip) ((spriteState .xochip).drawSetup 0 1 1) p bx py :=
  ⟨rfl, by decide, by decide, ⟨_, _, rfl, rfl⟩, rfl, fun p bx py => blank_pixel _ rfl p bx py,
    0, 7, 0, covers_origin .xochip (by decide) (by decide) (by decide)⟩

/-- Idle with no key, with keys 3 and 9; awaiting key 3, held and released. -/
theorem witness_GetKeyResults :
    (fresh .chip8).keyWait = .idle ∧ (∀ k, (fresh .chip8).key k = false) ∧ (held (fresh .chip8) [3, 9]).key 3 = true ∧
    (∀ j, j < (3 : RegIx) → (held (fresh .chip8) [3, 9]).key j = false) ∧
    ({ held (fresh .chip8) [3, 9] with keyWait := .awaiting 3 } : State).key 3 = true ∧
    ({ held (fresh .chip8) [9] with keyWait := .awaiting 3 } : State).keyWait = .awaiting 3 ∧
    ({ held (fresh .chip8) [9] with keyWait := .awaiting 3 } : State).key 3 = false := by decide

end Sys2Proof.Tests
end

section
/-! PROOF. A session that has ended takes no step (00_scope.md rule R19, 10_state.md rule R41). -/

namespace Sys2Proof.Machine

/-! ## The step of an ended session -/

theorem step_of_halted {s : State} (h : s.run = .halted) : step s = .fault .sessionHalted := by
  simp [step, machineStep, h]

theorem step_of_faulted {s : State} {r : Fault} (h : s.run = .faulted r) : step s = .fault r := by
  simp [step, machineStep, h]

theorem step_of_refused {s : State} {r : Refusal} (h : s.run = .refused r) : step s = .refused r := by
  simp [step, machineStep, h]

/-- Settles O22: each of the three forms of `RUN` in which a session has ended fixes the answer of its step. -/
theorem endedSessionTakesNoStep : Obligations.EndedSessionTakesNoStep :=
  fun _ => ⟨step_of_halted, fun _ => step_of_faulted, fun _ => step_of_refused⟩

end Sys2Proof.Machine
end

section
/-! PROOF. What an instruction can do to the machine, said once for every instruction. -/

namespace Sys2Proof.Machine

open Sys2Proof.Safety

/-- Every pixel set in the plane lies in the first `bw` columns and `bh` rows. -/
def Plane.inBox (bw bh : Nat) (p : Plane) : Prop := ∀ x y, Plane.pixel p x y = true → x < bw ∧ y < bh

theorem inBox_blankPlane (bw bh : Nat) : blankPlane.inBox bw bh := fun x y h => by simp at h

theorem inBox_scrollDown {bw bh : Nat} (hb : bh ≤ 64) (n : Nat) {p : Plane} (h : p.inBox bw bh) :
    (p.scrollDown bh n).inBox bw bh := fun x y hp => by
  rw [Plane.pixel_scrollDown p hb, Bool.and_eq_true, decide_eq_true_eq] at hp
  exact ⟨(h _ _ hp.2).1, hp.1.2⟩

theorem inBox_scrollUp {bw bh : Nat} (hb : bh ≤ 64) (n : Nat) {p : Plane} (h : p.inBox bw bh) :
    (p.scrollUp bh n).inBox bw bh := fun x y hp => by
  rw [Plane.pixel_scrollUp p hb, Bool.and_eq_true, decide_eq_true_eq] at hp
  exact ⟨(h _ _ hp.2).1, by omega⟩

theorem inBox_scrollRight {bw bh : Nat} (hb : bw ≤ 128) (n : Nat) {p : Plane} (h : p.inBox bw bh) :
    (p.scrollRight bw n).inBox bw bh := fun x y hp => by
  rw [Plane.pixel_scrollRight p hb, Bool.and_eq_true, decide_eq_true_eq] at hp
  exact ⟨hp.1.2, (h _ _ hp.2).2⟩

theorem inBox_scrollLeft {bw bh : Nat} (hb : bw ≤ 128) (n : Nat) {p : Plane} (h : p.inBox bw bh) :
    (p.scrollLeft bw n).inBox bw bh := fun x y hp => by
  rw [Plane.pixel_scrollLeft p hb, Bool.and_eq_true, decide_eq_true_eq] at hp
  exact ⟨by omega, (h _ _ hp.2).2⟩

/-- What an instruction run in `s` can leave, by the part of the machine it writes. -/
inductive ExecTo (s : State) : Instr → State → Prop
  /-- Neither an address nor the display is written. -/
  | data (i : Instr) (t : State)
      (h : t = { s with
        v := t.v, dt := t.dt, st := t.st, flags := t.flags, run := t.run, keyWait := t.keyWait, draws := t.draws
        mem := t.mem, pattern := t.pattern, pitch := t.pitch }) : ExecTo s i t
  /-- `PC` goes elsewhere; the get-key instruction may note a key. -/
  | goto (i : Instr) (a : Addr) (k : KeyWait) : ExecTo s i { s.setPc a with keyWait := k }
  /-- `2NNN` with room on the stack. -/
  | call (nnn : Imm12) (h : s.sp.val < 16) : ExecTo s (.call nnn) ((s.push h).setPc (nnn.setWidth 24))
  /-- `00EE` with an entry on the stack. -/
  | ret : ExecTo s .ret (s.popSp.setPc s.topOfStack)
  /-- `I` is written, and with it perhaps registers or memory. -/
  | index (i : Instr) (a : Addr) (v : Vector Byte 16) (m : List Host.Cell) :
      ExecTo s i { s.setI a with v := v, mem := m }
  /-- `F000 NNNN`: `PC` and `I`. -/
  | longIndex (w : Word) : ExecTo s (.ldILong w) ((s.setPc (s.pc + 2)).setI (w.setWidth 24))
  /-- `DXYN`. -/
  | draw (x y : RegIx) (n : Nibble) (v : Vector Byte 16) (r : RunState) :
      ExecTo s (.drw x y n) { s with v := v, run := r, planes := (s.drawSprite x y n).planes }
  /-- The selected planes are cleared or scrolled within the buffer. -/
  | scroll (i : Instr) (f : Plane → Plane)
      (hf : ∀ p : Plane, p.inBox s.bufWidth s.bufHeight → (f p).inBox s.bufWidth s.bufHeight) :
      ExecTo s i (s.mapSelected f)
  /-- `00FE`, `00FF`. -/
  | switch (i : Instr) (e : Bool) (hi : i = .low ∨ i = .high) : ExecTo s i (s.setExt e)
  /-- `FN01`. -/
  | plane (n : Nibble) : ExecTo s (.plane n) { s with pmask := n }

variable {s t : State} {i : Instr}

theorem ExecTo.setPc (s : State) (i : Instr) (a : Addr) : ExecTo s i (s.setPc a) := .goto i a s.keyWait

theorem ExecTo.setI (s : State) (i : Instr) (a : Addr) : ExecTo s i (s.setI a) := .index i a s.v s.mem

theorem ExecTo.skipIf (s : State) (i : Instr) (c : Bool) : ExecTo s i (s.skipIf c) := by
  unfold State.skipIf State.skip
  split
  · split
    · exact .setPc s i _
    · exact .setPc s i _
  · exact .data i s rfl

theorem ExecTo.setLogic (s : State) (i : Instr) (x : RegIx) (r : Byte) : ExecTo s i (s.setLogic x r) := by
  rw [State.setLogic_frame]
  exact .data i _ rfl

theorem ExecTo.storeBytes (s : State) (i : Instr) (a : Addr) (bs : List Byte) : ExecTo s i (s.storeBytes a bs) := by
  rw [State.storeBytes_frame]
  exact .data i _ rfl

theorem ExecTo.setRegs (s : State) (i : Instr) (ps : List (RegIx × Byte)) : ExecTo s i (s.setRegs ps) := by
  rw [State.setRegs_frame]
  exact .data i _ rfl

theorem ExecTo.setFlags (s : State) (i : Instr) (ps : List (RegIx × Byte)) : ExecTo s i (s.setFlags ps) := by
  rw [State.setFlags_frame]
  exact .data i _ rfl

/-- A register save or load, and then the advance of `I` under the quirk. -/
theorem ExecTo.autoInc (s : State) (i : Instr) (x : RegIx) (v : Vector Byte 16) (m : List Host.Cell) :
    ExecTo s i (State.autoInc { s with v := v, mem := m } x) := by
  unfold State.autoInc
  split
  · exact .index i _ v m
  · exact .data i _ rfl

theorem ExecTo.of_call {nnn : Imm12} (h : execCall nnn s = .next t) : ExecTo s (.call nnn) t := by
  unfold execCall at h
  split at h
  · rename_i hsp
    cases h; exact .call nnn hsp
  · cases h; exact .data _ _ rfl

theorem ExecTo.of_ret (h : execRet s = .next t) : ExecTo s .ret t := by
  unfold execRet at h
  split at h
  · cases h; exact .data _ _ rfl
  · cases h; exact .ret

theorem ExecTo.of_ldVxK {x : RegIx} (h : execLdVxK x s = .next t) : ExecTo s (.ldVxK x) t := by
  unfold execLdVxK at h
  split at h
  · split at h
    · cases h; exact .goto _ _ _
    · cases h; exact .setPc s _ _
  · split at h
    · cases h; exact .setPc s _ _
    · cases h; exact .data _ _ rfl

/-- The cases of an instruction. -/
theorem exec_cases (h : exec i s = .next t) : ExecTo s i t := by
  cases i with
  | ldImm | addImm | ldReg | addReg | subReg | shr | subn | shl | rnd | audio | ldVxDt | ldDtVx | ldStVx
  | pitch | exit =>
    cases h; exact .data _ _ rfl
  | orReg | andReg | xorReg => cases h; exact .setLogic s _ _ _
  | jp | jpOffset => cases h; exact .setPc s _ _
  | seImm | sneImm | seReg | sneReg | skp | sknp => cases h; exact .skipIf s _ _
  | call => exact .of_call h
  | ret => exact .of_ret h
  | ldI | addI | ldF | ldHF => cases h; exact .setI s _ _
  | ldILong w => cases h; exact .longIndex w
  | ldB | saveRange => cases h; exact .storeBytes s _ _ _
  | loadRange | loadFlags => cases h; exact .setRegs s _ _
  | saveFlags => cases h; exact .setFlags s _ _
  | storeRegs x => cases h; rw [State.storeBytes_frame]; exact .autoInc s _ x s.v _
  | loadRegs x => cases h; rw [State.setRegs_frame]; exact .autoInc s _ x _ s.mem
  | ldVxK => exact .of_ldVxK h
  | drw x y n => cases h; split <;> exact .draw x y n _ _
  | cls => cases h; exact .scroll _ _ fun _ _ => inBox_blankPlane _ _
  | scd => cases h; exact .scroll _ _ fun _ => inBox_scrollDown s.bufHeight_le _
  | scu => cases h; exact .scroll _ _ fun _ => inBox_scrollUp s.bufHeight_le _
  | scr => cases h; exact .scroll _ _ fun _ => inBox_scrollRight s.bufWidth_le _
  | scl => cases h; exact .scroll _ _ fun _ => inBox_scrollLeft s.bufWidth_le _
  | low => cases h; exact .switch _ _ (.inl rfl)
  | high => cases h; exact .switch _ _ (.inr rfl)
  | plane n => cases h; exact .plane n

/-- No instruction writes the settings, the budget, the cycle count, the draw mode, MegaChip's display, the sound's
phase and buffer, the pacer, the frame loop or the host's side. -/
theorem exec_frame (h : exec i s = .next t) :
    t = { s with
      v := t.v, pc := t.pc, i := t.i, stack := t.stack, sp := t.sp, dt := t.dt, st := t.st, flags := t.flags
      run := t.run, keyWait := t.keyWait, draws := t.draws, mem := t.mem, planes := t.planes, pmask := t.pmask
      ext := t.ext, pattern := t.pattern, pitch := t.pitch } := by
  cases exec_cases h with
  | data _ _ ht => rw [ht]
  | switch e => rw [State.setExt_frame]
  | goto | call | ret | index | longIndex | draw | scroll | plane => rfl

theorem exec_settings (h : exec i s = .next t) : t.settings = s.settings := by rw [exec_frame h]

/-- What decodes is an instruction of the variant. -/
theorem inVariantSet_of_fetchDecode (h : s.fetchDecode = .valid i) : inVariantSet s.variant i = true := by
  unfold State.fetchDecode decode unlisted at h
  split at h
  · split at h <;> cases h
  · split at h
    · split at h <;> cases h
    · rename_i j hset
      split at h
      · cases h
      · cases h; simpa using hset

/-! ## What every step keeps -/

/-- Nothing but `RUN`, `CYC`, the frame loop, the pacer, the keys and the host's side changed. -/
def onlyLoopAndHost (s t : State) : Prop :=
  t = { s with
    run := t.run, cyc := t.cyc, keys := t.keys, deadline := t.deadline, clock := t.clock, frameStart := t.frameStart
    inFrame := t.inFrame, slots := t.slots, frameCyc := t.frameCyc, debug := t.debug, hookCalls := t.hookCalls
    hostPcm := t.hostPcm, hostGrid := t.hostGrid, inbox := t.inbox }

/-- A property of states that each part of a step keeps: the loop's and the host's bookkeeping, the advance of `PC`,
an instruction of the variant, and the end of a frame. -/
structure KeptByParts (P : State → Prop) : Prop where
  bookkeeping : ∀ s t, onlyLoopAndHost s t → P s → P t
  advance : ∀ s, P s → P s.advance
  instruction : ∀ i s t, inVariantSet s.variant i = true → exec i s = .next t → P s → P t
  endFrame : ∀ s t, s.endFrame = .next t → P s → P t

theorem KeptByParts.instrStepTo {P : State → Prop} (hP : KeptByParts P) (hs : P s) (h : InstrStepTo s t) : P t := by
  have after : ∀ {i u}, s.fetchDecode = .valid i → exec i s.advance = .next u → P u := fun hf he =>
    hP.instruction _ s.advance _ (inVariantSet_of_fetchDecode (s := s) hf) he (hP.advance s hs)
  have charged : ∀ {i u}, P u → P (u.charge i s) := fun hu =>
    hP.bookkeeping _ _ (by unfold onlyLoopAndHost; rw [State.charge_frame]) hu
  cases h with
  | halts i _ hf he => exact after hf he
  | goesOn i u hf he => exact charged (after hf he)
  | endsFrame i u _ hf he _ _ hu => exact hP.endFrame _ _ hu (charged (after hf he))

/-- A property that each part of a step keeps is kept by the step. -/
theorem KeptByParts.step {P : State → Prop} (hP : KeptByParts P) (hs : P s) (h : step s = .next t) : P t := by
  have ready : ∀ u, P u → P u.ready := fun u hu =>
    hP.bookkeeping _ _ (by unfold onlyLoopAndHost; rw [State.ready_frame]) hu
  cases (step_cases h).2 with
  | instr _ h => exact hP.instrStepTo (ready _ hs) h
  | idle rest _ _ h => exact hP.instrStepTo (ready _ (hP.bookkeeping s { s with inbox := rest } rfl hs)) h
  | key | clock | buffers | render | debug | nothing | beginsFrame => exact hP.bookkeeping s _ rfl hs

end Sys2Proof.Machine
end

section
/-! PROOF. The display through every step (10_state.md rules R50 to R52, R55; 41_display.md). -/

namespace Sys2Proof.Machine

open Sys2Proof.Safety

variable {s t : State} {i : Instr}

/-! ## The display modes -/

/-- Only a variant with an extended mode has an instruction that switches it. -/
theorem chip8Class_of_switch {v : Variant} (hset : inVariantSet v i = true) (hi : i = .low ∨ i = .high) :
    chip8Class v = false := by
  have hh : hiresCapable v = true := by rcases hi with rfl | rfl <;> exact hset
  revert hh; cases v <;> decide

theorem setExt_displayModes (e : Bool) (hc : chip8Class s.variant = false) (h : displayModes s) :
    displayModes (s.setExt e) := by
  rw [State.setExt_frame]
  exact ⟨h.1, fun hc' => absurd (hc.symm.trans hc') (by decide), h.2.2⟩

/-- An instruction of the variant keeps the display modes: only the XO class writes `PMASK`, and only a variant with
an extended mode switches `EXT`. -/
theorem exec_displayModes (hset : inVariantSet s.variant i = true) (h : exec i s = .next t) (hs : displayModes s) :
    displayModes t := by
  cases exec_cases h with
  | data _ _ ht => rw [ht]; exact hs
  | switch _ e hi => exact setExt_displayModes e (chip8Class_of_switch hset hi) hs
  | plane n => exact ⟨fun hx => absurd (hset.symm.trans hx) (by decide), hs.2⟩
  | goto | call | ret | index | longIndex | draw | scroll => exact hs

theorem endFrame_displayModes (h : s.endFrame = .next t) (hs : displayModes s) : displayModes t := by
  rw [s.endFrame_frame t h]; exact hs

theorem keptByParts_displayModes : KeptByParts displayModes where
  bookkeeping s t h hs := by rw [h]; exact hs
  advance _ hs := hs
  instruction _ _ _ := exec_displayModes
  endFrame _ _ := endFrame_displayModes

/-! ## The pixels of the buffer -/

theorem planeCount_of_selected {p : Fin 4} (h : s.selected p = true) : p.val < planeCount s.variant := by
  unfold State.selected at h
  rw [Bool.and_eq_true, decide_eq_true_eq] at h
  exact h.1

/-- A clear or scroll of the selected planes that keeps each plane to the buffer. -/
theorem mapSelected_pixelsInBuffer {f : Plane → Plane}
    (hf : ∀ p : Plane, p.inBox s.bufWidth s.bufHeight → (f p).inBox s.bufWidth s.bufHeight) (h : pixelsInBuffer s) :
    pixelsInBuffer (s.mapSelected f) := by
  intro p x y hp
  unfold pixelOf at hp
  rw [State.planes_mapSelected] at hp
  split at hp
  · rename_i hsel
    exact ⟨planeCount_of_selected hsel, hf _ (fun x y hq => (h p x y hq).2) x y hp⟩
  · exact h p x y hp

/-- A switch of the mode clears every plane, but on legacy SCHIP, where the buffer is the same in both modes. -/
theorem setExt_pixelsInBuffer (e : Bool) (h : pixelsInBuffer s) : pixelsInBuffer (s.setExt e) := by
  intro p x y hp
  unfold pixelOf at hp
  rw [State.planes_setExt] at hp
  split at hp
  · rename_i hl
    rw [State.setExt_frame]
    simpa [State.bufWidth, State.bufHeight, State.variant, show legacySchip s.settings.variant = true from hl]
      using h p x y hp
  · simp at hp

/-- A draw flips only pixels the sprite covers, and those lie in the buffer of a selected plane. -/
theorem drawSprite_pixelsInBuffer (x y : RegIx) (n : Nibble) (v : Vector Byte 16) (r : RunState)
    (hd : s.dmode = .xor) (h : pixelsInBuffer s) :
    pixelsInBuffer { s with v := v, run := r, planes := (s.drawSprite x y n).planes } := by
  intro p bx py hp
  by_cases hc : spriteCovers s (s.drawSetup x y n) p bx py
  · obtain ⟨hsel, hlt⟩ := spriteCovers_lt s x y n hc
    exact ⟨planeCount_of_selected hsel, hlt⟩
  · exact h p bx py (((s.drawSprite_spec x y n hd).2.1 p bx py hc).symm.trans hp)

theorem exec_pixelsInBuffer (h : exec i s = .next t) (hd : s.dmode = .xor) (hs : pixelsInBuffer s) :
    pixelsInBuffer t := by
  cases exec_cases h with
  | data _ _ ht => rw [ht]; exact hs
  | draw x y n v r => exact drawSprite_pixelsInBuffer x y n v r hd hs
  | scroll _ f hf => exact mapSelected_pixelsInBuffer hf hs
  | switch _ e => exact setExt_pixelsInBuffer e hs
  | goto | call | ret | index | longIndex | plane => exact hs

theorem endFrame_pixelsInBuffer (h : s.endFrame = .next t) (hs : pixelsInBuffer s) : pixelsInBuffer t := by
  rw [s.endFrame_frame t h]; exact hs

theorem keptByParts_display : KeptByParts fun s => displayModes s ∧ pixelsInBuffer s where
  bookkeeping s t h hs := by rw [h]; exact hs
  advance _ hs := hs
  instruction _ _ _ hset h hs := ⟨exec_displayModes hset h hs.1, exec_pixelsInBuffer h hs.1.2.2 hs.2⟩
  endFrame _ _ h hs := ⟨endFrame_displayModes h hs.1, endFrame_pixelsInBuffer h hs.2⟩

/-- Settles O15: the display modes are kept by each part of a step, and with them so is that no pixel is set outside
the buffer; a draw needs the XOR mode, which the modes hold. -/
theorem stepKeepsDisplayInBuffer : Obligations.StepKeepsDisplayInBuffer := fun _ _ hs h =>
  ⟨keptByParts_displayModes.step hs h, fun hp => (keptByParts_display.step ⟨hs, hp⟩ h).2⟩

end Sys2Proof.Machine
end

section
/-! PROOF. `PC`, the stack entries and `I` keep to their widths through every step (10_state.md rules R33, R36, R37). -/

namespace Sys2Proof.Machine

open Sys2Proof.Safety

variable {s t : State} {i : Instr}

theorem and_iMask_lt (v : Variant) (a : Addr) : (a &&& iMask v).toNat < 2 ^ iWidth v := by
  rw [toNat_and_iMask]
  exact Nat.mod_lt _ (Nat.two_pow_pos _)

/-- `PC`, the stack entries and `I` keep to their widths. -/
def addressesFit (s : State) : Prop := pcInBounds s ∧ indexFits s

theorem setPc_addressesFit (a : Addr) (h : addressesFit s) : addressesFit (s.setPc a) :=
  ⟨⟨busIndex_lt s.variant a, h.1.2⟩, h.2⟩

theorem setI_addressesFit (a : Addr) (h : addressesFit s) : addressesFit (s.setI a) :=
  ⟨h.1, and_iMask_lt s.variant a⟩

/-- The entry a call pushes is `PC`. -/
theorem push_addressesFit (hsp : s.sp.val < 16) (h : addressesFit s) : addressesFit (s.push hsp) := by
  refine ⟨⟨h.1.1, fun k => ?_⟩, h.2⟩
  simp only [State.push, Vector.getElem_set]
  split
  · exact h.1.1
  · exact h.1.2 k

theorem exec_addressesFit (h : exec i s = .next t) (hs : addressesFit s) : addressesFit t := by
  cases exec_cases h with
  | data _ _ ht => rw [ht]; exact hs
  | goto _ a => exact setPc_addressesFit a hs
  | call _ hsp => exact setPc_addressesFit _ (push_addressesFit hsp hs)
  | ret => exact setPc_addressesFit (s := s.popSp) _ hs
  | index _ a => exact setI_addressesFit (s := s) a hs
  | longIndex => exact setI_addressesFit _ (setPc_addressesFit _ hs)
  | switch => rw [State.setExt_frame]; exact hs
  | draw | scroll | plane => exact hs

theorem keptByParts_addressesFit : KeptByParts addressesFit where
  bookkeeping s t h hs := by rw [h]; exact hs
  advance _ := setPc_addressesFit _
  instruction _ _ _ _ := exec_addressesFit
  endFrame s t h hs := by rw [s.endFrame_frame t h]; exact hs

/-- Settles O14: `PC` and `I` are written through their masks alone, and a call pushes `PC`. -/
theorem stepKeepsAddressesInBounds : Obligations.StepKeepsAddressesInBounds := fun _ _ hp hi h =>
  keptByParts_addressesFit.step ⟨hp, hi⟩ h

end Sys2Proof.Machine
end

section
/-! PROOF. The settings, MegaChip's display, the draw mode and the phase through every step (10_state.md rules R44, R55,
R58). -/

namespace Sys2Proof.Machine

open Sys2Proof.Safety

variable {s t : State}

theorem keptByParts_settings (s₀ : State) :
    KeptByParts fun s => s.settings = s₀.settings ∧ s.mega = s₀.mega ∧ s.dmode = s₀.dmode where
  bookkeeping s t h hs := by rw [h]; exact hs
  advance _ hs := hs
  instruction i s t _ h hs := by rw [exec_frame h]; exact hs
  endFrame s t h hs := by rw [s.endFrame_frame t h]; exact hs

/-- Settles O18: no part of a step writes them. -/
theorem stepNeverChangesSettings : Obligations.StepNeverChangesSettings := fun s _ h =>
  (keptByParts_settings s).step ⟨rfl, rfl, rfl⟩ h

/-- The end of a frame leaves `PHASE` 0 after silence and the fraction that the last update leaves after tone. -/
theorem pushSamples_phaseInRange (h : phaseInRange s) : phaseInRange s.pushSamples := by
  unfold State.pushSamples
  split
  · exact ⟨le_refl _, zero_lt_one⟩
  · exact synth_phase_range _ _ _ _ h

theorem endFrame_phaseInRange (h : s.endFrame = .next t) (hs : phaseInRange s) : phaseInRange t := by
  obtain ⟨_, _, rfl⟩ := (s.endFrame_next t).mp h
  rw [State.closeFrame_frame]
  exact pushSamples_phaseInRange hs

theorem keptByParts_phaseInRange : KeptByParts phaseInRange where
  bookkeeping s t h hs := by rw [h]; exact hs
  advance _ hs := hs
  instruction i s t _ h hs := by rw [exec_frame h]; exact hs
  endFrame _ _ := endFrame_phaseInRange

/-- Settles O17: only the end of a frame writes `PHASE`, and each of its updates is taken modulo 1. -/
theorem stepKeepsPhaseInRange : Obligations.StepKeepsPhaseInRange := fun _ _ hs h =>
  keptByParts_phaseInRange.step hs h

end Sys2Proof.Machine
end

section
/-! PROOF. The adaptive budget at the end of a frame and the frame loop through every step (10_state.md rule R48;
70_reset_and_hazards.md rules R481 to R486, R495, R496). -/

namespace Sys2Proof.Machine

open Sys2Proof.Safety

variable {s t : State} {i : Instr}

/-! ## The budget that the end of a frame sets -/

theorem State.endFrame_ipfEff (h : s.endFrame = .next t) :
    t.ipfEff = if 1000000 ≤ s.settings.ipfTarget then s.throttled else s.ipfEff := by
  obtain ⟨_, _, rfl⟩ := (s.endFrame_next t).mp h
  show s.pushSamples.closeFrame.ipfEff = _
  rw [State.closeFrame_ipfEff, State.pushSamples_frame, State.updateBudget, apply_ite State.ipfEff]
  rfl

theorem State.one_le_throttled (s : State) : 1 ≤ s.throttled := Nat.le_max_left _ _

theorem State.throttled_le (h : 1 ≤ s.settings.ipfTarget) : s.throttled ≤ s.settings.ipfTarget :=
  Nat.max_le.mpr ⟨h, Nat.min_le_left _ _⟩

/-- A frame that took no longer than the period leaves the whole target. -/
theorem State.throttled_of_no_overrun (ht : 1 ≤ s.settings.ipfTarget) (h : s.clock - s.frameStart ≤ s.period) :
    s.throttled = s.settings.ipfTarget := by
  have ho : s.overrun = 0 := max_eq_left (by linarith)
  have hf : ((0 : Rat) / Config.throttleDivisor).floor.toNat = 0 := by rw [zero_div]; rfl
  rw [State.throttled, ho, hf]
  omega

/-- A frame that took the period or longer is throttled by its overrun; the subtraction is one of integers. -/
theorem State.throttled_of_overrun (h : s.period ≤ s.clock - s.frameStart) :
    (s.throttled : Int) = max 1 (min (s.settings.ipfTarget : Int) ((s.settings.ipfTarget : Int) -
      ((s.clock - s.frameStart - s.period) / Config.throttleDivisor).floor)) := by
  have hlag : 0 ≤ s.clock - s.frameStart - s.period := by linarith
  have hfloor : 0 ≤ ((s.clock - s.frameStart - s.period) / Config.throttleDivisor).floor :=
    Rat.le_floor_iff.mpr (by simpa using div_nonneg hlag throttleDivisor_pos.le)
  rw [State.throttled, State.overrun, max_eq_right hlag]
  omega

/-- Settles O27: below a million the budget is left, and from there on it is the throttled one. -/
theorem frameEndSetsAdaptiveBudget : Obligations.FrameEndSetsAdaptiveBudget := by
  intro s t h
  refine ⟨fun hlow => ?_, fun hhigh => ?_⟩
  · rw [State.endFrame_ipfEff h, if_neg (by omega)]
  · rw [State.endFrame_ipfEff h, if_pos hhigh]
    exact ⟨s.one_le_throttled, State.throttled_le (by omega), State.throttled_of_no_overrun (by omega),
      State.throttled_of_overrun⟩

/-! ## The budget through a step -/

/-- `IPF_EFF` lies in `[1, IPF_TARGET]` and equals the target below a million. -/
def budgetSound (s : State) : Prop :=
  1 ≤ s.ipfEff ∧ s.ipfEff ≤ s.settings.ipfTarget ∧ (s.settings.ipfTarget < 1000000 → s.ipfEff = s.settings.ipfTarget)

theorem endFrame_budgetSound (h : s.endFrame = .next t) (hs : budgetSound s) : budgetSound t := by
  have hset : t.settings = s.settings := by rw [s.endFrame_frame t h]
  obtain ⟨hpos, hle, hlow⟩ := hs
  unfold budgetSound
  rw [hset, State.endFrame_ipfEff h]
  split
  · exact ⟨s.one_le_throttled, State.throttled_le (by omega), by omega⟩
  · exact ⟨hpos, hle, hlow⟩

theorem keptByParts_budgetSound : KeptByParts budgetSound where
  bookkeeping s t h hs := by rw [h]; exact hs
  advance _ hs := hs
  instruction i s t _ h hs := by rw [exec_frame h]; exact hs
  endFrame _ _ := endFrame_budgetSound

/-! ## The frame loop through a step -/

/-- A frame in progress is a running one whose loop goes on, and a waiting session is between frames. -/
def loopSound (s : State) : Prop :=
  (s.inFrame = true → s.run = .running → s.loopGoesOn = true) ∧ (s.run = .frameWait → s.inFrame = false)

theorem schedulerSound_iff : schedulerSound s ↔ budgetSound s ∧ loopSound s := by
  unfold schedulerSound budgetSound loopSound
  tauto

/-- A frame that begins has room for an instruction: no slot is used, and `CYC` is below its next boundary. -/
theorem beginFrame_loopSound (a : Rat) (hlive : s.run = .running ∨ s.run = .frameWait) (hb : budgetSound s) :
    loopSound (s.beginFrame a) := by
  have hrun : (s.beginFrame a).run = .running := by rcases hlive with h | h <;> simp [State.beginFrame, h]
  refine ⟨fun _ _ => ?_, fun hw => by rw [hrun] at hw; cases hw⟩
  cases hm : (s.beginFrame a).strictMode
  · rw [State.loopGoesOn_budget _ hm hrun]
    exact decide_eq_true hb.1
  · rw [State.loopGoesOn_strict _ hm hrun]
    refine decide_eq_true ?_
    show s.cyc < (s.cyc / 3668 + 1) * 3668
    omega

/-- After an instruction the frame's loop goes on, the frame has ended, or the session has. -/
theorem loopSound_of_instrStepTo (h : InstrStepTo s t) : loopSound t := by
  cases h with
  | halts _ _ _ _ hr =>
    exact ⟨fun _ h => absurd (hr.symm.trans h) (by decide), fun h => absurd (hr.symm.trans h) (by decide)⟩
  | goesOn i u _ _ hr hl =>
    refine ⟨fun _ _ => hl, fun h => ?_⟩
    rw [State.charge_frame] at h
    exact absurd (hr.symm.trans h) (by decide)
  | endsFrame i u _ _ _ _ _ hu =>
    have hin : t.inFrame = false := by rw [State.endFrame_frame _ _ hu]
    exact ⟨fun h => absurd (hin.symm.trans h) (by decide), fun _ => hin⟩

theorem step_loopSound (hb : budgetSound s) (hl : loopSound s) (h : step s = .next t) : loopSound t := by
  obtain ⟨hlive, hto⟩ := step_cases h
  cases hto with
  | instr _ h => exact loopSound_of_instrStepTo h
  | idle _ _ _ h => exact loopSound_of_instrStepTo h
  | key | clock | buffers | render | debug | nothing => exact hl
  | beginsFrame rest => exact beginFrame_loopSound (s := { s with inbox := rest }) _ hlive hb

/-- Settles O16: the budget is kept by each part of a step, and after a step the loop goes on or the frame has ended. -/
theorem stepKeepsSchedulerSound : Obligations.StepKeepsSchedulerSound := by
  intro s t hs h
  obtain ⟨hb, hl⟩ := schedulerSound_iff.mp hs
  exact schedulerSound_iff.mpr ⟨keptByParts_budgetSound.step hb h, step_loopSound hb hl h⟩

end Sys2Proof.Machine
end

section
/-! PROOF. The instructions that write `VF` (10_state.md rule R32). -/

namespace Sys2Proof.Machine

variable {s t : State} {i : Instr} {k : RegIx}

/-- A write of one register changes no other. -/
theorem eq_of_reg_setReg_ne {x : RegIx} {b : Byte} (h : (s.setReg x b).reg k ≠ s.reg k) : k = x :=
  by_contra fun hk => h (s.reg_setReg_other b hk)

/-- A logic operation changes its destination and, under the quirk, `VF`. -/
theorem eq_of_reg_setLogic_ne {x : RegIx} {r : Byte} (h : (s.setLogic x r).reg k ≠ s.reg k) :
    s.quirks.vfReset = true ∨ k = x := by
  rw [State.reg_setLogic] at h
  by_cases hq : s.quirks.vfReset = true
  · exact .inl hq
  · exact .inr (by_contra fun hk => h (by rw [if_neg fun hh => hq hh.1, if_neg hk]))

/-- Writes of several registers change no register that is not listed. -/
theorem mem_of_reg_setRegs_ne {ps : List (RegIx × Byte)} (h : (s.setRegs ps).reg k ≠ s.reg k) :
    k ∈ ps.map Prod.fst := by_contra fun hk => h (State.reg_setRegs_other ps s k hk)

/-- A load changes no register that is not listed. -/
theorem mem_of_reg_load_ne {rs : List RegIx} {a : Addr}
    (h : (s.setRegs (rs.zip (s.loadBytes a rs.length))).reg k ≠ s.reg k) : k ∈ rs :=
  by_contra fun hk => h (s.reg_load_other rs a hk)

theorem eq_last_of_mem_regsUpTo {x : RegIx} (h : (15 : RegIx) ∈ regsUpTo x) : x = 15 :=
  le_antisymm (Fin.le_last x) ((mem_regsUpTo x 15).mp h)

theorem eq_last_of_mem_regRange {x y : RegIx} (h : (15 : RegIx) ∈ regRange x y) : x = 15 ∨ y = 15 :=
  ((mem_regRange x y 15).mp h).symm.imp (fun h => le_antisymm (Fin.le_last x) h.2)
    (fun h => le_antisymm (Fin.le_last y) h.2)

theorem State.reg_skipIf (s : State) (c : Bool) (k : RegIx) : (s.skipIf c).reg k = s.reg k :=
  State.reg_congr (by rw [State.skipIf_frame]) k

theorem State.reg_storeBytes (s : State) (a : Addr) (bs : List Byte) (k : RegIx) :
    (s.storeBytes a bs).reg k = s.reg k := State.reg_congr (by rw [State.storeBytes_frame]) k

theorem State.reg_autoInc (s : State) (x k : RegIx) : (s.autoInc x).reg k = s.reg k :=
  State.reg_congr (by rw [State.autoInc_frame]) k

theorem State.reg_setExt (s : State) (e : Bool) (k : RegIx) : (s.setExt e).reg k = s.reg k :=
  State.reg_congr (by rw [State.setExt_frame]) k

theorem State.reg_setFlags (s : State) (ps : List (RegIx × Byte)) (k : RegIx) : (s.setFlags ps).reg k = s.reg k :=
  State.reg_congr (by rw [State.setFlags_frame]) k

/-- `FX0A` writes the register it names alone. -/
theorem eq_of_reg_ldVxK_ne {x : RegIx} (h : execLdVxK x s = .next t) (hk : t.reg k ≠ s.reg k) : k = x := by
  unfold execLdVxK at h
  split at h
  · split at h <;> cases h <;> exact absurd rfl hk
  · split at h
    · cases h; exact absurd rfl hk
    · cases h; exact eq_of_reg_setReg_ne hk

theorem reg_of_execCall {nnn : Imm12} (h : execCall nnn s = .next t) : t.reg k = s.reg k := by
  unfold execCall at h
  split at h <;> cases h <;> rfl

theorem reg_of_execRet (h : execRet s = .next t) : t.reg k = s.reg k := by
  unfold execRet at h
  split at h <;> cases h <;> rfl

/-- Settles O34, instruction by instruction: the flag instructions are in the list, and any other that changes a
register changes one it names. -/
theorem vfWritersAreTheFlagInstructions : Obligations.VfWritersAreTheFlagInstructions := by
  intro i s t h hne
  cases i with
  | scd | scu | cls | scr | scl | exit | jp | jpOffset | ldI | addI | ldF | ldHF | ldILong | plane | audio | ldDtVx
  | ldStVx | pitch => cases h; exact absurd rfl hne
  | seImm | sneImm | seReg | sneReg | skp | sknp => cases h; exact absurd (s.reg_skipIf _ _) hne
  | ldB | saveRange => cases h; exact absurd (s.reg_storeBytes _ _ _) hne
  | storeRegs x => cases h; exact absurd ((State.reg_autoInc _ x _).trans (s.reg_storeBytes _ _ _)) hne
  | saveFlags => cases h; exact absurd (s.reg_setFlags _ _) hne
  | low | high => cases h; exact absurd (s.reg_setExt _ _) hne
  | call => exact absurd (reg_of_execCall h) hne
  | ret => exact absurd (reg_of_execRet h) hne
  | addReg | subReg | shr | subn | shl | drw => simp
  | ldImm | addImm | ldReg | rnd | ldVxDt => cases h; simp [eq_of_reg_setReg_ne hne]
  | orReg | andReg | xorReg =>
    cases h
    rcases eq_of_reg_setLogic_ne hne with hq | rfl
    · simp [hq]
    · simp
  | ldVxK => simp [eq_of_reg_ldVxK_ne h hne]
  | loadRegs x =>
    cases h
    rw [State.reg_autoInc, ← regsUpTo_length] at hne
    simp [eq_last_of_mem_regsUpTo (mem_of_reg_load_ne hne)]
  | loadRange => cases h; simp [eq_last_of_mem_regRange (mem_of_reg_load_ne hne)]
  | loadFlags x =>
    cases h
    simp [eq_last_of_mem_regsUpTo (x := x) (by simpa using mem_of_reg_setRegs_ne hne)]

end Sys2Proof.Machine
end

section
/-! PROOF. What session construction leaves (10_state.md rules R46, R66 to R74). -/

namespace Sys2Proof.Machine

open Sys2Proof.Safety

theorem progStart_eq (v : Variant) : progStart v = if v = .chip8x then 0x300 else 0x200 := by cases v <;> rfl

theorem resetPattern_getElem : ∀ k : Fin 16, resetPattern[k.val] = if k.val < 8 then 0xFF else 0x00 := by decide

theorem pixelOf_of_blank {s : State} (h : s.planes = Vector.replicate 4 blankPlane) (p : Fin 4) (x y : Nat) :
    pixelOf s p x y = false := by simp [pixelOf, h]

/-- Settles O1: construction succeeds and leaves the fresh session with the ROM in memory. -/
theorem constructionSetsResetValues : Obligations.ConstructionSetsResetValues := by
  intro r t0 keys rom hrom
  refine ⟨_, construct_ok (resolveSettings r) t0 keys rom hrom, rfl, fun k => Vector.getElem_replicate _,
    progStart_eq r.variant, rfl, rfl, fun k => Vector.getElem_replicate _, rfl, rfl,
    fun k => Vector.getElem_replicate _, pixelOf_of_blank rfl, rfl, rfl, rfl, resetPattern_getElem,
    rfl, rfl, rfl, rfl, rfl, rfl, rfl, rfl⟩

/-- The default quirks by the class of the variant (10_state.md rule R46). -/
theorem defaultQuirks_eq (v : Variant) : defaultQuirks v =
    { vfReset := chip8Class v, autoIncI := chip8Class v || xoClass v, displayWait := chip8Class v, wrap := xoClass v
      shiftInPlace := schipClass v, jumpWithVX := schipClass v } := by cases v <;> rfl

/-- Settles O4: each quirk is resolved from the host's value and the variant's default. -/
theorem quirksTakeVariantDefaults : Obligations.QuirksTakeVariantDefaults := fun r => by
  simp [resolveSettings, defaultQuirks_eq]

end Sys2Proof.Machine
end

section
/-! PROOF. What construction leaves in memory and when it fails (20_memory.md rules R86 to R90), and the read of a
written byte (20_memory.md rules R81, R82). -/

namespace Sys2Proof.Machine

open Sys2Proof.Safety

/-! ## Construction -/

/-- A session that construction makes is the fresh one with the ROM copied in, and the ROM fits. -/
theorem startSession_ok_iff {r : SettingsRequest} {t0 : Rat} {keys : Vector Bool 16} {rom : List Byte} {s : State} :
    startSession r t0 keys rom = .ok s ↔ rom.length ≤ romRoom r.variant ∧
      s = { State.fresh (resolveSettings r) t0 keys with
            mem := loadImage r.variant [] (progStart r.variant).toNat rom } := by
  have hv : (resolveSettings r).variant = r.variant := rfl
  rcases Nat.lt_or_ge (romRoom r.variant) rom.length with h | h
  · simp [startSession, construct_error (resolveSettings r) t0 keys rom h, Nat.not_le.mpr h]
  · simp [startSession, construct_ok (resolveSettings r) t0 keys rom h, hv, h, eq_comm]

/-- The bytes of the small font in a row are those of its glyphs, five to a glyph. -/
theorem smallFont_getD_eq_smallGlyphs :
    ∀ a < 80, smallFont.getD a 0 = (smallGlyphs.getD (a / 5) []).getD (a % 5) 0 := by decide

/-- What the empty image reads as, with the small font by its glyphs. -/
theorem read_nil_eq (v : Variant) (a : Nat) : Memory.read v [] a =
    if a < 80 then (smallGlyphs.getD (a / 5) []).getD (a % 5) 0
    else if a < 240 ∧ hiresCapable v = true then Config.bigFont (a - 80)
    else 0 := by
  change backgroundByte v a = _
  rw [backgroundByte, ite_and]
  by_cases hsmall : a < 80
  · rw [if_pos hsmall, if_pos hsmall, smallFont_getD_eq_smallGlyphs a hsmall]
  · rw [if_neg hsmall, if_neg hsmall]

/-- Settles O2: the ROM that construction copies over the empty image, which reads as the fonts and 0. -/
theorem constructionPlacesFontsAndRom : Obligations.ConstructionPlacesFontsAndRom := by
  intro r t0 keys rom s a hs _
  obtain ⟨hrom, rfl⟩ := startSession_ok_iff.mp hs
  have hfit : (progStart r.variant).toNat + rom.length ≤ memSize r.variant := by
    have hstart := progStart_le r.variant
    rw [romRoom] at hrom
    omega
  rw [read_loadImage _ _ _ _ _ (Memory.wf_nil _) hfit, read_nil_eq]

/-- Settles O3: `romRoom` decides between the error and the session. -/
theorem constructionFailsExactlyOnLargeRom : Obligations.ConstructionFailsExactlyOnLargeRom :=
  fun r t0 keys rom => ⟨construct_error (resolveSettings r) t0 keys rom,
    fun h => ⟨_, construct_ok (resolveSettings r) t0 keys rom h⟩⟩

/-! ## Reads after writes -/

/-- Settles O10: two addresses name one byte exactly when they agree modulo the size of the memory. -/
theorem writeIsReadBackMasked : Obligations.WriteIsReadBackMasked := by
  intro s a a' b hw
  rw [← busIndex_eq, ← busIndex_eq]
  split_ifs with h
  · exact s.read_write_same hw b h
  · exact s.read_write_other b h

end Sys2Proof.Machine
end

section
/-! PROOF. The decoder against the encoder: what a row of the opcode map decodes to is encoded by the word it was read
from, and what every other word decodes as (30_encoding.md rules R114, R119 to R121, R125). -/

namespace Sys2Proof

open Sys2Proof.Machine

variable {v : Variant} {w w2 : Word} {i : Instr} {x : RegIx}

/-! ## A word packed from the fields that a row fixes and those that it reads -/

theorem packNNN_of_fieldG {g : Nibble} (hg : fieldG w = g) : packNNN g (fieldNNN w) = w := by
  rw [← hg, packNNN_fields]

theorem packXNN_of_fieldG {g : Nibble} (hg : fieldG w = g) : packXNN g (fieldX w) (fieldNN w) = w := by
  rw [← hg, packXNN_fields]

theorem packXNN_of_fieldG_fieldNN {g : Nibble} {nn : Byte} (hg : fieldG w = g) (hnn : fieldNN w = nn) :
    packXNN g (fieldX w) nn = w := by
  rw [← hnn, packXNN_of_fieldG hg]

theorem packXYN_of_fieldG {g : Nibble} (hg : fieldG w = g) : packXYN g (fieldX w) (fieldY w) (fieldN w) = w := by
  rw [← hg, packXYN_fields]

theorem packXYN_of_fieldG_fieldN {g n : Nibble} (hg : fieldG w = g) (hn : fieldN w = n) :
    packXYN g (fieldX w) (fieldY w) n = w := by
  rw [← hn, packXYN_of_fieldG hg]

/-- The format of the two vertical scrolls: bits 15:4 literal, bits 3:0 read. -/
theorem append_fieldN_of_extractLsb' {p : Imm12} (hp : w.extractLsb' 4 12 = p) : p ++ fieldN w = w := by
  subst hp
  refine BitVec.eq_of_toNat_eq ?_
  have hw := w.isLt
  rw [toNat_append_eq, toNat_fieldN, BitVec.extractLsb'_toNat, Nat.shiftRight_eq_div_pow]
  omega

/-! ## The rows of the opcode map, group by group -/

/-- The words `w` and, where the instruction has a second word, `w2` are those of the instruction. -/
def HasWords (i : Instr) (w w2 : Word) : Prop := i.word1 = w ∧ i.word2.getD w2 = w2

theorem hasWords_of_decodeGroup0 (h : decodeGroup0 w = some i) : HasWords i w w2 := by
  unfold decodeGroup0 at h
  split_ifs at h with hscd hscu <;> cases h
  · exact ⟨append_fieldN_of_extractLsb' hscd, rfl⟩
  · exact ⟨append_fieldN_of_extractLsb' hscu, rfl⟩
  all_goals subst w; exact ⟨rfl, rfl⟩

theorem hasWords_of_decodeGroup5 (hg : fieldG w = 0x5#4) (h : decodeGroup5 w = some i) : HasWords i w w2 := by
  unfold decodeGroup5 at h
  split at h <;> cases h
  all_goals rename_i hn; exact ⟨packXYN_of_fieldG_fieldN hg hn, rfl⟩

theorem hasWords_of_decodeGroup8 (hg : fieldG w = 0x8#4) (h : decodeGroup8 w = some i) : HasWords i w w2 := by
  unfold decodeGroup8 at h
  split at h <;> cases h
  all_goals rename_i hn; exact ⟨packXYN_of_fieldG_fieldN hg hn, rfl⟩

theorem hasWords_of_decodeGroup9 (hg : fieldG w = 0x9#4) (h : decodeGroup9 w = some i) : HasWords i w w2 := by
  unfold decodeGroup9 at h
  split at h <;> cases h
  rename_i hn
  exact ⟨packXYN_of_fieldG_fieldN hg hn, rfl⟩

theorem hasWords_of_decodeGroupE (hg : fieldG w = 0xE#4) (h : decodeGroupE w = some i) : HasWords i w w2 := by
  unfold decodeGroupE at h
  split at h <;> cases h
  all_goals rename_i hnn; exact ⟨packXNN_of_fieldG_fieldNN hg hnn, rfl⟩

/-- The literal words `F000` and `F002` are packed from the register number 0 that their rows ask for. -/
theorem hasWords_of_decodeGroupF (hg : fieldG w = 0xF#4) (h : decodeGroupF w w2 = some i) : HasWords i w w2 := by
  unfold decodeGroupF at h
  split at h
  case h_1 hnn | h_3 hnn =>
    split_ifs at h with hx
    cases h
    have hw : packXNN 0xF#4 (fieldX w) _ = w := packXNN_of_fieldG_fieldNN hg hnn
    rw [hx] at hw
    exact ⟨hw, rfl⟩
  all_goals cases h
  all_goals rename_i hnn; exact ⟨packXNN_of_fieldG_fieldNN hg hnn, rfl⟩

/-- 30_encoding.md rule R120: a row that matches is that of an instruction with these words. -/
theorem hasWords_of_opcodeMap (h : opcodeMap w w2 = some i) : HasWords i w w2 := by
  unfold opcodeMap at h
  split at h
  case h_1 => exact hasWords_of_decodeGroup0 h
  case h_6 hg => exact hasWords_of_decodeGroup5 hg h
  case h_9 hg => exact hasWords_of_decodeGroup8 hg h
  case h_10 hg => exact hasWords_of_decodeGroup9 hg h
  case h_15 hg => exact hasWords_of_decodeGroupE hg h
  case h_16 =>
    have hg : fieldG w = 0xF#4 := by
      simp only [imp_false] at *
      bv_omega
    exact hasWords_of_decodeGroupF hg h
  case h_2 hg | h_3 hg | h_11 hg | h_12 hg => cases h; exact ⟨packNNN_of_fieldG hg, rfl⟩
  case h_4 hg | h_5 hg | h_7 hg | h_8 hg | h_13 hg => cases h; exact ⟨packXNN_of_fieldG hg, rfl⟩
  case h_14 hg => cases h; exact ⟨packXYN_of_fieldG hg, rfl⟩

/-! ## What the decoder answers -/

/-- A word that matches no row has no instruction. -/
theorem decode_of_opcodeMap_none (h : opcodeMap w w2 = none) : decode v w w2 = unlisted v := by
  simp [decode, h]

/-- What the decoder answers for a word that matches a row, by the row's variant set and its range condition. -/
theorem decode_of_opcodeMap_some (h : opcodeMap w w2 = some i) :
    decode v w w2 = if inVariantSet v i then if flagRangeOk v i then .valid i else .flagRangeUnknown
      else unlisted v := by
  cases hset : inVariantSet v i <;> cases hrange : flagRangeOk v i <;> simp [decode, h, hset, hrange]

theorem unlisted_ne_valid : unlisted v ≠ .valid i := by
  unfold unlisted
  split <;> exact nofun

/-- The valid words are those that match the row of a well-formed instruction. -/
theorem decode_eq_valid_iff : decode v w w2 = .valid i ↔ opcodeMap w w2 = some i ∧ wellFormed v i = true := by
  constructor
  · intro h
    cases hmap : opcodeMap w w2 with
    | none => exact absurd ((decode_of_opcodeMap_none hmap).symm.trans h) unlisted_ne_valid
    | some j =>
      rw [decode_of_opcodeMap_some hmap] at h
      split_ifs at h with hset hrange
      · cases h
        exact ⟨rfl, Bool.and_eq_true_iff.mpr ⟨hset, hrange⟩⟩
      · exact absurd h unlisted_ne_valid
  · rintro ⟨hmap, hwf⟩
    obtain ⟨hset, hrange⟩ := Bool.and_eq_true_iff.mp hwf
    rw [decode_of_opcodeMap_some hmap, if_pos hset, if_pos hrange]

/-- Settles O6: a valid word matches the row of a well-formed instruction, and a row that matches gives back its
words. -/
theorem decodedWordIsItsEncoding : Obligations.DecodedWordIsItsEncoding := by
  intro v w w2 i h
  obtain ⟨hmap, hwf⟩ := decode_eq_valid_iff.mp h
  exact ⟨hwf, hasWords_of_opcodeMap hmap⟩

/-- Settles O7: the word matches no row, or one whose variant set lacks the variant. -/
theorem unlistedWordsAreInvalidOrRefused : Obligations.UnlistedWordsAreInvalidOrRefused := by
  intro v w w2 hno
  show decode v w w2 = unlisted v
  cases hmap : opcodeMap w w2 with
  | none => exact decode_of_opcodeMap_none hmap
  | some i =>
    obtain ⟨hword, _⟩ := hasWords_of_opcodeMap hmap
    have hset : ¬ inVariantSet v i = true := fun hin => hno i hin hword
    rw [decode_of_opcodeMap_some hmap, if_neg hset]

/-! ## The flags-storage instructions -/

theorem flagCount_of_schipClass (h : schipClass v = true) : flagCount v = 8 := by
  revert h
  cases v <;> decide

theorem flagCount_of_xoClass (h : xoClass v = true) : flagCount v = 16 := if_pos h

theorem hiresCapable_of_schipClass (h : schipClass v = true) : hiresCapable v = true := by simp [hiresCapable, h]

theorem hiresCapable_of_xoClass (h : xoClass v = true) : hiresCapable v = true := by simp [hiresCapable, h]

theorem opcodeMap_saveFlags (x : RegIx) (w2 : Word) :
    opcodeMap (packXNN 0xF#4 x 0x75#8) w2 = some (.saveFlags x) := by simp [opcodeMap, decodeGroupF]

theorem opcodeMap_loadFlags (x : RegIx) (w2 : Word) :
    opcodeMap (packXNN 0xF#4 x 0x85#8) w2 = some (.loadFlags x) := by simp [opcodeMap, decodeGroupF]

/-- `FX75` and `FX85` on a variant that has them, below the number of flag bytes. -/
theorem decode_flagsStorage_of_lt (hv : hiresCapable v = true) (hx : x.val < flagCount v) :
    decode v (packXNN 0xF#4 x 0x75#8) w2 = .valid (.saveFlags x) ∧
    decode v (packXNN 0xF#4 x 0x85#8) w2 = .valid (.loadFlags x) := by
  simp [decode_eq_valid_iff, opcodeMap_saveFlags, opcodeMap_loadFlags, wellFormed, inVariantSet, flagRangeOk, hv, hx]

/-- `FX75` and `FX85` on a variant that has them, from the number of flag bytes on. -/
theorem decode_flagsStorage_of_le (hv : hiresCapable v = true) (hx : flagCount v ≤ x.val) :
    decode v (packXNN 0xF#4 x 0x75#8) w2 = .flagRangeUnknown ∧
    decode v (packXNN 0xF#4 x 0x85#8) w2 = .flagRangeUnknown := by
  simp [decode_of_opcodeMap_some (opcodeMap_saveFlags x w2), decode_of_opcodeMap_some (opcodeMap_loadFlags x w2),
    inVariantSet, flagRangeOk, hv, hx]

/-- Settles O8: `FLAG_COUNT` is 8 on the SCHIP class and 16, above every register number, on the XO class. -/
theorem flagRangeDecidesFlagsStorage : Obligations.FlagRangeDecidesFlagsStorage := by
  intro v x w2
  refine ⟨fun hs hx => ?_, fun hs hx => ?_, fun ho => ?_⟩
  · exact decode_flagsStorage_of_lt (hiresCapable_of_schipClass hs) (by rw [flagCount_of_schipClass hs]; omega)
  · exact decode_flagsStorage_of_le (hiresCapable_of_schipClass hs) (by rw [flagCount_of_schipClass hs]; exact hx)
  · exact decode_flagsStorage_of_lt (hiresCapable_of_xoClass ho) (by rw [flagCount_of_xoClass ho]; exact x.isLt)

end Sys2Proof
end

section
/-! PROOF. What the register and ALU instructions leave in `VX` and in `VF`, and that they leave everything else
(40_alu.md rules R150 to R161; 00_scope.md rule R18). -/

namespace Sys2Proof.Machine

open Sys2Proof.Safety

variable {s t : State} {x : RegIx} {r f b : Byte}

/-! ## What each register write changes -/

/-- Memory reads do not depend on the register file. -/
theorem onlyRegs_of_frame {ws : List RegIx} (h : t = { s with v := t.v }) (hr : ∀ k, k ∉ ws → t.reg k = s.reg k) :
    onlyRegs ws s t := ⟨h, hr, State.read_congr (by rw [h]) (by rw [h])⟩

theorem onlyRegs_setReg : onlyRegs [x] s (s.setReg x b) :=
  onlyRegs_of_frame rfl fun _ hk => s.reg_setReg_other b (List.ne_of_not_mem_cons hk)

theorem onlyRegs_setResultFlag : onlyRegs [x, 15] s (s.setResultFlag x r f) := by
  refine onlyRegs_of_frame (s.setResultFlag_frame x r f) fun k hk => ?_
  obtain ⟨hx, hf⟩ : k ≠ x ∧ k ≠ flagReg := by simpa [flagReg] using hk
  rw [State.reg_setResultFlag, if_neg hf, if_neg hx]

/-! ## The result and the flag after it -/

/-- The flag is written last, so it remains also where the destination is `VF`. -/
theorem reg_setResultFlag_flag : (s.setResultFlag x r f).reg 15 = f := by
  rw [State.reg_setResultFlag]; exact if_pos rfl

theorem reg_setResultFlag_result (hx : x ≠ 15) : (s.setResultFlag x r f).reg x = r := by
  rw [State.reg_setResultFlag, if_neg (c := x = flagReg) hx, if_pos rfl]

/-- Under the quirk a logic operation is one with the flag 0. -/
theorem setLogic_of_vfReset (hq : s.quirks.vfReset = true) : s.setLogic x r = s.setResultFlag x r 0 := if_pos hq

theorem setLogic_of_not_vfReset (hq : s.quirks.vfReset = false) : s.setLogic x r = s.setReg x r :=
  if_neg (by simp [hq])

/-! ## The flags as the arithmetic facts they report -/

theorem carryFlag_eq (a b : Byte) : carryFlag a b = if a.toNat + b.toNat > 255 then 1 else 0 := by
  simp [carryFlag, flagByte]

theorem noBorrowFlag_eq (a b : Byte) : noBorrowFlag a b = if b.toNat ≤ a.toNat then 1 else 0 := by
  simp [noBorrowFlag, flagByte]

theorem toNat_shrFlag (b : Byte) : (shrFlag b).toNat = b.toNat % 2 := by
  rw [shrFlag, BitVec.toNat_and]; exact Nat.and_one_is_mod _

theorem toNat_shlFlag (b : Byte) : (shlFlag b).toNat = b.toNat / 128 := by
  have hb := b.isLt
  have : (shlFlag b).toNat = b.toNat / 128 % 2 := by
    rw [shlFlag, BitVec.toNat_and, BitVec.toNat_ushiftRight, Nat.shiftRight_eq_div_pow]
    exact Nat.and_one_is_mod _
  omega

/-! ## The differences -/

/-- A difference of bytes is the integer difference modulo 256. -/
theorem toNat_sub_eq_emod (a b : Byte) : ((a - b).toNat : Int) = ((a.toNat : Int) - b.toNat) % 256 := by
  have ha := a.isLt
  have hb := b.isLt
  rw [BitVec.toNat_sub]
  omega

/-- What a difference and its no-borrow flag leave. -/
theorem setResultFlag_sub (s : State) (x : RegIx) (a b : Byte) :
    (x ≠ 15 → (((s.setResultFlag x (a - b) (noBorrowFlag a b)).reg x).toNat : Int) = (a.toNat - b.toNat : Int) % 256) ∧
    (s.setResultFlag x (a - b) (noBorrowFlag a b)).reg 15 = (if b.toNat ≤ a.toNat then 1 else 0) ∧
    onlyRegs [x, 15] s (s.setResultFlag x (a - b) (noBorrowFlag a b)) :=
  ⟨fun hx => by rw [reg_setResultFlag_result hx, toNat_sub_eq_emod],
    by rw [reg_setResultFlag_flag, noBorrowFlag_eq], onlyRegs_setResultFlag⟩

/-! ## The obligations -/

/-- Settles O35: each of the three is one register write. -/
theorem immediateAndCopyResults : Obligations.ImmediateAndCopyResults := fun s x y nn =>
  ⟨⟨_, rfl, s.reg_setReg_same x nn, onlyRegs_setReg⟩,
    ⟨_, rfl, by rw [State.reg_setReg_same, BitVec.toNat_add], onlyRegs_setReg⟩,
    ⟨_, rfl, s.reg_setReg_same x (s.reg y), onlyRegs_setReg⟩⟩

/-- Settles O36: each of the three is one logic write, which is a result and the flag 0 under the quirk, and one
register write without it. -/
theorem logicResults : Obligations.LogicResults := by
  intro s x y i r hi
  have hexec : exec i s = .next (s.setLogic x r) := by
    rcases hi with ⟨rfl, rfl⟩ | ⟨rfl, rfl⟩ | ⟨rfl, rfl⟩ <;> rfl
  refine ⟨_, hexec, fun hq => ?_, fun hq => ?_⟩
  · rw [setLogic_of_vfReset hq]
    exact ⟨reg_setResultFlag_flag, reg_setResultFlag_result, onlyRegs_setResultFlag⟩
  · rw [setLogic_of_not_vfReset hq]
    exact ⟨s.reg_setReg_same x r, onlyRegs_setReg⟩

/-- Settles O37: the sum is the result and the carry is the flag. -/
theorem addWithCarryResult : Obligations.AddWithCarryResult := fun s x y =>
  ⟨_, rfl, fun hx => by rw [reg_setResultFlag_result hx, BitVec.toNat_add],
    by rw [reg_setResultFlag_flag, carryFlag_eq], onlyRegs_setResultFlag⟩

/-- Settles O38: the two differ in the order of the operands alone. -/
theorem subtractResults : Obligations.SubtractResults := fun s x y =>
  ⟨⟨_, rfl, setResultFlag_sub s x (s.reg x) (s.reg y)⟩, ⟨_, rfl, setResultFlag_sub s x (s.reg y) (s.reg x)⟩⟩

/-- Settles O39: the source is the one of the quirk, half of it or its double is the result, and the flag is the bit
that the shift drops. -/
theorem shiftResults : Obligations.ShiftResults := by
  intro s x y src hsrc
  obtain rfl : src = s.shiftSource x y := hsrc
  refine ⟨⟨_, rfl, fun hx => ?_, ?_, onlyRegs_setResultFlag⟩, ⟨_, rfl, fun hx => ?_, ?_, onlyRegs_setResultFlag⟩⟩
  · rw [reg_setResultFlag_result hx, BitVec.toNat_ushiftRight, Nat.shiftRight_eq_div_pow]
  · rw [reg_setResultFlag_flag, toNat_shrFlag]
  · rw [reg_setResultFlag_result hx, BitVec.toNat_shiftLeft, Nat.shiftLeft_eq]
  · rw [reg_setResultFlag_flag, toNat_shlFlag]

end Sys2Proof.Machine
end

section
/-! PROOF. The compositor (41_display.md rules R250, R253). -/

namespace Sys2Proof.Machine

open Sys2Proof.Safety

variable {s : State}

/-! ## The colour index -/

/-- A number put together from its lowest `n` bits has those bits and no other. -/
theorem testBit_sum_two_pow (b : Nat → Bool) (k n : Nat) :
    ((List.range n).map fun p => if b p then 2 ^ p else 0).sum.testBit k = (decide (k < n) && b k) := by
  induction n generalizing k with
  | zero => simp
  | succ n ih =>
    have hlt : ((List.range n).map fun p => if b p then 2 ^ p else 0).sum < 2 ^ n :=
      Nat.lt_pow_two_of_testBit _ fun i hi => by rw [ih, decide_eq_false (Nat.not_lt.mpr hi), Bool.false_and]
    rw [List.sum_range_succ, Nat.add_comm]
    rcases lt_trichotomy k n with hk | rfl | hk
    · split <;> simp [Nat.testBit_two_pow_add_gt hk, ih, hk, Nat.lt_succ_of_lt hk]
    · split <;> rename_i hb <;> simp [Nat.testBit_two_pow_add_eq, ih, hb]
    · have hle : ¬k < n + 1 := by omega
      rw [decide_eq_false hle, Bool.false_and]
      refine Nat.testBit_lt_two_pow (lt_of_lt_of_le ?_ (Nat.pow_le_pow_right two_pos hk))
      rw [pow_succ]
      split <;> omega

theorem testBit_colourIndex (s : State) (x y : Nat) (p : Fin 4) :
    (s.colourIndex x y).val.testBit p.val = (decide (p.val < planeCount s.variant) && pixelOf s p x y) := by
  rw [State.colourIndex, Fin.val_ofNat, Nat.testBit_mod_two_pow _ 4,
    testBit_sum_two_pow fun p => Plane.pixel (s.planes.getD p blankPlane) x y, decide_eq_true p.isLt, Bool.true_and]
  simp [pixelOf, Vector.getD]

/-! ## The grid -/

theorem gridFits_iff {g : Nat × Nat} : s.gridFits (some g) = true ↔ g = (s.bufWidth, s.bufHeight) := by
  simp [State.gridFits, Prod.ext_iff]

theorem length_of_mem_composite {col : List Argb} (h : col ∈ s.composite) : col.length = s.bufHeight := by
  obtain ⟨x, _, rfl⟩ := List.mem_map.mp h
  simp

theorem getD_composite {x y : Nat} (hx : x < s.bufWidth) (hy : y < s.bufHeight) :
    (s.composite.getD x []).getD y 0 = Config.palette s.settings.paletteId (s.colourIndex x y) := by
  simp [State.composite, List.getD_eq_getElem?_getD, hx, hy]

/-- Settles O31: a grid that fits is the composite, whose pixels are the palette entries of the colour indices. -/
theorem compositeShowsPlanesThroughPalette : Obligations.CompositeShowsPlanesThroughPalette := fun s =>
  ⟨fun _ hg => if_neg fun h => hg (gridFits_iff.mp h),
    s.composite, if_pos (gridFits_iff.mpr rfl), by simp [State.composite], fun _ => length_of_mem_composite,
    fun x y hx hy => ⟨s.colourIndex x y, testBit_colourIndex s x y, getD_composite hx hy⟩⟩

end Sys2Proof.Machine
end

section
/-! PROOF. Clear, scrolls, mode switches and the plane mask (41_display.md rules R219 to R230). -/

namespace Sys2Proof.Machine

open Sys2Proof.Safety

variable {s : State}

/-! ## A change of the selected planes -/

theorem onlyPlanes_mapSelected {f : Plane → Plane} : onlyPlanes s (s.mapSelected f) := ⟨rfl, fun _ => rfl⟩

theorem pixelOf_mapSelected (f : Plane → Plane) (p : Fin 4) (x y : Nat) :
    pixelOf (s.mapSelected f) p x y =
      if s.selected p then Plane.pixel (f s.planes[p.val]) x y else pixelOf s p x y := by
  unfold pixelOf
  rw [State.planes_mapSelected]
  split <;> rfl

/-- Settles O53: a selected plane is blank afterwards. -/
theorem clearResult : Obligations.ClearResult := by
  refine fun s => ⟨_, rfl, fun p x y => ?_, onlyPlanes_mapSelected⟩
  rw [pixelOf_mapSelected, pixel_blankPlane]
  cases s.selected p <;> rfl

/-- Settles O54: each scroll changes the selected planes by its primitive; within the buffer the primitive's own bound
on the far side holds. -/
theorem scrollResults : Obligations.ScrollResults := by
  refine fun s n => ⟨⟨_, rfl, onlyPlanes_mapSelected, fun p x y _ hy => ?_⟩,
    ⟨_, rfl, onlyPlanes_mapSelected, fun p x y _ _ => ?_⟩,
    ⟨_, rfl, onlyPlanes_mapSelected, fun p x y hx _ => ?_⟩,
    ⟨_, rfl, onlyPlanes_mapSelected, fun p x y _ _ => ?_⟩⟩
  · rw [pixelOf_mapSelected, Plane.pixel_scrollDown _ s.bufHeight_le]
    simp only [hy, and_true]
    rfl
  · rw [pixelOf_mapSelected, Plane.pixel_scrollUp _ s.bufHeight_le]
    rfl
  · rw [pixelOf_mapSelected, Plane.pixel_scrollRight _ s.bufWidth_le]
    simp only [hx, and_true]
    rfl
  · rw [pixelOf_mapSelected, Plane.pixel_scrollLeft _ s.bufWidth_le]
    rfl

/-! ## Mode switches -/

@[simp] theorem State.setExt_ext (s : State) (e : Bool) : (s.setExt e).ext = e := by rw [State.setExt_frame]

@[simp] theorem State.setExt_settings (s : State) (e : Bool) : (s.setExt e).settings = s.settings := by
  rw [State.setExt_frame]

@[simp] theorem State.setExt_variant (s : State) (e : Bool) : (s.setExt e).variant = s.variant := by
  rw [State.variant, State.setExt_settings]; rfl

theorem State.setExt_mem (s : State) (e : Bool) : (s.setExt e).mem = s.mem := by rw [State.setExt_frame]

theorem pixelOf_setExt (e : Bool) (p : Fin 4) (x y : Nat) :
    pixelOf (s.setExt e) p x y = (legacySchip s.variant && pixelOf s p x y) := by
  unfold pixelOf
  rw [State.planes_setExt]
  cases legacySchip s.variant <;> simp

/-- The buffer on legacy SCHIP has one size in both modes (10_state.md rule R50). -/
theorem bufSize_of_legacySchip (h : legacySchip s.variant = true) : s.bufWidth = 128 ∧ s.bufHeight = 64 :=
  ⟨if_pos h, if_pos h⟩

/-- Elsewhere the buffer has the logical size of the mode (10_state.md rule R50). -/
theorem bufSize_of_not_legacySchip (h : legacySchip s.variant = false) :
    s.bufWidth = (if s.ext then 128 else 64) ∧ s.bufHeight = (if s.ext then 64 else 32) :=
  ⟨if_neg (by simp [h]), if_neg (by simp [h])⟩

theorem planes_setExt_of_legacySchip (e : Bool) (h : legacySchip s.variant = true) :
    (s.setExt e).planes = s.planes := by rw [State.setExt, if_pos h]

/-- Settles O55: both switches are `setExt`, and `FN01` is one write. -/
theorem modeAndPlaneResults : Obligations.ModeAndPlaneResults := by
  intro s n i e hi
  have hexec : exec i s = .next (s.setExt e) := by rcases hi with ⟨rfl, rfl⟩ | ⟨rfl, rfl⟩ <;> rfl
  refine ⟨⟨_, hexec, s.setExt_ext e, pixelOf_setExt e, fun hl => ?_, fun hl => ?_, ?_, ?_⟩,
    ⟨_, rfl, rfl, rfl, fun _ => rfl⟩⟩
  · simpa using bufSize_of_not_legacySchip (s := s.setExt e) (by simpa using hl)
  · obtain ⟨hw, hh⟩ := bufSize_of_legacySchip (s := s.setExt e) (by simpa using hl)
    exact ⟨hw, hh, planes_setExt_of_legacySchip e hl⟩
  · rw [s.setExt_ext]; exact s.setExt_frame e
  · exact State.read_congr (s.setExt_settings e) (s.setExt_mem e)

end Sys2Proof.Machine
end

section
/-! PROOF. What `DXYN` leaves in the planes, in `VF` and in `RUN` (41_display.md rules R200 to R213). -/

namespace Sys2Proof.Machine

open Sys2Proof.Safety

variable {s : State} {x y : RegIx} {n : Nibble}

/-! ## The instruction as one update of the state -/

/-- What `DXYN` leaves: the planes drawn, the flag, and the wait for the next frame under the quirk. -/
def State.drawn (s : State) (x y : RegIx) (n : Nibble) : State :=
  { s with
    v := s.v.set flagReg.val (drawFlag s.countsRows (s.drawSprite x y n).hit (s.drawSprite x y n).count)
    planes := (s.drawSprite x y n).planes
    run := if s.quirks.displayWait then .frameWait else s.run }

theorem exec_drw (s : State) (x y : RegIx) (n : Nibble) : exec (.drw x y n) s = .next (s.drawn x y n) := by
  show execDrw x y n s = _
  unfold execDrw State.drawn
  cases s.quirks.displayWait <;> rfl

theorem reg_drawn_flag :
    (s.drawn x y n).reg 15 = drawFlag s.countsRows (s.drawSprite x y n).hit (s.drawSprite x y n).count :=
  s.reg_setReg_same flagReg _

theorem reg_drawn_other {k : RegIx} (hk : k ≠ 15) : (s.drawn x y n).reg k = s.reg k :=
  s.reg_setReg_other (x := flagReg) _ hk

theorem sameMemory_drawn : sameMemory s (s.drawn x y n) := fun _ => rfl

/-! ## The geometry -/

theorem spriteGeometry_eq (v : Variant) (n : Nibble) :
    spriteGeometry v n =
      (if n.toNat ≠ 0 then n.toNat else if hiresCapable v then 16 else 0,
        if n.toNat = 0 ∧ hiresCapable v = true then 16 else 8,
        if n.toNat = 0 ∧ hiresCapable v = true then 2 else 1) := by
  unfold spriteGeometry
  by_cases hn : n = 0
  · subst hn
    cases hiresCapable v <;> rfl
  · have h0 : n.toNat ≠ 0 := fun h => hn (BitVec.eq_of_toNat_eq h)
    simp only [if_neg hn, if_pos h0, h0, false_and, if_false]

/-- The setup of a draw is the one of the spec (41_display.md rules R200 to R202, R204 to R207). -/
theorem drawSetup_geometry (s : State) (x y : RegIx) (n : Nibble) : drawGeometry s x y n (s.drawSetup x y n) := by
  have hg := spriteGeometry_eq s.variant n
  refine ⟨rfl, rfl, rfl, rfl, congrArg (·.1) hg, congrArg (·.2.1) hg, congrArg (·.2.2) hg, ?_, rfl, rfl⟩
  simp [State.drawSetup]

/-! ## One draw -/

theorem pixelOf_drawn_of_covers (hm : s.dmode = .xor) {p : Fin 4} {bx py : Nat}
    (h : spriteCovers s (s.drawSetup x y n) p bx py) : pixelOf (s.drawn x y n) p bx py = !pixelOf s p bx py :=
  (s.drawSprite_spec x y n hm).1 p bx py h

theorem pixelOf_drawn_of_not_covers (hm : s.dmode = .xor) {p : Fin 4} {bx py : Nat}
    (h : ¬spriteCovers s (s.drawSetup x y n) p bx py) : pixelOf (s.drawn x y n) p bx py = pixelOf s p bx py :=
  (s.drawSprite_spec x y n hm).2.1 p bx py h

theorem hit_drawSprite_iff (hm : s.dmode = .xor) :
    (s.drawSprite x y n).hit = true ↔
      ∃ p bx py, spriteCovers s (s.drawSetup x y n) p bx py ∧ pixelOf s p bx py = true :=
  (s.drawSprite_spec x y n hm).2.2

/-- Where rows are not counted and a covered pixel was on, the draw reports a collision (rules R203, R210). -/
theorem reg_drawn_flag_of_hit (hm : s.dmode = .xor) (hc : s.countsRows = false)
    (h : ∃ p bx py, spriteCovers s (s.drawSetup x y n) p bx py ∧ pixelOf s p bx py = true) :
    (s.drawn x y n).reg 15 = 1 := by
  rw [reg_drawn_flag, hc, (hit_drawSprite_iff hm).mpr h]
  rfl

/-- Where rows are not counted and no covered pixel was on, the draw reports none (rules R203, R210). -/
theorem reg_drawn_flag_of_no_hit (hm : s.dmode = .xor) (hc : s.countsRows = false)
    (h : ∀ p bx py, spriteCovers s (s.drawSetup x y n) p bx py → pixelOf s p bx py = false) :
    (s.drawn x y n).reg 15 = 0 := by
  have hhit : (s.drawSprite x y n).hit = false := by
    rw [← Bool.not_eq_true, hit_drawSprite_iff hm]
    rintro ⟨p, bx, py, hcov, hon⟩
    exact absurd ((h p bx py hcov).symm.trans hon) (by decide)
  rw [reg_drawn_flag, hc, hhit]
  rfl

/-- Settles O56: the draw toggles the covered pixels, hits where one was on, and writes nothing else. -/
theorem drawFlipsCoveredPixels : Obligations.DrawFlipsCoveredPixels := by
  rintro s x y n d hm rfl
  exact ⟨drawSetup_geometry s x y n, _, exec_drw s x y n, fun _ _ _ _ _ => pixelOf_drawn_of_covers hm,
    fun _ _ _ => pixelOf_drawn_of_not_covers hm,
    fun hc => ⟨reg_drawn_flag_of_hit hm hc, reg_drawn_flag_of_no_hit hm hc⟩, rfl, rfl, fun _ => reg_drawn_other,
    sameMemory_drawn⟩

/-! ## The count of rows (rules R204, R208) -/

theorem xoClass_of_legacySchip {v : Variant} (h : legacySchip v = true) : xoClass v = false := by
  revert h; cases v <;> decide

/-- A variant with one plane draws into plane 0 alone. -/
theorem selectedPlanes_of_not_xoClass (hx : xoClass s.variant = false) (hp : s.pmask = 1) :
    s.selectedPlanes = [0] := by
  have hsel : ∀ p, s.selected p = decide (p = 0) := by
    intro p
    rw [State.selected, planeCount, hx, hp]
    revert p; decide
  simp [State.selectedPlanes, hsel]

/-- A row counts exactly when it lies past the bottom or covers a pixel of plane 0 that was on. -/
theorem lineCounts_iff (hs : s.selectedPlanes = [0]) (hc : s.countsRows = true) (r : Nat) :
    lineCounts (s.drawSetup x y n) (s.slice (s.drawSetup x y n) 0) s.planes[0] r ↔
      (s.drawSetup x y n).h ≤ (s.drawSetup x y n).y0 + r ∨
        ∃ bx py, rowCovers s (s.drawSetup x y n) 0 r bx py ∧ pixelOf s 0 bx py = true := by
  have hslice : s.slice (s.drawSetup x y n) 0 = sliceByte s (s.drawSetup x y n) 0 := by
    funext off
    rw [State.slice, sliceByte, hs]
    rfl
  have hcount : (s.drawSetup x y n).counting = true := hc
  rw [lineCounts, hslice, hcount, Prod.exists, eq_self, true_and]
  rfl

theorem rows_drawSetup_lt (s : State) (x y : RegIx) (n : Nibble) : (s.drawSetup x y n).rows < 256 := by
  have := n.isLt
  obtain ⟨_, _, _, _, hrows, _⟩ := drawSetup_geometry s x y n
  rw [hrows]
  split
  · omega
  · split <;> decide

/-- Settles O57: the count is the number of rows that count, and those are the listed ones; it fits a byte. -/
theorem legacyDrawCountsRows : Obligations.LegacyDrawCountsRows := by
  classical
  rintro s x y n d colliding ⟨hmask, _, hm⟩ hc rfl hnodup hmem
  have hlegacy : legacySchip s.variant = true := (Bool.and_eq_true_iff.mp hc).1
  have hx := xoClass_of_legacySchip hlegacy
  have hsel := selectedPlanes_of_not_xoClass hx (hmask hx)
  have hcount : (s.drawSprite x y n).count = colliding.length := by
    rw [s.drawSprite_count x y n hm hsel]
    refine List.Perm.length_eq ((List.perm_ext_iff_of_nodup (List.nodup_range.filter _) hnodup).mpr fun r => ?_)
    rw [hmem, List.mem_filter, List.mem_range, decide_eq_true_eq, lineCounts_iff hsel hc]
  have hle : (s.drawSprite x y n).count ≤ (s.drawSetup x y n).rows := by
    rw [s.drawSprite_count x y n hm hsel]
    exact (List.length_filter_le _ _).trans_eq List.length_range
  refine ⟨drawSetup_geometry s x y n, _, exec_drw s x y n, ?_⟩
  rw [reg_drawn_flag, hc, drawFlag, if_pos rfl, BitVec.toNat_ofNat, ← hcount]
  exact Nat.mod_eq_of_lt (hle.trans_lt (rows_drawSetup_lt s x y n))

/-! ## The same draw a second time (rules R212, R213) -/

/-- A draw whose coordinates are not in `VF` leaves the setup of the same draw. -/
theorem drawSetup_drawn (hx : x ≠ 15) (hy : y ≠ 15) : (s.drawn x y n).drawSetup x y n = s.drawSetup x y n := by
  have h : (s.drawn x y n).drawSetup x y n = { s.drawSetup x y n with
      x0 := ((s.drawn x y n).reg x).toNat % s.width, y0 := ((s.drawn x y n).reg y).toNat % s.height } := rfl
  rw [h, reg_drawn_other hx, reg_drawn_other hy]
  rfl

/-- What a sprite covers does not depend on what a draw writes, once its setup is given. -/
theorem spriteCovers_drawn (d : DrawSetup) (p : Fin 4) (bx py : Nat) :
    spriteCovers (s.drawn x y n) d p bx py ↔ spriteCovers s d p bx py := Iff.rfl

theorem pixelOf_drawn_drawn (hm : s.dmode = .xor) (hx : x ≠ 15) (hy : y ≠ 15) (p : Fin 4) (bx py : Nat) :
    pixelOf ((s.drawn x y n).drawn x y n) p bx py = pixelOf s p bx py := by
  have hm' : (s.drawn x y n).dmode = .xor := hm
  by_cases h : spriteCovers s (s.drawSetup x y n) p bx py
  · have h' : spriteCovers (s.drawn x y n) ((s.drawn x y n).drawSetup x y n) p bx py := by
      rwa [drawSetup_drawn hx hy, spriteCovers_drawn]
    rw [pixelOf_drawn_of_covers hm' h', pixelOf_drawn_of_covers hm h, Bool.not_not]
  · have h' : ¬spriteCovers (s.drawn x y n) ((s.drawn x y n).drawSetup x y n) p bx py := by
      rwa [drawSetup_drawn hx hy, spriteCovers_drawn]
    rw [pixelOf_drawn_of_not_covers hm' h', pixelOf_drawn_of_not_covers hm h]

/-- On a clean screen the second draw collides with what the first has drawn. -/
theorem reg_drawn_drawn_flag (hm : s.dmode = .xor) (hx : x ≠ 15) (hy : y ≠ 15) (hc : s.countsRows = false)
    (hclean : ∀ p bx py, pixelOf s p bx py = false)
    (hcov : ∃ p bx py, spriteCovers s (s.drawSetup x y n) p bx py) :
    ((s.drawn x y n).drawn x y n).reg 15 = 1 := by
  obtain ⟨p, bx, py, h⟩ := hcov
  refine reg_drawn_flag_of_hit (s := s.drawn x y n) hm hc ⟨p, bx, py, ?_, ?_⟩
  · rwa [drawSetup_drawn hx hy, spriteCovers_drawn]
  · rw [pixelOf_drawn_of_covers hm h, hclean]
    rfl

/-- Settles O58: the second draw covers what the first does, so it flips the same pixels back. -/
theorem drawTwiceRestoresPlanes : Obligations.DrawTwiceRestoresPlanes := by
  intro s t u x y n hm hx hy ht hu
  obtain rfl := Host.Outcome.next.inj ((exec_drw s x y n).symm.trans ht)
  obtain rfl := Host.Outcome.next.inj ((exec_drw _ x y n).symm.trans hu)
  exact ⟨drawSetup_geometry s x y n, fun p bx py _ _ => pixelOf_drawn_drawn hm hx hy p bx py,
    fun hc hclean hcov => ⟨reg_drawn_flag_of_no_hit hm hc fun p bx py _ => hclean p bx py,
      reg_drawn_drawn_flag hm hx hy hc hclean hcov⟩⟩

end Sys2Proof.Machine
end

section
/-! PROOF. What the index and memory instructions leave in `I`, in memory, in the registers and in the flags storage
(42_memory_ops.md rules R270 to R288), and sample words of the opcode map (30_encoding.md section 3). -/

namespace Sys2Proof.Machine

open Sys2Proof.Safety

variable {s : State} {x : RegIx}

/-! ## Sample words -/

/-- Settles O9: the decoder run on fourteen literal words. -/
theorem sampleWordsDecode : Obligations.SampleWordsDecode := by
  unfold Obligations.SampleWordsDecode
  decide

/-! ## The index register -/

theorem onlyI_setI (a : Addr) : onlyI s (s.setI a) := ⟨rfl, fun _ => rfl⟩

theorem two_pow_sixteen_le_iWidth (v : Variant) : 2 ^ 16 ≤ 2 ^ iWidth v := by cases v <;> decide

/-- An address of 16 bits fits every width of `I`. -/
theorem State.toNat_setI_of_lt {a : Addr} (h : a.toNat < 2 ^ 16) : (s.setI a).i.toNat = a.toNat := by
  rw [State.toNat_setI, Nat.mod_eq_of_lt (h.trans_le (two_pow_sixteen_le_iWidth s.variant))]

/-- An immediate of at most 16 bits is what it sets `I` to. -/
theorem State.toNat_setI_setWidth {w : Nat} (hw : w ≤ 16) (b : BitVec w) :
    (s.setI (b.setWidth 24)).i.toNat = b.toNat := by
  have hb : (b.setWidth 24).toNat = b.toNat := BitVec.toNat_setWidth_of_le (by omega)
  rw [State.toNat_setI_of_lt, hb]
  exact hb ▸ b.isLt.trans_le (Nat.pow_le_pow_right two_pos hw)

theorem State.toNat_setI_add (b : Byte) :
    (s.setI (s.i + b.setWidth 24)).i.toNat = (s.i.toNat + b.toNat) % 2 ^ iWidth s.variant := by
  rw [State.toNat_setI, BitVec.toNat_add, BitVec.toNat_setWidth_of_le (by omega),
    Nat.mod_mod_of_dvd _ (Nat.pow_dvd_pow 2 (iWidth_le _))]

theorem State.toNat_setI_smallGlyph (b : Byte) :
    (s.setI (smallGlyph (lowNibble b))).i.toNat = 5 * (b.toNat % 16) := by
  have hg : (smallGlyph (lowNibble b)).toNat = 5 * (b.toNat % 16) := by rw [toNat_smallGlyph, lowNibble_val]
  rw [State.toNat_setI_of_lt (by omega), hg]

theorem State.toNat_setI_bigGlyph (b : Byte) :
    (s.setI (bigGlyph (lowNibble b))).i.toNat = 0x50 + 10 * (b.toNat % 16) := by
  have hg : (bigGlyph (lowNibble b)).toNat = 0x50 + 10 * (b.toNat % 16) := by rw [toNat_bigGlyph, lowNibble_val]
  rw [State.toNat_setI_of_lt (by omega), hg]

/-- The long form takes the word after its own (30_encoding.md rule R111). -/
theorem decode_longForm {v : Variant} (w2 : Word) (hv : xoClass v = true) :
    decode v 0xF000 w2 = .valid (.ldILong w2) :=
  decode_eq_valid_iff.mpr ⟨rfl, by simp [wellFormed, inVariantSet, flagRangeOk, hv]⟩

/-- Settles O41: each of the five is one write of `I`, and the long form moves `PC` before it. -/
theorem indexResults : Obligations.IndexResults := by
  refine fun s x nnn nnnn => ⟨⟨_, rfl, State.toNat_setI_setWidth (by omega) nnn, onlyI_setI _⟩,
    ⟨_, rfl, State.toNat_setI_setWidth (by omega) nnnn, ?_, rfl, fun _ => rfl⟩, fun hv hw => ?_,
    ⟨_, rfl, State.toNat_setI_add (s.reg x), onlyI_setI _⟩,
    ⟨_, rfl, State.toNat_setI_smallGlyph (s.reg x), onlyI_setI _⟩,
    ⟨_, rfl, State.toNat_setI_bigGlyph (s.reg x), onlyI_setI _⟩⟩
  · exact s.toNat_advance
  · rw [State.fetchDecode, hw, decode_longForm _ hv]

/-! ## Stores -/

theorem onlyStored_storeBytes (a : Addr) (bs : List Byte) : onlyStored a bs.length s (s.storeBytes a bs) :=
  ⟨State.storeBytes_frame bs s a, State.read_storeBytes_outside bs s a⟩

theorem onlyStored_regValues (a : Addr) (rs : List RegIx) :
    onlyStored a rs.length s (s.storeBytes a (s.regValues rs)) := by
  have h := onlyStored_storeBytes (s := s) a (s.regValues rs)
  rwa [State.regValues, List.length_map] at h

theorem sameMemory_autoInc (s : State) (x : RegIx) : sameMemory s (s.autoInc x) :=
  State.read_congr (by rw [State.autoInc_frame]) (by rw [State.autoInc_frame])

theorem toNat_bcdDigits (b : Byte) :
    (bcdDigits b).map BitVec.toNat = [b.toNat / 100, b.toNat / 10 % 10, b.toNat % 10] := by
  have hb := b.isLt
  simp (disch := omega) [bcdDigits, Nat.mod_eq_of_lt]

/-- What `FX33` leaves at each of its three addresses. -/
theorem toNat_read_bcd (hw : memoryCanonical s) (a : Addr) (b : Byte) {k d : Nat}
    (hd : [b.toNat / 100, b.toNat / 10 % 10, b.toNat % 10][k]? = some d) :
    ((s.storeBytes a (bcdDigits b)).read (a + BitVec.ofNat 24 k)).toNat = d := by
  have hm := memSize_ge s.variant
  rw [← toNat_bcdDigits, List.getElem?_map, Option.map_eq_some_iff] at hd
  obtain ⟨c, hc, rfl⟩ := hd
  obtain ⟨hk, rfl⟩ := List.getElem?_eq_some_iff.mp hc
  have hlen : (bcdDigits b).length ≤ memSize s.variant := le_trans (by decide : 3 ≤ 4096) hm
  rw [State.read_storeBytes_inside _ s a hw hlen k hk]

/-- Settles O42: a store of the three digits. -/
theorem bcdResult : Obligations.BcdResult := by
  refine fun s x hw => ⟨_, rfl, ?_, toNat_read_bcd (k := 1) hw s.i _ rfl, toNat_read_bcd (k := 2) hw s.i _ rfl,
    onlyStored_storeBytes s.i _⟩
  have h := toNat_read_bcd (k := 0) hw s.i (s.reg x) rfl
  rwa [addr_add_zero] at h

theorem regsUpTo_length_le (x : RegIx) : (regsUpTo x).length ≤ 16 := by rw [regsUpTo_length]; omega

/-- Settles O43: a store of the registers, and then the advance of `I`, which no read depends on. -/
theorem storeRegistersResult : Obligations.StoreRegistersResult := by
  intro s x hw
  obtain ⟨_, houtside⟩ := onlyStored_regValues (s := s) s.i (regsUpTo x)
  rw [regsUpTo_length] at houtside
  refine ⟨_, rfl, fun k hk => ?_, fun b hb => ?_, fun hq => ?_, fun hq => ?_, ?_⟩
  · rw [sameMemory_autoInc, s.read_store _ _ hw (regsUpTo_length_le x) (regsUpTo_getElem? x k hk)]
  · rw [sameMemory_autoInc, houtside b hb]
  · rw [State.toNat_autoInc _ _ (by simpa using hq), State.storeBytes_i, State.storeBytes_variant]
  · rw [State.autoInc_off _ _ (by simpa using hq), State.storeBytes_i]
  · rw [State.autoInc_frame, State.storeBytes_frame]

theorem regRange_length_le (x y : RegIx) : (regRange x y).length ≤ 16 := by
  rw [regRange_length]; split <;> omega

/-- Settles O45: a store of the range, which is in the order of its addresses. -/
theorem saveRangeResult : Obligations.SaveRangeResult := by
  intro s x y hw
  have hstored := onlyStored_regValues (s := s) s.i (regRange x y)
  rw [regRange_length] at hstored
  refine ⟨_, rfl, fun hxy => ⟨fun k hxk hky => ?_, ?_⟩, fun hyx => ⟨fun k hyk hkx => ?_, ?_⟩⟩
  · exact s.read_store _ _ hw (regRange_length_le x y) (regRange_up x y k hxk hky)
  · rwa [if_pos hxy] at hstored
  · exact s.read_store _ _ hw (regRange_length_le x y) (regRange_down x y k hyk hkx hyx.ne')
  · rwa [if_neg hyx.not_ge] at hstored

/-! ## Loads -/

@[simp] theorem State.setRegs_settings (s : State) (ps : List (RegIx × Byte)) :
    (s.setRegs ps).settings = s.settings := by rw [State.setRegs_frame]

@[simp] theorem State.setRegs_variant (s : State) (ps : List (RegIx × Byte)) :
    (s.setRegs ps).variant = s.variant := by unfold State.variant; rw [State.setRegs_settings]

@[simp] theorem State.setRegs_quirks (s : State) (ps : List (RegIx × Byte)) :
    (s.setRegs ps).quirks = s.quirks := by unfold State.quirks; rw [State.setRegs_settings]

@[simp] theorem State.setRegs_i (s : State) (ps : List (RegIx × Byte)) : (s.setRegs ps).i = s.i := by
  rw [State.setRegs_frame]

theorem sameMemory_setRegs (s : State) (ps : List (RegIx × Byte)) : sameMemory s (s.setRegs ps) :=
  State.read_congr (s.setRegs_settings ps) (by rw [State.setRegs_frame])

theorem not_mem_regsUpTo {k : RegIx} (h : x < k) : k ∉ regsUpTo x := fun hk => ((mem_regsUpTo x k).mp hk).not_gt h

theorem not_mem_regRange {y k : RegIx} (h : (k < x ∧ k < y) ∨ (x < k ∧ y < k)) : k ∉ regRange x y := by
  simp only [mem_regRange, Fin.le_def, Fin.lt_def] at h ⊢
  omega

/-- What `FX65` leaves, with as many bytes loaded as there are registers. -/
theorem exec_loadRegs (s : State) (x : RegIx) : exec (.loadRegs x) s =
    .next ((s.setRegs ((regsUpTo x).zip (s.loadBytes s.i (regsUpTo x).length))).autoInc x) := by
  rw [regsUpTo_length]
  rfl

/-- Settles O44: a load of the registers, and then the advance of `I`, which no register depends on. -/
theorem loadRegistersResult : Obligations.LoadRegistersResult := by
  refine fun s x => ⟨_, exec_loadRegs s x, fun k hk => ?_, fun k hk => ?_, fun hq => ?_, fun hq => ?_, ?_, fun a => ?_⟩
  · rw [State.reg_autoInc, s.reg_load _ _ (regsUpTo_nodup x) (regsUpTo_getElem? x k hk)]
  · rw [State.reg_autoInc, s.reg_load_other _ _ (not_mem_regsUpTo hk)]
  · rw [State.toNat_autoInc _ _ (by simpa using hq), State.setRegs_i, State.setRegs_variant]
  · rw [State.autoInc_off _ _ (by simpa using hq), State.setRegs_i]
  · rw [State.autoInc_frame, State.setRegs_frame]
  · rw [sameMemory_autoInc, sameMemory_setRegs]

/-- Settles O46: a load of the range, which is in the order of its addresses. -/
theorem loadRangeResult : Obligations.LoadRangeResult := by
  refine fun s x y => ⟨_, rfl, fun hxy k hxk hky => ?_, fun hyx k hyk hkx => ?_, fun k hk => ?_,
    State.setRegs_frame _ s, sameMemory_setRegs s _⟩
  · exact s.reg_load _ _ (regRange_nodup x y) (regRange_up x y k hxk hky)
  · exact s.reg_load _ _ (regRange_nodup x y) (regRange_down x y k hyk hkx hyx.ne')
  · exact s.reg_load_other _ _ (not_mem_regRange hk)

/-! ## The flags storage -/

theorem sameMemory_setFlags (s : State) (ps : List (RegIx × Byte)) : sameMemory s (s.setFlags ps) :=
  State.read_congr (by rw [State.setFlags_frame]) (by rw [State.setFlags_frame])

/-- The numbers `0..X`, each with its value: what `FX75` and `FX85` write. -/
def valuesUpTo (x : RegIx) (f : RegIx → Byte) : List (RegIx × Byte) := (regsUpTo x).map fun k => (k, f k)

theorem map_fst_valuesUpTo (x : RegIx) (f : RegIx → Byte) : (valuesUpTo x f).map Prod.fst = regsUpTo x := by
  rw [valuesUpTo, List.map_map]
  exact List.map_id _

theorem nodup_valuesUpTo (x : RegIx) (f : RegIx → Byte) : ((valuesUpTo x f).map Prod.fst).Nodup := by
  rw [map_fst_valuesUpTo]; exact regsUpTo_nodup x

theorem mem_valuesUpTo (f : RegIx → Byte) {k : RegIx} (h : k ≤ x) : (k, f k) ∈ valuesUpTo x f :=
  List.mem_map_of_mem ((mem_regsUpTo x k).mpr h)

theorem not_mem_valuesUpTo (f : RegIx → Byte) {k : RegIx} (h : x < k) : k ∉ (valuesUpTo x f).map Prod.fst := by
  rw [map_fst_valuesUpTo]; exact not_mem_regsUpTo h

theorem exec_saveFlags (s : State) (x : RegIx) :
    exec (.saveFlags x) s = .next (s.setFlags (valuesUpTo x s.reg)) := rfl

theorem exec_loadFlags (s : State) (x : RegIx) :
    exec (.loadFlags x) s = .next (s.setRegs (valuesUpTo x fun k => s.flags[k.val])) := rfl

/-- Settles O47: the two write the numbers `0..X`, the one from the registers and the other from the storage. -/
theorem flagsStorageResults : Obligations.FlagsStorageResults := fun s x =>
  ⟨⟨_, exec_saveFlags s x,
      fun _ hk => State.flags_setFlags_mem _ s (nodup_valuesUpTo x s.reg) _ (mem_valuesUpTo s.reg hk),
      fun k hk => State.flags_setFlags_other _ s k (not_mem_valuesUpTo s.reg hk),
      State.setFlags_frame _ s, sameMemory_setFlags s _⟩,
    ⟨_, exec_loadFlags s x,
      fun _ hk => State.reg_setRegs_mem _ s (nodup_valuesUpTo x _) _ (mem_valuesUpTo _ hk),
      fun k hk => State.reg_setRegs_other _ s k (not_mem_valuesUpTo _ hk),
      State.setRegs_frame _ s, sameMemory_setRegs s _⟩⟩

end Sys2Proof.Machine
end

section
/-! PROOF. Where the instructions of control flow take `PC`, the stack and `RUN`, and that nothing else changes
(43_control_flow.md rules R320 to R346). -/

namespace Sys2Proof.Machine

open Sys2Proof.Safety

variable {s : State}

/-! ## Jumps -/

theorem onlyPc_setPc (a : Addr) : onlyPc s (s.setPc a) := ⟨rfl, fun _ => rfl⟩

/-- An address of 12 bits lies in every memory. -/
theorem State.toNat_setPc_imm (s : State) (nnn : Imm12) : (s.setPc (nnn.setWidth 24)).pc.toNat = nnn.toNat := by
  have hlt : nnn.toNat < memSize s.variant := nnn.isLt.trans_le (memSize_ge s.variant)
  rw [State.toNat_setPc, BitVec.toNat_setWidth_of_le (by omega), Nat.mod_eq_of_lt hlt]

/-- The sum of a 12-bit base and a byte does not wrap before it is masked. -/
theorem State.toNat_setPc_imm_add (s : State) (nnn : Imm12) (b : Byte) :
    (s.setPc (nnn.setWidth 24 + b.setWidth 24)).pc.toNat = (nnn.toNat + b.toNat) % memSize s.variant := by
  have hsum : (nnn.setWidth 24 + b.setWidth 24 : Addr).toNat = nnn.toNat + b.toNat := by bv_omega
  rw [State.toNat_setPc, hsum]

/-- Settles O48: each of the two is one write of `PC`. -/
theorem jumpResults : Obligations.JumpResults := by
  refine fun s nnn => ⟨⟨_, rfl, s.toNat_setPc_imm nnn, onlyPc_setPc _⟩, ⟨_, rfl, ?_, onlyPc_setPc _⟩⟩
  rw [State.toNat_setPc_imm_add, State.jumpOffset_eq]

/-! ## The call and the return -/

theorem exec_call (nnn : Imm12) (h : s.sp.val < 16) :
    exec (.call nnn) s = .next ((s.push h).setPc (nnn.setWidth 24)) := dif_pos h

theorem exec_ret (h : s.sp.val ≠ 0) : exec .ret s = .next (s.popSp.setPc s.topOfStack) := if_neg h

theorem State.stack_push_same (h : s.sp.val < 16) : (s.push h).stack[s.sp.val] = s.pc := Vector.getElem_set_self h

theorem State.stack_push_other (h : s.sp.val < 16) (k : Fin 16) (hk : k.val ≠ s.sp.val) :
    (s.push h).stack[k.val] = s.stack[k.val] := Vector.getElem_set_ne h k.isLt hk.symm

/-- A return undoes what a call did to the stack pointer. -/
theorem State.sp_popSp_push (h : s.sp.val < 16) : (s.push h).popSp.sp = s.sp := rfl

theorem State.setPc_pc_of_lt {a : Addr} (h : a.toNat < memSize s.variant) : (s.setPc a).pc = a :=
  BitVec.eq_of_toNat_eq (by rw [State.toNat_setPc, Nat.mod_eq_of_lt h])

/-- Settles O49: a call is a push and a write of `PC`, a return a pop and a write of `PC`, and what was pushed is on
top. -/
theorem callAndReturnResults : Obligations.CallAndReturnResults := by
  refine fun s nnn => ⟨fun h => ?_, fun k hk => ?_, fun h hpc => ?_⟩
  · exact ⟨_, exec_call nnn h, State.stack_push_same h, State.stack_push_other h, rfl,
      (s.push h).toNat_setPc_imm nnn, rfl, fun _ => rfl⟩
  · refine ⟨_, exec_ret (by omega), ?_, ?_, rfl, fun _ => rfl⟩
    · show s.sp.val - 1 = k.val
      omega
    · rw [State.toNat_setPc, s.topOfStack_eq k hk]
      rfl
  · refine ⟨_, _, exec_call nnn h, exec_ret (Nat.succ_ne_zero s.sp.val), ?_, State.sp_popSp_push h⟩
    have htop : ((s.push h).setPc (nnn.setWidth 24)).topOfStack = s.pc := s.topOfStack_push h
    rw [htop]
    exact State.setPc_pc_of_lt hpc

/-! ## Skips -/

/-- Every skip: one conditional use of the skip primitive. -/
theorem skipsWhen_skipIf {b : Bool} {p : Prop} (h : b = true ↔ p) : skipsWhen p s (s.skipIf b) := by
  refine ⟨⟨s.skipIf_frame b, State.read_congr (by rw [State.skipIf_frame]) (by rw [State.skipIf_frame])⟩,
    fun hp => ?_, fun hp => ?_⟩
  · rw [h.mpr hp]
    exact s.toNat_skip
  · rw [Bool.eq_false_iff.mpr (mt h.mp hp)]
    rfl

/-- The key that `EX9E` and `EXA1` ask for (43_control_flow.md rule R336). -/
theorem State.key_lowNibble (s : State) (b : Byte) : s.key (lowNibble b) = s.keys[b.toNat % 16] := by
  simp only [State.key, lowNibble_val]

/-- Settles O51: each of the six is a skip under a Boolean test, which decides its condition. -/
theorem skipResults : Obligations.SkipResults := fun s x y nn =>
  ⟨⟨_, rfl, skipsWhen_skipIf beq_iff_eq⟩, ⟨_, rfl, skipsWhen_skipIf bne_iff_ne⟩,
    ⟨_, rfl, skipsWhen_skipIf beq_iff_eq⟩, ⟨_, rfl, skipsWhen_skipIf bne_iff_ne⟩,
    ⟨_, rfl, skipsWhen_skipIf (by rw [State.key_lowNibble])⟩,
    ⟨_, rfl, skipsWhen_skipIf (by rw [Bool.not_eq_true', State.key_lowNibble])⟩⟩

/-! ## The exit -/

/-- The step of a live session with no host move listed runs the instruction that the decoder reads. -/
theorem step_eq_runInstr {i : Instr} (hlive : live s) (hinbox : s.inbox = []) (hf : s.fetchDecode = .valid i) :
    step s = runInstr i s.ready := by
  rw [step_eq_instrStep s hlive hinbox, instrStep, State.ready_fetchDecode, hf]

theorem runInstr_exit : runInstr .exit s = .next s.advance.halt := rfl

/-- Settles O52: the step that runs the exit answers the state it halts, which takes no further step. -/
theorem exitHaltsTheSession : Obligations.ExitHaltsTheSession := by
  refine fun s => ⟨rfl, fun hlive hinbox hf => ⟨s.ready.advance.halt, ?_, rfl, ?_, ?_⟩⟩
  · rw [step_eq_runInstr hlive hinbox hf, runInstr_exit]
  · show s.ready.advance.pc.toNat = _
    rw [State.toNat_advance, State.ready_pc, State.ready_variant]
  · rw [s.ready_frame]
    exact ⟨rfl, rfl, rfl, rfl, rfl, fun _ => rfl, fun _ => rfl, step_of_halted rfl⟩

end Sys2Proof.Machine
end

section
/-! PROOF. What the timer, sound and get-key instructions leave, and the samples that the end of a frame leaves
(44_keys_timers_sound.md rules R370 to R391). -/

namespace Sys2Proof.Machine

open Sys2Proof.Safety

variable {s : State} {x k : RegIx}

/-! ## Timers, pattern and pitch -/

/-- Settles O59: each of the five is one write of the one field it names, which no memory read depends on. -/
theorem timerAndSoundResults : Obligations.TimerAndSoundResults := fun s x =>
  ⟨⟨_, rfl, s.reg_setReg_same x s.dt, onlyRegs_setReg⟩, ⟨_, rfl, rfl, rfl, fun _ => rfl⟩,
    ⟨_, rfl, rfl, rfl, fun _ => rfl⟩, ⟨_, rfl, fun k => Vector.getElem_ofFn k.isLt, rfl, fun _ => rfl⟩,
    ⟨_, rfl, rfl, rfl, fun _ => rfl⟩⟩

/-! ## The get-key instruction -/

/-- The address of the instruction is masked already, so the write of `PC` leaves it as it is. -/
theorem State.stall_pc (s : State) : s.stall.pc = (s.pc - 2) &&& addrMask s.variant := by
  rw [State.stall, State.setPc_pc, State.instrAddr, BitVec.and_assoc, BitVec.and_self]

theorem onlyPc_stall : onlyPc s s.stall := onlyPc_setPc _

theorem exec_ldVxK_idle_none (hw : s.keyWait = .idle) (hl : s.lowestKey = none) :
    exec (.ldVxK x) s = .next s.stall := by
  show execLdVxK x s = _
  rw [execLdVxK, hw, hl]

theorem exec_ldVxK_idle_some (hw : s.keyWait = .idle) (hl : s.lowestKey = some k) :
    exec (.ldVxK x) s = .next { s.stall with keyWait := .awaiting k } := by
  show execLdVxK x s = _
  rw [execLdVxK, hw, hl]

theorem exec_ldVxK_held (hw : s.keyWait = .awaiting k) (hk : s.key k = true) :
    exec (.ldVxK x) s = .next s.stall := by
  show execLdVxK x s = _
  rw [execLdVxK, hw]
  exact if_pos hk

theorem exec_ldVxK_released (hw : s.keyWait = .awaiting k) (hk : s.key k = false) :
    exec (.ldVxK x) s = .next { s.setReg x (BitVec.ofNat 8 k.val) with keyWait := .idle } := by
  show execLdVxK x s = _
  rw [execLdVxK, hw]
  exact if_neg (Bool.eq_false_iff.mp hk)

/-- A key code fits the register it is delivered to. -/
theorem toNat_keyCode (k : RegIx) : (BitVec.ofNat 8 k.val).toNat = k.val :=
  Nat.mod_eq_of_lt (k.isLt.trans (by decide))

/-- Settles O60: the four cases of the get-key state and the keys held. -/
theorem getKeyResults : Obligations.GetKeyResults := by
  refine fun s x => ⟨fun hw hk => ?_, fun k hw hk hlow => ?_, fun k hw hk => ?_, fun k hw hk => ?_⟩
  · exact ⟨_, exec_ldVxK_idle_none hw (s.lowestKey_eq_none.mpr hk), s.stall_pc, onlyPc_stall⟩
  · exact ⟨_, exec_ldVxK_idle_some hw ((s.lowestKey_eq_some k).mpr ⟨hk, hlow⟩), rfl, s.stall_pc, rfl, fun _ => rfl⟩
  · exact ⟨_, exec_ldVxK_held hw hk, s.stall_pc, onlyPc_stall⟩
  · refine ⟨_, exec_ldVxK_released hw hk, ?_, rfl, rfl, fun j hj => s.reg_setReg_other _ hj, fun _ => rfl⟩
    exact (congrArg BitVec.toNat (s.reg_setReg_same x _)).trans (toNat_keyCode k)

/-! ## The samples of a frame -/

theorem State.pushSamples_silence (h : s.st = 0) : s.pushSamples = { s with phase := 0, pcm := .silence } := if_pos h

theorem State.pushSamples_tone (h : s.st ≠ 0) : s.pushSamples =
    { s with
      phase := (synth s.pattern (stepOf s.variant s.pitch) s.samplesPerFrame s.phase).2
      pcm := .tone s.pattern s.phase (stepOf s.variant s.pitch) } := if_neg h

theorem State.pcmSamples_silence (h : s.st = 0) :
    s.pushSamples.pcmSamples = List.replicate s.samplesPerFrame 0 := by
  rw [State.pushSamples_silence h]; rfl

theorem State.pcmSamples_tone (h : s.st ≠ 0) :
    s.pushSamples.pcmSamples = (synth s.pattern (stepOf s.variant s.pitch) s.samplesPerFrame s.phase).1 := by
  rw [State.pushSamples_tone h]; rfl

theorem State.length_pcmSamples (s : State) : s.pushSamples.pcmSamples.length = s.samplesPerFrame := by
  by_cases h : s.st = 0
  · rw [State.pcmSamples_silence h, List.length_replicate]
  · rw [State.pcmSamples_tone h, synth_length]

theorem State.eq_zero_of_mem_pcmSamples (h : s.st = 0) {a : Int} (ha : a ∈ s.pushSamples.pcmSamples) : a = 0 := by
  rw [State.pcmSamples_silence h] at ha
  exact List.eq_of_mem_replicate ha

/-- Every sample of a frame of tone is read from the pattern at some phase. -/
theorem State.toneSample_of_mem_pcmSamples (h : s.st ≠ 0) {a : Int} (ha : a ∈ s.pushSamples.pcmSamples) :
    ∃ phase, a = toneSample s.pattern phase := by
  rw [State.pcmSamples_tone h] at ha
  exact mem_synth _ _ _ _ a ha

theorem State.amplitude_of_mem_pcmSamples (h : s.st ≠ 0) {a : Int} (ha : a ∈ s.pushSamples.pcmSamples) :
    a = (Config.amplitude : Int) ∨ a = -(Config.amplitude : Int) := by
  obtain ⟨phase, rfl⟩ := State.toneSample_of_mem_pcmSamples h ha
  exact toneSample_cases _ phase

theorem toneSample_ones {p : Pattern} (h : ∀ k : Fin 16, p[k.val] = 0xFF#8) (phase : Rat) :
    toneSample p phase = (Config.amplitude : Int) := if_pos (patternBit_ones p h (phaseIndex_lt phase))

/-- The bit number of a phase is its floor after scaling, where that is one of the 128. -/
theorem phaseIndex_of_floor {phase : Rat} {i : Fin 128} (hi : (i.val : Int) = (phase * 128).floor) :
    phaseIndex phase = i.val := by
  rw [phaseIndex, ← hi, Int.toNat_natCast, Nat.mod_eq_of_lt i.isLt]

theorem toneSample_of_floor {phase : Rat} {i : Fin 128} (hi : (i.val : Int) = (phase * 128).floor) :
    toneSample s.pattern phase = if patternHas s i then (Config.amplitude : Int) else -(Config.amplitude : Int) := by
  rw [toneSample, phaseIndex_of_floor hi]; rfl

/-- A phase in `[0, 1)` names one of the 128 bits of the pattern. -/
theorem exists_fin_eq_floor {phase : Rat} (h0 : 0 ≤ phase) (h1 : phase < 1) :
    ∃ i : Fin 128, (i.val : Int) = (phase * 128).floor := by
  have hlo : 0 ≤ (phase * 128).floor := Rat.le_floor_iff.mpr (by push_cast; linarith)
  have hhi : (phase * 128).floor < 128 := Rat.floor_lt_iff.mpr (by push_cast; linarith)
  exact ⟨⟨(phase * 128).floor.toNat, by omega⟩, Int.toNat_of_nonneg hlo⟩

theorem soundFollowsTimer_pushSamples (s : State) : soundFollowsTimer s s.pushSamples := by
  refine ⟨fun h => ?_, fun h => ?_⟩
  · rw [State.pushSamples_silence h]; exact ⟨rfl, rfl⟩
  · rw [State.pushSamples_tone h]; exact ⟨rfl, synth_phase _ _ _ _⟩

/-! ## The step of the phase -/

/-- The pitches whose exponent is an integer. -/
theorem pitchRatio_exact {p : Byte} (j : Nat) (hp : p.toNat = 16 + 48 * j) : pitchRatio p = 2 ^ j / 2 := by
  have hdiv : (p.toNat + 32) / 48 = j + 1 := by omega
  rw [pitchRatio, if_pos (by omega), hdiv]
  push_cast
  ring

theorem pitchRatio_free {p : Byte} (hp : ∀ j : Fin 5, p.toNat ≠ 16 + 48 * j.val) :
    pitchRatio p = Config.pitchRatioFree p := by
  refine if_neg fun hmod => hp ⟨(p.toNat - 16) / 48, by omega⟩ ?_
  show p.toNat = 16 + 48 * ((p.toNat - 16) / 48)
  omega

theorem stepOf_square {v : Variant} (hv : xoClass v = false) (p : Byte) :
    stepOf v p = Config.audioRound (27535 / 129 / (Config.sampleRate : Rat)) := by
  rw [stepOf, exactStep, if_neg (Bool.eq_false_iff.mp hv)]

theorem stepOf_exponential {v : Variant} (hv : xoClass v = true) (p : Byte) :
    stepOf v p = Config.audioRound (4000 * pitchRatio p / 128 / (Config.sampleRate : Rat)) := by
  rw [stepOf, exactStep, if_pos hv]

theorem stepFollowsPitch_all (s : State) : stepFollowsPitch s := by
  refine ⟨fun hv => ?_, fun j hv hp => ?_, fun hv hp => ?_⟩
  · rw [stepOf_square hv]; norm_num
  · rw [stepOf_exponential hv, pitchRatio_exact j.val hp]
  · rw [stepOf_exponential hv, pitchRatio_free hp]

/-! ## The encoding -/

theorem amplitude_fits_pcmWidth :
    Config.pcmWidth = 8 ∧ Config.amplitude ≤ 127 ∨ Config.pcmWidth = 16 ∧ Config.amplitude ≤ 32767 := by
  obtain ⟨_, hlt⟩ := amplitude_range
  rcases pcmWidth_cases with hw | hw
  · rw [hw] at hlt; exact .inl ⟨hw, Nat.le_of_lt_succ hlt⟩
  · rw [hw] at hlt; exact .inr ⟨hw, Nat.le_of_lt_succ hlt⟩

/-- Every sample of a frame is one that its encoding gives back. -/
theorem State.map_toInt_pcmBuffer (s : State) :
    s.pushSamples.pcmBuffer.map BitVec.toInt = s.pushSamples.pcmSamples := by
  have hround : ∀ a ∈ s.pushSamples.pcmSamples, (encodeSample a).toInt = a := fun a ha => by
    by_cases h : s.st = 0
    · exact toInt_encodeSample (.inl (State.eq_zero_of_mem_pcmSamples h ha))
    · exact toInt_encodeSample (.inr (State.amplitude_of_mem_pcmSamples h ha))
  rw [State.pcmBuffer, List.map_map]
  exact (List.map_congr_left hround).trans (List.map_id' _)

/-- Settles O30: a frame of tone is the run of the synthesizer, whose sample `k` is read at the phase after `k`
updates; a frame of silence is zeros. -/
theorem pcmBufferFollowsSoundTimer : Obligations.PcmBufferFollowsSoundTimer := by
  intro s
  refine ⟨s.length_pcmSamples, fun h => ⟨congrArg State.phase (State.pushSamples_silence h), fun a => ?_⟩,
    fun h a => ?_, fun h hones a ha => ?_, fun h k hk i hi => ?_, fun hp k => ?_, soundFollowsTimer_pushSamples s,
    stepFollowsPitch_all s, amplitude_range.1, amplitude_fits_pcmWidth, s.map_toInt_pcmBuffer⟩
  · exact State.eq_zero_of_mem_pcmSamples h
  · exact State.amplitude_of_mem_pcmSamples h
  · obtain ⟨phase, rfl⟩ := State.toneSample_of_mem_pcmSamples h ha
    exact toneSample_ones hones phase
  · rw [State.pcmSamples_tone h, synth_getElem? _ _ s.samplesPerFrame k _ hk, toneSample_of_floor hi]
  · obtain ⟨h0, h1⟩ := phaseAt_range (stepOf s.variant s.pitch) s.phase hp k
    exact exists_fin_eq_floor h0 h1

end Sys2Proof.Machine
end

section
/-! PROOF. What an instruction leaves in `RUN`, and the errors of the stack (60_exceptions.md rules R420, R422,
R427). -/

namespace Sys2Proof.Machine

open Sys2Proof.Safety

variable {s t : State}

/-! ## `RUN` after an instruction -/

/-- What an instruction run in `s` can leave in `RUN`. -/
inductive RunAfter (s : State) : Instr → RunState → Prop
  | kept (i : Instr) : RunAfter s i s.run
  /-- A draw that waits for the display. -/
  | waits (x y : RegIx) (n : Nibble) : RunAfter s (.drw x y n) .frameWait
  | halts : RunAfter s .exit .halted
  /-- A call on a full stack. -/
  | overflows (nnn : Imm12) (hsp : s.sp.val = 16) :
      RunAfter s (.call nnn) (.faulted (.stackOverflow s.instrAddr))
  /-- A return on an empty stack. -/
  | underflows (hsp : s.sp.val = 0) : RunAfter s .ret (.faulted (.stackUnderflow s.instrAddr))

/-- A state whose `RUN` is as before. -/
theorem RunAfter.of_run_eq (i : Instr) (h : t.run = s.run) : RunAfter s i t.run := h ▸ .kept i

theorem exec_call_full (nnn : Imm12) (h : s.sp.val = 16) :
    exec (.call nnn) s = .next (s.raise (.stackOverflow s.instrAddr)) := dif_neg (by simp [h])

theorem exec_ret_empty (h : s.sp.val = 0) : exec .ret s = .next (s.raise (.stackUnderflow s.instrAddr)) := if_pos h

@[simp] theorem State.skipIf_run (s : State) (c : Bool) : (s.skipIf c).run = s.run := by rw [State.skipIf_frame]

@[simp] theorem State.setLogic_run (s : State) (x : RegIx) (r : Byte) : (s.setLogic x r).run = s.run := by
  rw [State.setLogic_frame]

@[simp] theorem State.storeBytes_run (s : State) (a : Addr) (bs : List Byte) : (s.storeBytes a bs).run = s.run := by
  rw [State.storeBytes_frame]

@[simp] theorem State.setRegs_run (s : State) (ps : List (RegIx × Byte)) : (s.setRegs ps).run = s.run := by
  rw [State.setRegs_frame]

@[simp] theorem State.setFlags_run (s : State) (ps : List (RegIx × Byte)) : (s.setFlags ps).run = s.run := by
  rw [State.setFlags_frame]

@[simp] theorem State.autoInc_run (s : State) (x : RegIx) : (s.autoInc x).run = s.run := by rw [State.autoInc_frame]

@[simp] theorem State.setExt_run (s : State) (e : Bool) : (s.setExt e).run = s.run := by rw [State.setExt_frame]

theorem runAfter_call (s : State) (nnn : Imm12) :
    ∃ t, exec (.call nnn) s = .next t ∧ RunAfter s (.call nnn) t.run := by
  by_cases hsp : s.sp.val = 16
  · exact ⟨_, exec_call_full nnn hsp, .overflows nnn hsp⟩
  · exact ⟨_, exec_call nnn (by omega), .kept _⟩

theorem runAfter_ret (s : State) : ∃ t, exec .ret s = .next t ∧ RunAfter s .ret t.run := by
  by_cases hsp : s.sp.val = 0
  · exact ⟨_, exec_ret_empty hsp, .underflows hsp⟩
  · exact ⟨_, exec_ret hsp, .kept _⟩

theorem runAfter_drw (s : State) (x y : RegIx) (n : Nibble) :
    ∃ t, exec (.drw x y n) s = .next t ∧ RunAfter s (.drw x y n) t.run := by
  refine ⟨_, exec_drw s x y n, ?_⟩
  unfold State.drawn
  split
  · exact .waits x y n
  · exact .kept _

theorem runAfter_ldVxK (s : State) (x : RegIx) :
    ∃ t, exec (.ldVxK x) s = .next t ∧ RunAfter s (.ldVxK x) t.run := by
  show ∃ t, execLdVxK x s = .next t ∧ _
  unfold execLdVxK
  split
  · split <;> exact ⟨_, rfl, .kept _⟩
  · split <;> exact ⟨_, rfl, .kept _⟩

/-- Every instruction answers a next state, in which `RUN` is one of those of `RunAfter`. -/
theorem exec_runAfter (i : Instr) (s : State) : ∃ t, exec i s = .next t ∧ RunAfter s i t.run := by
  cases i with
  | ldImm | addImm | ldReg | addReg | subReg | shr | subn | shl | rnd | jp | jpOffset | ldI | ldILong | addI | ldF
  | ldHF | cls | scd | scu | scr | scl | plane | audio | pitch | ldVxDt | ldDtVx | ldStVx =>
    exact ⟨_, rfl, .kept _⟩
  | orReg | andReg | xorReg => exact ⟨_, rfl, .of_run_eq _ (s.setLogic_run _ _)⟩
  | seImm | sneImm | seReg | sneReg | skp | sknp => exact ⟨_, rfl, .of_run_eq _ (s.skipIf_run _)⟩
  | ldB | saveRange => exact ⟨_, rfl, .of_run_eq _ (s.storeBytes_run _ _)⟩
  | loadRange | loadFlags => exact ⟨_, rfl, .of_run_eq _ (s.setRegs_run _)⟩
  | saveFlags => exact ⟨_, rfl, .of_run_eq _ (s.setFlags_run _)⟩
  | storeRegs x => exact ⟨_, rfl, .of_run_eq _ ((State.autoInc_run _ x).trans (s.storeBytes_run _ _))⟩
  | loadRegs x => exact ⟨_, rfl, .of_run_eq _ ((State.autoInc_run _ x).trans (s.setRegs_run _))⟩
  | low | high => exact ⟨_, rfl, .of_run_eq _ (s.setExt_run _)⟩
  | exit => exact ⟨_, rfl, .halts⟩
  | call nnn => exact runAfter_call s nnn
  | ret => exact runAfter_ret s
  | drw x y n => exact runAfter_drw s x y n
  | ldVxK x => exact runAfter_ldVxK s x

/-- Settles O32, by what the instruction leaves in `RUN`. -/
theorem onlyStackInstructionsFault : Obligations.OnlyStackInstructionsFault := by
  intro i s
  obtain ⟨t, hexec, hrun⟩ := exec_runAfter i s
  refine ⟨t, hexec, ?_⟩
  generalize t.run = run at hrun
  cases hrun with
  | kept => exact ⟨fun _ => .inl, fun _ => id, .inl⟩
  | waits => exact ⟨nofun, nofun, nofun⟩
  | halts => exact ⟨nofun, nofun, fun _ => .inr rfl⟩
  | overflows nnn hsp =>
    refine ⟨fun r hr => .inr (.inl ⟨⟨nnn, rfl⟩, hsp, ?_⟩), nofun, nofun⟩
    exact (RunState.faulted.inj hr).symm
  | underflows hsp =>
    refine ⟨fun r hr => .inr (.inr ⟨rfl, hsp, ?_⟩), nofun, nofun⟩
    exact (RunState.faulted.inj hr).symm

/-! ## The errors of the stack -/

/-- An instruction that raises an error is the fault of its step (60_exceptions.md rule R420). -/
theorem runInstr_of_raise {i : Instr} {r : Fault} (h : exec i s.advance = .next (t.raise r)) :
    runInstr i s = .fault r := by
  rw [runInstr, h]
  rfl

/-- The address that an error of the stack records is the one its instruction was fetched from. -/
theorem State.instrAddr_ready_advance (h : s.pc.toNat < memSize s.variant) : s.ready.advance.instrAddr = s.pc := by
  rw [State.instrAddr_advance _ (by simpa using h), State.ready_pc]

theorem State.sp_ready_advance (s : State) : s.ready.advance.sp = s.sp := s.ready_sp

/-- Settles O50: the two instructions raise their errors and write nothing else, and a step that runs one is its
fault. -/
theorem stackErrorsWriteNothingAndFault : Obligations.StackErrorsWriteNothingAndFault := by
  refine fun s nnn => ⟨exec_call_full nnn, exec_ret_empty, fun hlive hinbox hpc =>
    ⟨fun hf hsp => ?_, fun hf hsp => ?_⟩⟩
  · rw [← State.sp_ready_advance] at hsp
    rw [step_eq_runInstr hlive hinbox hf, runInstr_of_raise (exec_call_full nnn hsp),
      State.instrAddr_ready_advance hpc]
  · rw [← State.sp_ready_advance] at hsp
    rw [step_eq_runInstr hlive hinbox hf, runInstr_of_raise (exec_ret_empty hsp),
      State.instrAddr_ready_advance hpc]

end Sys2Proof.Machine
end

section
/-! PROOF. The step by what the decoder reads (30_encoding.md rules R113, R121; 60_exceptions.md rules R421, R425). -/

namespace Sys2Proof.Machine

open Sys2Proof.Safety

variable {s : State}

/-! ## A valid word -/

theorem sameMemory_ready_advance (s : State) : sameMemory s s.ready.advance := s.ready_read

theorem State.reg_ready_advance (s : State) (k : RegIx) : s.ready.advance.reg k = s.reg k :=
  State.reg_congr (t := s.ready.advance) s.ready_v k

theorem State.toNat_ready_advance (s : State) : s.ready.advance.pc.toNat = (s.pc.toNat + 2) % memSize s.variant := by
  rw [State.toNat_advance, State.ready_pc, State.ready_variant]

/-- Settles O19: the step is that of the decoded instruction, and readiness touches none of what the fetch reads. -/
theorem stepRunsDecodedInstruction : Obligations.StepRunsDecodedInstruction := by
  refine fun s i hlive hinbox hf => ⟨?_, s.ready_hookCalls, fun hin hrun => ?_, s.toNat_ready_advance,
    s.reg_ready_advance, sameMemory_ready_advance s⟩
  · rw [step_eq_runInstr hlive hinbox hf]
    rfl
  · rw [s.ready_eq hin hrun]
    rfl

/-! ## A word without an instruction -/

theorem State.ready_readWord (s : State) (a : Addr) : s.ready.readWord a = s.readWord a := by
  simp only [State.readWord, State.ready_read]

/-- The step of a live session with no host move listed that decodes no instruction is the decoder's error. -/
theorem step_eq_decodeError {d : Decoded} (hlive : live s) (hinbox : s.inbox = []) (hf : s.fetchDecode = d)
    (hd : ∀ i, d ≠ .valid i) : step s = (s.ready.decodeError d).outcome := by
  rw [step_eq_instrStep s hlive hinbox, instrStep, State.ready_fetchDecode, hf]
  cases d with
  | valid i => exact absurd rfl (hd i)
  | invalid | unknownExtension | flagRangeUnknown => rfl

/-- Settles O20: the decoder's error is a write of `PC` and the fault raised, which is the step's answer. -/
theorem stepFaultsOnInvalidWord : Obligations.StepFaultsOnInvalidWord := by
  refine fun s hlive hinbox hf => ⟨?_, rfl⟩
  calc step s = (s.ready.decodeError .invalid).outcome := step_eq_decodeError hlive hinbox hf nofun
    _ = .fault (.invalidInstruction (s.ready.readWord s.ready.pc) s.ready.pc) := rfl
    _ = .fault (.invalidInstruction (s.readWord s.pc) s.pc) := by rw [State.ready_readWord, State.ready_pc]

/-- Settles O21: each of the two answers of the decoder is its refusal. -/
theorem stepRefusesUnknownWords : Obligations.StepRefusesUnknownWords := fun _ hlive hinbox =>
  ⟨fun hf => step_eq_decodeError hlive hinbox hf nofun, fun hf => step_eq_decodeError hlive hinbox hf nofun⟩

end Sys2Proof.Machine
end

section
/-! PROOF. The host's buffers at the end of a frame and at its call of `populateRenderBuffer` (60_exceptions.md rule
R424; 41_display.md rule R253). -/

namespace Sys2Proof.Machine

open Sys2Proof.Safety

variable {s : State}

theorem pcmFits_iff {n : Nat} : s.pcmFits (some n) = true ↔ n = Config.sampleRate / s.settings.frameRate := beq_iff_eq

theorem pcmFits_of_wrong_size {pcm : Option Nat} {n : Nat} (h : pcm = some n)
    (hne : n ≠ Config.sampleRate / s.settings.frameRate) : s.pcmFits pcm = false := by
  rw [h]
  exact Bool.eq_false_iff.mpr (mt pcmFits_iff.mp hne)

theorem gridFits_of_wrong_size {grid : Option (Nat × Nat)} {g : Nat × Nat} (h : grid = some g)
    (hne : g ≠ (s.bufWidth, s.bufHeight)) : s.gridFits grid = false := by
  rw [h]
  exact Bool.eq_false_iff.mpr (mt gridFits_iff.mp hne)

/-- A buffer the host does not name fits, and so does one of the right size. -/
theorem pcmFits_of_right_size {pcm : Option Nat}
    (h : pcm = none ∨ pcm = some (Config.sampleRate / s.settings.frameRate)) : s.pcmFits pcm = true := by
  rcases h with rfl | rfl
  · rfl
  · exact pcmFits_iff.mpr rfl

/-- A grid the host does not name fits, and so does one of the right size. -/
theorem gridFits_of_right_size {grid : Option (Nat × Nat)}
    (h : grid = none ∨ grid = some (s.bufWidth, s.bufHeight)) : s.gridFits grid = true := by
  rcases h with rfl | rfl
  · rfl
  · exact gridFits_iff.mpr rfl

/-- With a move of the host listed, the step of a live session makes it. -/
theorem step_eq_hostMove {e : HostEvent} {rest : List HostEvent} (hlive : live s) (hinbox : s.inbox = e :: rest) :
    step s = hostMove s rest e := by
  unfold step machineStep
  rcases hlive with hrun | hrun <;> simp [hrun, hinbox]

theorem State.outcome_of_live (h : live s) : s.outcome = .next s := by
  unfold State.outcome
  rcases h with hrun | hrun <;> rw [hrun]

/-- Settles O29: the end of a frame and the host's call each ask whether the buffers fit. -/
theorem wrongBufferIsArgumentError : Obligations.WrongBufferIsArgumentError := by
  refine fun s => ⟨fun n hn hne => ?_, fun g hg hne => ?_, fun hpcm hgrid => ?_, fun grid rest hlive hinbox =>
    ⟨fun g hg hne => ?_, fun hgrid => ?_⟩⟩
  · exact s.endFrame_argumentError (.inr (pcmFits_of_wrong_size hn hne))
  · exact s.endFrame_argumentError (.inl (gridFits_of_wrong_size hg hne))
  · exact ⟨_, (s.endFrame_next _).mpr ⟨gridFits_of_right_size hgrid, pcmFits_of_right_size hpcm, rfl⟩⟩
  · have hfits : s.gridFits grid = false := gridFits_of_wrong_size hg hne
    refine ⟨by rw [s.afterRender_argumentError hfits, State.raise_run], ?_⟩
    rw [step_eq_hostMove hlive hinbox, hostMove, State.afterRender_argumentError _ (by exact hfits)]
    rfl
  · have hfits : s.gridFits grid = true := gridFits_of_right_size hgrid
    rw [step_eq_hostMove hlive hinbox, hostMove, State.afterRender_fits _ (by exact hfits),
      State.outcome_of_live (by exact hlive)]

end Sys2Proof.Machine
end

section
/-! PROOF. The end of a frame after an instruction: the slot or the cycles it uses, the timers, the sound and the budget
(70_reset_and_hazards.md rules R481 to R487; 60_exceptions.md rule R440). -/

namespace Sys2Proof.Machine

open Sys2Proof.Safety

variable {s t u before : State} {i : Instr}

/-! ## An instruction that does not end the session -/

/-- Only a running session goes on with its frame (70_reset_and_hazards.md rule R483). -/
theorem State.run_of_loopGoesOn (h : s.loopGoesOn = true) : s.run = .running := by
  unfold State.loopGoesOn at h
  exact eq_of_beq (Bool.and_eq_true_iff.mp h).1

theorem State.loopGoesOn_of_frameWait (h : s.run = .frameWait) : s.loopGoesOn = false :=
  Bool.eq_false_iff.mpr fun hl => absurd ((State.run_of_loopGoesOn hl).symm.trans h) nofun

theorem State.loopGoesOn_iff_budget (hm : s.strictMode = false) :
    s.loopGoesOn = true ↔ s.run = .running ∧ s.slots < s.ipfEff := by
  refine ⟨fun h => ?_, fun ⟨hr, hslot⟩ => (s.loopGoesOn_budget hm hr).trans (decide_eq_true hslot)⟩
  have hr := State.run_of_loopGoesOn h
  exact ⟨hr, of_decide_eq_true ((s.loopGoesOn_budget hm hr).symm.trans h)⟩

theorem State.loopGoesOn_iff_strict (hm : s.strictMode = true) :
    s.loopGoesOn = true ↔ s.run = .running ∧ s.cyc < (s.frameCyc / 3668 + 1) * 3668 := by
  refine ⟨fun h => ?_, fun ⟨hr, hcyc⟩ => (s.loopGoesOn_strict hm hr).trans (decide_eq_true hcyc)⟩
  have hr := State.run_of_loopGoesOn h
  exact ⟨hr, of_decide_eq_true ((s.loopGoesOn_strict hm hr).symm.trans h)⟩

@[simp] theorem State.charge_run (s : State) (i : Instr) (before : State) : (s.charge i before).run = s.run := by
  rw [State.charge_frame]

@[simp] theorem State.charge_strictMode (s : State) (i : Instr) (before : State) :
    (s.charge i before).strictMode = s.strictMode := State.strictMode_congr (by rw [State.charge_frame])

@[simp] theorem State.charge_inbox (s : State) (i : Instr) (before : State) :
    (s.charge i before).inbox = s.inbox := by rw [State.charge_frame]

theorem State.afterInstr_of_goesOn (hl : (t.charge i before).loopGoesOn = true) :
    t.afterInstr i before = .next (t.charge i before) := by
  have hr : t.run = .running := (t.charge_run i before).symm.trans (State.run_of_loopGoesOn hl)
  unfold State.afterInstr
  rw [hr]
  exact if_pos hl

theorem State.afterInstr_of_ends (h : live t) (hl : (t.charge i before).loopGoesOn = false) :
    t.afterInstr i before = (t.charge i before).endFrame := by
  unfold State.afterInstr
  rcases h with h | h <;> rw [h] <;> exact if_neg (Bool.eq_false_iff.mp hl)

/-- A step that runs an instruction is what the frame makes of the state that the instruction leaves. -/
theorem step_eq_afterInstr (hlive : live s) (hinbox : s.inbox = []) (hf : s.fetchDecode = .valid i)
    (he : exec i s.ready.advance = .next t) : step s = t.afterInstr i s.ready := by
  rw [step_eq_runInstr hlive hinbox hf, runInstr, he]

/-- Within a frame an instruction leaves the frame, its start and `CYC` as they are. -/
theorem exec_loop_fields (hin : s.inFrame = true) (hr : s.run = .running) (he : exec i s.ready.advance = .next t) :
    t.inFrame = true ∧ t.frameCyc = s.frameCyc ∧ t.cyc = s.cyc := by
  rw [s.ready_eq hin hr] at he
  rw [exec_frame he]
  exact ⟨hin, rfl, rfl⟩

theorem strictMode_of_exec (he : exec i s.ready.advance = .next t) : t.strictMode = s.strictMode :=
  State.strictMode_congr ((exec_settings he).trans s.ready_settings)

/-! ## What the end of a frame leaves -/

theorem endFrame_soundFollowsTimer (h : s.endFrame = .next t) : soundFollowsTimer s t := by
  obtain ⟨_, _, rfl⟩ := (s.endFrame_next t).mp h
  rw [State.closeFrame_frame]
  exact soundFollowsTimer_pushSamples s

theorem State.pushSamples_decrements (s : State) : s.pushSamples.decrements = s.decrements := by
  rw [State.pushSamples_frame]
  rfl

theorem endFrame_toNat_timers (h : s.endFrame = .next t) :
    t.dt.toNat = s.dt.toNat - s.decrements ∧ t.st.toNat = s.st.toNat - s.decrements := by
  obtain ⟨_, _, rfl⟩ := (s.endFrame_next t).mp h
  have htimers := s.pushSamples.toNat_closeFrame
  rw [State.pushSamples_decrements] at htimers
  rw [State.pushSamples_frame] at htimers ⊢
  exact htimers

/-- A byte that is one less than another, down to 0, is its decrement. -/
theorem eq_tickDown_of_toNat {a b : Byte} (h : a.toNat = b.toNat - 1) : a = tickDown b :=
  BitVec.eq_of_toNat_eq (h.trans (tickDown_toNat b).symm)

/-- Outside strict mode the end of a frame decrements each timer once. -/
theorem endFrame_timers_budget (hm : s.strictMode = false) (h : s.endFrame = .next t) :
    t.dt = tickDown s.dt ∧ t.st = tickDown s.st := by
  obtain ⟨hdt, hst⟩ := endFrame_toNat_timers h
  rw [s.decrements_budget hm] at hdt hst
  exact ⟨eq_tickDown_of_toNat hdt, eq_tickDown_of_toNat hst⟩

/-- With buffers of the right sizes an instruction with which the loop does not go on ends its frame. -/
theorem exists_afterInstr_ends (h : live t) (hl : (t.charge i before).loopGoesOn = false)
    (hgrid : t.gridFits t.hostGrid = true) (hpcm : t.pcmFits t.hostPcm = true) :
    ∃ u, t.afterInstr i before = .next u ∧ (t.charge i before).endFrame = .next u := by
  have hend : ∃ u, (t.charge i before).endFrame = .next u := by
    refine ⟨_, (State.endFrame_next _ _).mpr ⟨?_, ?_, rfl⟩⟩
    · rw [State.charge_frame]; exact hgrid
    · rw [State.charge_frame]; exact hpcm
  obtain ⟨u, hu⟩ := hend
  exact ⟨u, (State.afterInstr_of_ends h hl).trans hu, hu⟩

/-- The charge for the instruction bears on neither the sound nor the budget of the frame's end. -/
theorem soundAndBudget_endFrame_charge (h : (t.charge i before).endFrame = .next u) :
    soundFollowsTimer t u ∧ budgetFollowsOverrun t u := by
  have hsound := endFrame_soundFollowsTimer h
  have hbudget := frameEndSetsAdaptiveBudget _ _ h
  rw [State.charge_frame] at hsound hbudget
  exact ⟨hsound, hbudget⟩

/-- Outside strict mode each timer that the instruction leaves is decremented once. -/
theorem timers_endFrame_charge (hm : t.strictMode = false) (h : (t.charge i before).endFrame = .next u) :
    u.dt = tickDown t.dt ∧ u.st = tickDown t.st := by
  have htimers := endFrame_timers_budget ((t.charge_strictMode i before).trans hm) h
  rw [State.charge_frame] at htimers
  exact htimers

/-! ## Frames outside strict mode -/

/-- Outside strict mode the loop goes on exactly while the session runs and a slot is left. -/
theorem loopGoesOn_charge_budget (i : Instr) (before : State) (hm : t.strictMode = false) :
    (t.charge i before).loopGoesOn = true ↔ t.run = .running ∧ t.slots + 1 < t.ipfEff := by
  rw [State.loopGoesOn_iff_budget ((t.charge_strictMode i before).trans hm), t.charge_budget i before hm]

/-- Settles O24: the charge is one slot, and whether the loop goes on decides between the charged state and the end of
its frame. -/
theorem instructionUsesOneSlotAndFrameEnds : Obligations.InstructionUsesOneSlotAndFrameEnds := by
  intro s t i hrun hin hinbox hm hf he hlive hgrid hpcm
  have hstep := step_eq_afterInstr (.inl hrun) hinbox hf he
  have hmt : t.strictMode = false := (strictMode_of_exec he).trans hm
  have hcharge := t.charge_budget i s.ready hmt
  have hloop := loopGoesOn_charge_budget i s.ready hmt
  refine ⟨fun hr hslot => ?_, fun hend => ?_⟩
  · rw [hstep, State.afterInstr_of_goesOn (hloop.mpr ⟨hr, hslot⟩), hcharge]
  · have hl : (t.charge i s.ready).loopGoesOn = false := Bool.eq_false_iff.mpr fun h => by
      obtain ⟨hr, hslot⟩ := hloop.mp h
      exact hend.elim (fun hw => absurd (hr.symm.trans hw) nofun) hslot.not_ge
    obtain ⟨u, hafter, hu⟩ := exists_afterInstr_ends hlive hl hgrid hpcm
    obtain ⟨hdt, hst⟩ := timers_endFrame_charge hmt hu
    obtain ⟨hsound, hbudget⟩ := soundAndBudget_endFrame_charge hu
    have hframe := State.endFrame_frame _ _ hu
    rw [hcharge] at hframe
    exact ⟨u, hstep.trans hafter, hframe, hdt, hst, hsound, hbudget⟩

/-! ## Strict frames -/

/-- In strict mode an instruction within a frame is charged its cost in the state before the step: the breakpoint hook
bears on no cost. -/
theorem charge_eq_of_strict (hin : s.inFrame = true) (hr : s.run = .running) (he : exec i s.ready.advance = .next t)
    (hm : t.strictMode = true) : t.charge i s.ready = { t with cyc := s.cyc + cycleCost i s } := by
  obtain ⟨_, _, hcyc⟩ := exec_loop_fields hin hr he
  have hcost : cycleCost i s.ready = cycleCost i s := by
    rw [s.ready_eq hin hr]
    exact cycleCost_congr i rfl
  rw [t.charge_strict i s.ready hm, hcost, hcyc]

/-- In strict mode each timer drops once for each boundary that the frame has crossed. -/
theorem endFrame_timers_strict (hm : s.strictMode = true) (h : s.endFrame = .next t) :
    t.dt.toNat = s.dt.toNat - (s.cyc / 3668 - s.frameCyc / 3668) ∧
      t.st.toNat = s.st.toNat - (s.cyc / 3668 - s.frameCyc / 3668) := by
  have htimers := endFrame_toNat_timers h
  rw [s.decrements_strict hm] at htimers
  exact htimers

/-- Settles O28: the charge is the cost of the instruction, and whether the loop goes on decides between the charged
state and the end of its frame. -/
theorem strictFrameCountsCycles : Obligations.StrictFrameCountsCycles := by
  intro s t i hrun hin hinbox hm hf he hlive hgrid hpcm
  have hstep := step_eq_afterInstr (.inl hrun) hinbox hf he
  have hmt : t.strictMode = true := (strictMode_of_exec he).trans hm
  obtain ⟨hint, hstart, _⟩ := exec_loop_fields hin hrun he
  have hpos : s.cyc < s.cyc + cycleCost i s := Nat.lt_add_of_pos_right (Nat.succ_pos _)
  have hcharge := charge_eq_of_strict hin hrun he hmt
  have hmc := (t.charge_strictMode i s.ready).trans hmt
  have hloop : (t.charge i s.ready).loopGoesOn = true ↔
      t.run = .running ∧ s.cyc + cycleCost i s < (s.frameCyc / 3668 + 1) * 3668 := by
    rw [State.loopGoesOn_iff_strict hmc, hcharge, hstart]
  by_cases hl : (t.charge i s.ready).loopGoesOn = true
  · have hafter := State.afterInstr_of_goesOn hl
    rw [hcharge] at hafter
    exact ⟨_, hstep.trans hafter, hpos, rfl, ⟨fun _ => hloop.mp hl, fun _ => hint⟩, fun _ => rfl,
      fun hout => absurd (hint.symm.trans hout) nofun⟩
  · obtain ⟨u, hafter, hu⟩ := exists_afterInstr_ends hlive (Bool.eq_false_iff.mpr hl) hgrid hpcm
    have hframe := State.endFrame_frame _ _ hu
    have htimers := endFrame_timers_strict hmc hu
    obtain ⟨hsound, hbudget⟩ := soundAndBudget_endFrame_charge hu
    rw [hcharge] at hframe
    rw [hcharge, hstart] at htimers
    have hcyc : u.cyc = s.cyc + cycleCost i s := by rw [hframe]
    have hout : u.inFrame = false := by rw [hframe]
    rw [← hcyc] at hpos hloop htimers hframe
    exact ⟨u, hstep.trans hafter, hpos, hcyc,
      ⟨fun hc => absurd (hc.symm.trans hout) nofun, fun hgo => absurd (hloop.mpr hgo) hl⟩,
      fun hc => absurd (hc.symm.trans hout) nofun, fun _ => ⟨htimers.1, htimers.2, hsound, hbudget, hframe⟩⟩

/-! ## A draw that waits for the display -/

/-- Nothing that the sound of a frame reads is touched by readiness. -/
theorem soundFollowsTimer_of_ready (h : soundFollowsTimer s.ready u) : soundFollowsTimer s u := by
  rw [s.ready_frame] at h
  exact h

theorem State.drawn_run_of_displayWait (h : s.quirks.displayWait = true) (x y : RegIx) (n : Nibble) :
    (s.drawn x y n).run = .frameWait := if_pos h

theorem State.ready_slots_between (h : s.inFrame = false) : s.ready.slots = 0 := by
  rw [s.ready_between h]
  rfl

/-- Settles O25: the draw leaves a session that waits, so that the loop does not go on and the frame ends; between
frames the next fetch is in a new one. -/
theorem displayWaitEndsTheFrame : Obligations.DisplayWaitEndsTheFrame := by
  intro s u x y n hlive hinbox hquirk hf hstep
  have hwait : (s.ready.advance.drawn x y n).run = .frameWait :=
    State.drawn_run_of_displayWait (by rw [← hquirk]; exact congrArg Quirks.displayWait s.ready_quirks) x y n
  have hl : ((s.ready.advance.drawn x y n).charge (.drw x y n) s.ready).loopGoesOn = false :=
    State.loopGoesOn_of_frameWait ((State.charge_run _ _ _).trans hwait)
  rw [step_eq_afterInstr hlive hinbox hf (exec_drw _ x y n), State.afterInstr_of_ends (.inr hwait) hl] at hstep
  obtain ⟨hsound, hbudget⟩ := soundAndBudget_endFrame_charge hstep
  have hframe := State.endFrame_frame _ _ hstep
  have hrun : u.run = .frameWait := by rw [hframe]; exact (State.charge_run _ _ _).trans hwait
  have hout : u.inFrame = false := by rw [hframe]
  obtain ⟨hready, hinFrame⟩ := u.ready_running (.inr hrun)
  refine ⟨hrun, hout, soundFollowsTimer_of_ready hsound, hbudget, fun hm => ?_, hready, hinFrame,
    State.ready_slots_between hout⟩
  have htimers := timers_endFrame_charge ((strictMode_of_exec (exec_drw _ x y n)).trans hm) hstep
  change u.dt = tickDown s.ready.dt ∧ u.st = tickDown s.ready.st at htimers
  rw [s.ready_frame] at htimers
  exact htimers

end Sys2Proof.Machine
end

section
/-! PROOF. The moves of the host, the tick among them, between frames and inside one (70_reset_and_hazards.md rules R480,
R484, R490; 60_exceptions.md rules R428, R446). -/

namespace Sys2Proof.Machine

open Sys2Proof.Safety

variable {s t : State} {i : Instr} {rest : List HostEvent}

/-! ## An instruction and the list of moves -/

theorem State.ready_inbox (s : State) : s.ready.inbox = s.inbox := by rw [State.ready_frame]

/-- An instruction and the end of its frame take no move of the host. -/
theorem InstrStepTo.inbox_eq (h : InstrStepTo s t) : t.inbox = s.inbox := by
  have after : ∀ {i u}, exec i s.advance = .next u → u.inbox = s.inbox := fun he => by rw [exec_frame he]; rfl
  cases h with
  | halts i _ _ he => exact after he
  | goesOn i u _ he => exact (State.charge_inbox _ _ _).trans (after he)
  | endsFrame i u _ _ he _ _ hu => rw [State.endFrame_frame _ _ hu]; exact (State.charge_inbox _ _ _).trans (after he)

theorem instrStep_of_valid (hf : s.fetchDecode = .valid i) : instrStep s = runInstr i s := by
  rw [instrStep, hf]

/-- Where the Processor goes on, its next instruction runs and the list of moves is kept. -/
theorem instrStep_ready_keeps_inbox (h : step s = instrStep s.ready) :
    (∀ i, s.fetchDecode = .valid i → step s = runInstr i s.ready) ∧ ∀ t, step s = .next t → t.inbox = s.inbox := by
  rw [h]
  exact ⟨fun i hf => instrStep_of_valid (s.ready_fetchDecode.trans hf),
    fun t ht => (instrStep_next ht).inbox_eq.trans s.ready_inbox⟩

/-! ## Ticks and cancellations -/

/-- Inside a frame a tick or a cancellation waits: the Processor goes on. -/
theorem hostMove_waits {e : HostEvent} (hin : s.inFrame = true) (he : e = .cancel ∨ e = .tick) :
    hostMove s rest e = instrStep s.ready := by
  rcases he with rfl | rfl <;> exact if_pos hin

theorem hostMove_cancel_between (hout : s.inFrame = false) : hostMove s rest .cancel = .fault .cancelled :=
  if_neg (Bool.eq_false_iff.mp hout)

theorem frameDue_eq_true {c : Rat} (h : s.deadline ≤ c + 1 / 1000) : s.frameDue c = true := by
  rw [State.frameDue, decide_eq_false (not_lt.mpr h)]; rfl

theorem frameDue_eq_false {c : Rat} (h : c + 1 / 1000 < s.deadline) : s.frameDue c = false := by
  rw [State.frameDue, decide_eq_true h]; rfl

theorem hostMove_tick_due (hout : s.inFrame = false) (hdue : s.frameDue s.clock = true) :
    hostMove s rest .tick = .next ({ s with inbox := rest }.beginFrame s.clock) :=
  (if_neg (Bool.eq_false_iff.mp hout)).trans (if_pos hdue)

theorem hostMove_tick_not_due (hout : s.inFrame = false) (hdue : s.frameDue s.clock = false) :
    hostMove s rest .tick = .next { s with inbox := rest } :=
  (if_neg (Bool.eq_false_iff.mp hout)).trans (if_neg (Bool.eq_false_iff.mp hdue))

theorem State.beginFrame_run_of_live (hlive : live s) (c : Rat) : (s.beginFrame c).run = .running := by
  rcases hlive with h | h <;> simp [State.beginFrame, h]

/-! ## Keys -/

theorem key_set_same (k : RegIx) (held : Bool) :
    State.key { s with keys := s.keys.set k.val held, inbox := rest } k = held := Vector.getElem_set_self k.isLt

theorem key_set_other {j k : RegIx} (held : Bool) (hj : j ≠ k) :
    State.key { s with keys := s.keys.set k.val held, inbox := rest } j = s.key j :=
  Vector.getElem_set_ne k.isLt j.isLt fun h => hj (Fin.ext h.symm)

/-- Settles O26: the step of a live session makes the host's next move, and each move is one of `hostMove`. -/
theorem tickBeginsFrameWhenDue : Obligations.TickBeginsFrameWhenDue := by
  intro s rest hlive
  have hmove {e : HostEvent} (hinbox : s.inbox = e :: rest) : step s = hostMove s rest e :=
    step_eq_hostMove hlive hinbox
  refine ⟨fun hout hinbox => ⟨fun hearly => ?_, fun hdue => ?_⟩, fun k held hinbox => ?_, fun hout hinbox => ?_,
    fun hin hinbox => ?_, fun c => hmove, fun on => hmove, hmove, fun pcm grid => hmove, fun i hinbox hf => ?_⟩
  · rw [hmove hinbox, hostMove_tick_not_due hout (frameDue_eq_false hearly)]
  · refine ⟨_, (hmove hinbox).trans (hostMove_tick_due hout (frameDue_eq_true hdue)),
      State.beginFrame_run_of_live (by exact hlive) _, rfl, rfl, rfl, rfl, s.nextDeadline_resync s.clock,
      s.nextDeadline_carry s.clock, rfl⟩
  · exact ⟨_, hmove hinbox, key_set_same k held, fun j => key_set_other held, rfl⟩
  · rw [hmove hinbox, hostMove_cancel_between hout]
  · refine instrStep_ready_keeps_inbox ?_
    rcases hinbox with hinbox | hinbox
    · rw [hmove hinbox, hostMove_waits hin (.inl rfl)]
    · rw [hmove hinbox, hostMove_waits hin (.inr rfl)]
  · rw [hmove hinbox]
    exact instrStep_of_valid ((State.ready_fetchDecode _).trans hf)

end Sys2Proof.Machine
end

section
/-! PROOF. The decoder on the encoding of every instruction (30_encoding.md rules R110 to R120). -/

namespace Sys2Proof

open Sys2Proof.Machine

theorem opcodeMap_of_group0 {w : Word} (w2 : Word) (h : fieldG w = 0x0#4) : opcodeMap w w2 = decodeGroup0 w := by
  simp [opcodeMap, h]

/-- The two vertical scrolls, the only rows of group 0 with an operand. -/
theorem opcodeMap_verticalScroll (n : Nibble) (w2 : Word) :
    opcodeMap (0x00C#12 ++ n) w2 = some (.scd n) ∧ opcodeMap (0x00D#12 ++ n) w2 = some (.scu n) := by
  have hg : fieldG (0x00C#12 ++ n) = 0x0#4 ∧ fieldG (0x00D#12 ++ n) = 0x0#4 := by revert n; decide
  rw [opcodeMap_of_group0 w2 hg.1, opcodeMap_of_group0 w2 hg.2]
  revert n; decide

/-- The row of the opcode map that an instruction's words match is its own, whatever follows a first word without a
second one. -/
theorem opcodeMap_word1 (i : Instr) (w2 : Word) : opcodeMap i.word1 (i.word2.getD w2) = some i := by
  cases i with
  | cls | ret | scr | scl | exit | low | high | audio => rfl
  | ldILong nnnn => exact (rfl : opcodeMap 0xF000#16 nnnn = _)
  | scd n => exact (opcodeMap_verticalScroll n w2).1
  | scu n => exact (opcodeMap_verticalScroll n w2).2
  | jp | call | ldI | jpOffset | seImm | sneImm | ldImm | addImm | rnd | drw => simp [Instr.word1, opcodeMap]
  | seReg | saveRange | loadRange => simp [Instr.word1, opcodeMap, decodeGroup5]
  | ldReg | orReg | andReg | xorReg | addReg | subReg | shr | subn | shl =>
    simp [Instr.word1, opcodeMap, decodeGroup8]
  | sneReg => simp [Instr.word1, opcodeMap, decodeGroup9]
  | skp | sknp => simp [Instr.word1, opcodeMap, decodeGroupE]
  | plane | ldVxDt | ldVxK | ldDtVx | ldStVx | addI | ldF | ldHF | ldB | pitch | storeRegs | loadRegs | saveFlags
  | loadFlags => simp [Instr.word1, opcodeMap, decodeGroupF]

/-- Settles O5: a well-formed instruction is the valid answer for the row that its words match. -/
theorem decodeOfEncodingIsInstruction : Obligations.DecodeOfEncodingIsInstruction := fun _ i w2 hwf =>
  decode_eq_valid_iff.mpr ⟨opcodeMap_word1 i w2, hwf⟩

end Sys2Proof
end

section
/-! PROOF. What each instruction writes, and the canonical form of memory through every step (10_state.md sections 3
to 7; 20_memory.md section 1). -/

namespace Sys2Proof.Machine

open Sys2Proof.Safety

variable {s t : State} {i : Instr}

/-! ## The writers of a piece of state -/

/-- The instructions that store to memory. -/
def WritesMemory (i : Instr) : Prop := (∃ x, i = .ldB x ∨ i = .storeRegs x) ∨ ∃ x y, i = .saveRange x y

/-- The instructions that write `I`. -/
def WritesIndex (i : Instr) : Prop :=
  (∃ nnn, i = .ldI nnn) ∨ (∃ w, i = .ldILong w) ∨
    ∃ x, i = .addI x ∨ i = .ldF x ∨ i = .ldHF x ∨ i = .storeRegs x ∨ i = .loadRegs x

/-- The instructions that write the bitplanes. -/
def WritesPlanes (i : Instr) : Prop :=
  i = .cls ∨ i = .low ∨ i = .high ∨ i = .scr ∨ i = .scl ∨ (∃ n, i = .scd n ∨ i = .scu n) ∨
    ∃ x y n, i = .drw x y n

/-- What an instruction run in `s` can leave, by the pieces of state that only named instructions write: `exec_cases`
with the writers named and every change of memory a store. -/
inductive ExecWrites (s : State) : Instr → State → Prop
  /-- Registers, `PC`, `RUN` and the count of draws, which the rule leaves to every instruction. -/
  | common (i : Instr) (v : Vector Byte 16) (pc : Addr) (run : RunState) (draws : Nat) :
      ExecWrites s i { s with v := v, pc := pc, run := run, draws := draws }
  | index (i : Instr) (hi : WritesIndex i) (v : Vector Byte 16) (pc a : Addr) :
      ExecWrites s i { s with v := v, pc := pc, i := a }
  | store (i : Instr) (hi : WritesMemory i) (a : Addr) (bs : List Byte) : ExecWrites s i (s.storeBytes a bs)
  /-- `FX55` under the quirk stores and advances `I`. -/
  | storeAndIndex (x : RegIx) (a a' : Addr) (bs : List Byte) :
      ExecWrites s (.storeRegs x) ((s.storeBytes a bs).setI a')
  | stack (i : Instr) (hi : i = .ret ∨ ∃ nnn, i = .call nnn) (pc : Addr) (stack : Vector Addr 16) (sp : Fin 17) :
      ExecWrites s i { s with pc := pc, stack := stack, sp := sp }
  | planes (i : Instr) (hi : WritesPlanes i) (v : Vector Byte 16) (run : RunState) (planes : Vector Plane 4) :
      ExecWrites s i { s with v := v, run := run, planes := planes }
  | switch (i : Instr) (hi : i = .low ∨ i = .high) (e : Bool) : ExecWrites s i (s.setExt e)
  | flags (x : RegIx) (fs : Vector Byte 16) : ExecWrites s (.saveFlags x) { s with flags := fs }
  | keyWait (x : RegIx) (v : Vector Byte 16) (pc : Addr) (k : KeyWait) :
      ExecWrites s (.ldVxK x) { s with v := v, pc := pc, keyWait := k }
  | plane (n : Nibble) : ExecWrites s (.plane n) { s with pmask := n }
  | audio (p : Pattern) : ExecWrites s .audio { s with pattern := p }
  | pitch (x : RegIx) (b : Byte) : ExecWrites s (.pitch x) { s with pitch := b }
  | delay (x : RegIx) (b : Byte) : ExecWrites s (.ldDtVx x) { s with dt := b }
  | sound (x : RegIx) (b : Byte) : ExecWrites s (.ldStVx x) { s with st := b }

theorem ExecWrites.skipIf (s : State) (i : Instr) (c : Bool) : ExecWrites s i (s.skipIf c) := by
  rw [State.skipIf_frame]
  exact .common ..

theorem ExecWrites.setLogic (s : State) (i : Instr) (x : RegIx) (r : Byte) : ExecWrites s i (s.setLogic x r) := by
  rw [State.setLogic_frame]
  exact .common ..

theorem ExecWrites.setRegs (s : State) (i : Instr) (ps : List (RegIx × Byte)) : ExecWrites s i (s.setRegs ps) := by
  rw [State.setRegs_frame]
  exact .common ..

theorem ExecWrites.of_storeRegs {x : RegIx} (h : execStoreRegs x s = .next t) : ExecWrites s (.storeRegs x) t := by
  cases h
  unfold State.autoInc
  split
  · exact .storeAndIndex x _ _ _
  · exact .store _ (.inl ⟨x, .inr rfl⟩) _ _

theorem ExecWrites.of_loadRegs {x : RegIx} (h : execLoadRegs x s = .next t) : ExecWrites s (.loadRegs x) t := by
  cases h
  rw [State.setRegs_frame, State.autoInc_frame]
  exact .index _ (.inr (.inr ⟨x, by simp⟩)) _ _ _

theorem ExecWrites.of_call {nnn : Imm12} (h : execCall nnn s = .next t) : ExecWrites s (.call nnn) t := by
  unfold execCall at h
  split at h
  · cases h; exact .stack _ (.inr ⟨nnn, rfl⟩) _ _ _
  · cases h; exact .common ..

theorem ExecWrites.of_ret (h : execRet s = .next t) : ExecWrites s .ret t := by
  unfold execRet at h
  split at h
  · cases h; exact .common ..
  · cases h; exact .stack _ (.inl rfl) _ _ _

theorem ExecWrites.of_ldVxK {x : RegIx} (h : execLdVxK x s = .next t) : ExecWrites s (.ldVxK x) t := by
  unfold execLdVxK at h
  split at h
  · split at h <;> cases h <;> exact .keyWait x _ _ _
  · split at h <;> cases h <;> exact .keyWait x _ _ _

theorem ExecWrites.of_drw {x y : RegIx} {n : Nibble} (h : execDrw x y n s = .next t) :
    ExecWrites s (.drw x y n) t := by
  have hi : WritesPlanes (.drw x y n) := by simp [WritesPlanes]
  cases h
  split <;> exact .planes _ hi _ _ _

/-- What each instruction writes. -/
theorem exec_writes (h : exec i s = .next t) : ExecWrites s i t := by
  cases i with
  | ldImm | addImm | ldReg | addReg | subReg | shr | subn | shl | rnd | ldVxDt | jp | jpOffset | exit =>
    cases h; exact .common ..
  | orReg | andReg | xorReg => cases h; exact .setLogic s _ _ _
  | seImm | sneImm | seReg | sneReg | skp | sknp => cases h; exact .skipIf s _ _
  | loadRange | loadFlags => cases h; exact .setRegs s _ _
  | ldI | addI | ldF | ldHF | ldILong => cases h; exact .index _ (by simp [WritesIndex]) _ _ _
  | loadRegs => exact .of_loadRegs h
  | ldB | saveRange => cases h; exact .store _ (by simp [WritesMemory]) _ _
  | storeRegs => exact .of_storeRegs h
  | call => exact .of_call h
  | ret => exact .of_ret h
  | cls | scd | scu | scr | scl => cases h; exact .planes _ (by simp [WritesPlanes]) _ _ _
  | drw => exact .of_drw h
  | low => cases h; exact .switch _ (.inl rfl) _
  | high => cases h; exact .switch _ (.inr rfl) _
  | saveFlags x => cases h; rw [State.setFlags_frame]; exact .flags x _
  | ldVxK => exact .of_ldVxK h
  | plane n => cases h; exact .plane n
  | audio => cases h; exact .audio _
  | pitch x => cases h; exact .pitch x _
  | ldDtVx x => cases h; exact .delay x _
  | ldStVx x => cases h; exact .sound x _

/-! ## The canonical form of memory -/

theorem storeBytes_memoryCanonical (a : Addr) (bs : List Byte) (h : memoryCanonical s) :
    memoryCanonical (s.storeBytes a bs) := by
  unfold memoryCanonical
  rw [State.storeBytes_variant]
  exact State.storeBytes_wf bs s a h

/-- An instruction changes memory by stores alone. -/
theorem exec_memoryCanonical (h : exec i s = .next t) (hs : memoryCanonical s) : memoryCanonical t := by
  cases exec_writes h with
  | store _ _ a bs => exact storeBytes_memoryCanonical a bs hs
  | storeAndIndex _ a _ bs => exact storeBytes_memoryCanonical a bs hs
  | switch => rw [State.setExt_frame]; exact hs
  | common | index | stack | planes | flags | keyWait | plane | audio | pitch | delay | sound => exact hs

theorem keptByParts_memoryCanonical : KeptByParts memoryCanonical where
  bookkeeping s t h hs := by rw [h]; exact hs
  advance _ hs := hs
  instruction _ _ _ _ := exec_memoryCanonical
  endFrame s t h hs := by rw [s.endFrame_frame t h]; exact hs

/-- Settles O11: a store keeps the form, and nothing else in a step writes memory. -/
theorem stepKeepsMemoryCanonical : Obligations.StepKeepsMemoryCanonical := fun _ _ hs h =>
  keptByParts_memoryCanonical.step hs h

/-! ## The writers named -/

/-- Settles O33, by what each instruction writes. -/
theorem onlyNamedInstructionsWrite : Obligations.OnlyNamedInstructionsWrite := by
  intro i s t h
  cases exec_writes h with
  | store _ hi => rw [State.storeBytes_frame]; simpa [WritesMemory] using fun _ => hi
  | storeAndIndex => rw [State.storeBytes_frame]; simp [State.setI]
  | index _ hi => simpa [WritesIndex] using fun _ => hi
  | stack _ hi => simpa using fun _ => hi
  | planes _ hi => simpa [WritesPlanes] using fun _ => hi
  | switch _ hi => rw [State.setExt_frame]; rcases hi with rfl | rfl <;> simp
  | common | flags | keyWait | plane | audio | pitch | delay | sound => simp

end Sys2Proof.Machine
end

section
/-! PROOF. The invariants of a constructed session and of the reset state (10_state.md section 8;
70_reset_and_hazards.md section 1). -/

namespace Sys2Proof.Machine

open Sys2Proof.Safety

variable {s : State} {r : SettingsRequest} {t0 : Rat} {keys : Vector Bool 16} {rom : List Byte}

theorem memoryCanonical_of_startSession (h : startSession r t0 keys rom = .ok s) : memoryCanonical s := by
  obtain ⟨hrom, rfl⟩ := startSession_ok_iff.mp h
  have hstart := progStart_le r.variant
  rw [romRoom] at hrom
  exact loadImage_wf r.variant rom [] _ (Memory.wf_nil _) (by omega)

theorem progStart_lt (v : Variant) : (progStart v).toNat < memSize v := by cases v <;> decide

theorem fresh_pcInBounds (cfg : Settings) (t0 : Rat) (keys : Vector Bool 16) :
    pcInBounds (State.fresh cfg t0 keys) := by
  refine ⟨progStart_lt cfg.variant, fun k => ?_⟩
  simp only [State.fresh, Vector.getElem_replicate]
  exact memSize_pos cfg.variant

theorem fresh_pixelsInBuffer (cfg : Settings) (t0 : Rat) (keys : Vector Bool 16) :
    pixelsInBuffer (State.fresh cfg t0 keys) := fun p x y hp => by
  rw [pixelOf_of_blank rfl] at hp
  cases hp

/-- No frame is in progress, and the budget is the whole target. -/
theorem fresh_schedulerSound {cfg : Settings} (t0 : Rat) (keys : Vector Bool 16) (h : 1 ≤ cfg.ipfTarget) :
    schedulerSound (State.fresh cfg t0 keys) := ⟨h, le_rfl, fun _ => rfl, nofun, nofun⟩

/-- Settles O13: the ROM is copied by writes inside the memory, and every other item has its fresh value. -/
theorem constructedSessionMeetsInvariants : Obligations.ConstructedSessionMeetsInvariants := by
  intro r t0 keys rom s h htarget
  have hmem := memoryCanonical_of_startSession h
  obtain ⟨_, rfl⟩ := startSession_ok_iff.mp h
  exact ⟨hmem, fresh_pcInBounds _ t0 keys, Nat.two_pow_pos _, ⟨fun _ => rfl, fun _ => rfl, rfl⟩,
    fresh_pixelsInBuffer _ t0 keys, fresh_schedulerSound t0 keys htarget, le_rfl, zero_lt_one⟩

theorem startSession_reset : startSession resetRequest 0 (Vector.replicate 16 false) [] = .ok State.reset := rfl

/-- Settles O12: the reset state is a constructed session with a target of 1000. -/
theorem resetMeetsInvariants : Obligations.ResetMeetsInvariants :=
  ⟨startSession_reset, rfl, rfl, constructedSessionMeetsInvariants _ _ _ _ _ startSession_reset (by decide)⟩

end Sys2Proof.Machine
end

section
/-! PROOF. The fetch of a placed instruction (20_memory.md rules R83, R96; 30_encoding.md rule R111). -/

namespace Sys2Proof.Machine

open Sys2Proof.Safety

variable {s : State}

/-- The two bytes of a word, read back big-endian. -/
theorem extractLsb'_append_bytes (w : Word) : w.extractLsb' 8 8 ++ w.extractLsb' 0 8 = w := by
  have hw := w.isLt
  refine BitVec.eq_of_toNat_eq ?_
  rw [toNat_append_eq, BitVec.extractLsb'_toNat, BitVec.extractLsb'_toNat, Nat.shiftRight_eq_div_pow,
    Nat.shiftRight_eq_div_pow]
  omega

/-- The bytes of two placed words follow each other from `PC` on: every memory has room for the four. -/
theorem State.read_placeWords (h : memoryCanonical s) (w w2 : Word) (k : Nat) (hk : k < 4) :
    (s.placeWords w w2).read (s.pc + BitVec.ofNat 24 k) = (wordBytes w ++ wordBytes w2)[k] :=
  State.read_storeBytes_inside (wordBytes w ++ wordBytes w2) s s.pc h
    (le_trans (by decide : 4 ≤ 4096) (memSize_ge s.variant)) k hk

theorem State.readWord_placeWords_first (h : memoryCanonical s) (w w2 : Word) :
    (s.placeWords w w2).readWord s.pc = w := by
  have h0 := State.read_placeWords h w w2 0 (by decide)
  rw [addr_add_zero] at h0
  have h1 : (s.placeWords w w2).read (s.pc + 1) = _ := State.read_placeWords h w w2 1 (by decide)
  rw [State.readWord, h0, h1]
  exact extractLsb'_append_bytes w

theorem State.readWord_placeWords_second (h : memoryCanonical s) (w w2 : Word) :
    (s.placeWords w w2).readWord (s.pc + 2) = w2 := by
  have h2 : (s.placeWords w w2).read (s.pc + 2) = _ := State.read_placeWords h w w2 2 (by decide)
  have h3 : (s.placeWords w w2).read (s.pc + (2 + 1)) = _ := State.read_placeWords h w w2 3 (by decide)
  rw [State.readWord, BitVec.add_assoc, h2, h3]
  exact extractLsb'_append_bytes w2

/-- A placed well-formed instruction is what the decoder reads at `PC`. -/
theorem State.fetchDecode_placeWords {i : Instr} (h : memoryCanonical s) (hwf : wellFormed s.variant i = true) :
    (s.placeWords i.word1 (i.word2.getD 0)).fetchDecode = .valid i := by
  have hpc : (s.placeWords i.word1 (i.word2.getD 0)).pc = s.pc := s.storeBytes_pc _ _
  have hv : (s.placeWords i.word1 (i.word2.getD 0)).variant = s.variant := s.storeBytes_variant _ _
  rw [State.fetchDecode, hpc, hv, State.readWord_placeWords_first h, State.readWord_placeWords_second h]
  exact decodeOfEncodingIsInstruction s.variant i 0 hwf

/-- The session in which words are placed has not ended. -/
theorem State.live_placeWords (s : State) (w w2 : Word) : live (s.placeWords w w2) := by
  show s.run.reopened = .running ∨ s.run.reopened = .frameWait
  cases s.run <;> simp [RunState.reopened]

/-- Settles O23: the words read back decode to the instruction, and the step of a live session with no host move listed
runs what it decodes. -/
theorem placedInstructionIsFetched : Obligations.PlacedInstructionIsFetched := fun s _ h hwf =>
  have hf := State.fetchDecode_placeWords h hwf
  ⟨hf, step_eq_runInstr (s.live_placeWords _ _) rfl hf⟩

end Sys2Proof.Machine
end

section
/-! PROOF. The free byte that `CXNN` draws (40_alu.md rule R170). -/

namespace Sys2Proof.Machine

/-- Settles O40: the draw counts itself, and its masked byte is one register write. -/
theorem randomResult : Obligations.RandomResult := by
  intro s x nn
  have hx : (s.drawByte.2.setReg x (s.drawByte.1 &&& nn)).reg x = Config.freeByte s.draws &&& nn :=
    State.reg_setReg_same ..
  refine ⟨_, rfl, hx, fun h0 => ?_, rfl, rfl, fun k hk => s.drawByte.2.reg_setReg_other _ hk, fun _ => rfl⟩
  rw [hx, h0]
  exact BitVec.and_zero

end Sys2Proof.Machine
end
